-- ==== Sys2Proof/Word.lean ====
section
/-! DEFINITION. The word types of the block (00_scope.md R9): bytes, 32-bit registers, 64-bit addresses and lengths. -/

namespace Sys2Proof

/-- A byte, 0 to 255 (00_scope.md R9). -/
abbrev Byte := BitVec 8

/-- A 32-bit register or cipher-state word (00_scope.md R6 REG_BITS; R8). -/
abbrev Word := BitVec 32

/-- A u64: a data-memory address or a length (00_scope.md R6 ADDR_BITS, LEN_BITS). -/
abbrev Addr := BitVec 64

/-- A byte offset inside the 4096-byte register window (10_state.md R15). -/
abbrev Offset := BitVec 12

end Sys2Proof
end

