-- ==== Sys2Proof/Config.lean ====
section
/-! DEFINITION. What is fixed for one machine: the size constants (00_scope.md R6), the OPEN base address (R7), the external
primitives (R8) and the free values (93_implementation_defined.md). An `opaque` constant has no body that a proof can see, so a
statement about it holds whatever its value is. RD_OK, WR_OK and DMA_COHERENT (R7) are plain data in State (DESIGN CHOICE, log entry 6). -/

namespace Sys2Proof.Config

/-- MAX_TEXT, the longest text in bytes (00_scope.md R6). -/
def maxText : Nat := (2 ^ 32 - 1) * 64

/-- BASE is 4096-aligned (00_scope.md R7): its bits 63:12. OPEN. DESIGN CHOICE, log entry 12. -/
opaque basePage : BitVec 52

/-- ChaChaInit(key, counter, nonce), the source's InitState (00_scope.md R8). DESIGN CHOICE, log entry 2. -/
opaque chachaInit : Vector Byte 32 → Word → Vector Byte 12 → Vector Word 16

/-- ChaChaBlock(state), one keystream block (00_scope.md R8). DESIGN CHOICE, log entry 2. -/
opaque chachaBlock : Vector Word 16 → Vector Byte 64

/-- Poly1305Tag(otk, message), the source's ComputeTag (00_scope.md R8). DESIGN CHOICE, log entry 2. -/
opaque poly1305Tag : Vector Byte 32 → List Byte → Vector Byte 16

/-- The byte drawn at draw number n: what a read of memory that is not ordinary returns (93 U5). Free value, DESIGN
CHOICE, log entry 4. -/
opaque freeByte : Nat → Byte

/-- The number drawn at draw number n: which of several admitted bytes a read returns (93 U6, U7), and how long a prefix of its
trace an abandoned command performed (93 U8). Free value, DESIGN CHOICE, log entry 4. -/
opaque freeNat : Nat → Nat

end Sys2Proof.Config
end

