-- ==== Sys2Proof/Syntax.lean ====
section
/-! DEFINITION. The seven commands (30_encoding.md R71, R81), one constructor per row of spec/opcode_table.json. A command has no
operand field: its operands are the descriptor registers and PRESENT (R70, R75). -/

namespace Sys2Proof

/-- The command set (30_encoding.md R71). -/
inductive Instr where
  /-- LOADKEY, 40_context.md R96. -/
  | loadkey
  /-- ENC, 41_encrypt.md R102. -/
  | enc
  /-- DEC, 43_decrypt.md R127. -/
  | dec
  /-- ENCC, 41_encrypt.md R103. -/
  | encc
  /-- DECC, 43_decrypt.md R128. -/
  | decc
  /-- RELEASE, 40_context.md R97. -/
  | release
  /-- TAGIN, 42_tag_input.md R121. -/
  | tagin
deriving DecidableEq, Repr

end Sys2Proof
end

