-- ==== Sys2Proof/WellFormed.lean ====
section
/-! DEFINITION. When a 32-bit CMD word is a command (30_encoding.md R70, R72). An `Instr` carries no field, so every one of them is
well-formed; what can be ill-formed is the word a host writes. -/

namespace Sys2Proof

/-- RSVD, bits 31:4, must be zero (30_encoding.md R70). -/
def rsvdClear (w : Word) : Bool := w.extractLsb' 4 28 == 0#28

/-- OP, bits 3:0, must be one of the seven assigned codes (30_encoding.md R71). -/
def opAssigned (w : Word) : Bool :=
  decide (1 ≤ (w.extractLsb' 0 4).toNat) && decide ((w.extractLsb' 0 4).toNat ≤ 7)

/-- Both checks of a CMD word. -/
def wellFormedWord (w : Word) : Bool := rsvdClear w && opAssigned w

end Sys2Proof
end

