-- ==== Sys2Proof/Decode.lean ====
section
/-! DEFINITION. Decode (30_encoding.md R72), total on all 2^32 words, and the encoder (R71). -/

namespace Sys2Proof

/-- Why a word is ILLEGAL (30_encoding.md R73). The hardware reports both as IllegalCommand. -/
inductive Illegal where
  /-- RSVD (bits 31:4) is not zero. -/
  | reservedBits
  /-- RSVD is zero and OP is 0x0 or 0x8 to 0xF. -/
  | unassignedOp
deriving DecidableEq, Repr

/-- `Decode(v)` of 30_encoding.md R72. -/
def decode (w : Word) : Except Illegal Instr :=
  if w.extractLsb' 4 28 = 0#28 then
    match (w.extractLsb' 0 4).toNat with
    | 1 => .ok .loadkey
    | 2 => .ok .enc
    | 3 => .ok .dec
    | 4 => .ok .encc
    | 5 => .ok .decc
    | 6 => .ok .release
    | 7 => .ok .tagin
    | _ => .error .unassignedOp
  else .error .reservedBits

/-- The command a word selects, or `none` for an ILLEGAL word. -/
def decodeCommand (w : Word) : Option Instr :=
  match decode w with
  | .ok i => some i
  | .error _ => none

/-- The CMD word of each command (the "word" column of 30_encoding.md R71). -/
def encode : Instr → Word
  | .loadkey => 0x00000001#32
  | .enc => 0x00000002#32
  | .dec => 0x00000003#32
  | .encc => 0x00000004#32
  | .decc => 0x00000005#32
  | .release => 0x00000006#32
  | .tagin => 0x00000007#32

/-- The 32-bit word whose low `nbits` bits are those of `w` and whose bits above are 0. -/
def tableWord (nbits w : Nat) : Word := BitVec.ofNat 32 (w % 2 ^ nbits)

/-- The command the decoder reads from an instruction whose `nbits` bits are `w`, numbered as spec/opcode_table.json numbers them.
A command is one 32-bit word (30_encoding.md R74), so a longer one is no command. -/
def decodeTableWord (nbits w : Nat) : Option Instr :=
  if nbits ≤ 32 then decodeCommand (tableWord nbits w) else none

end Sys2Proof
end

