-- ==== Sys2Proof/Machine/State.lean ====
section
/-! DEFINITION. The machine's state as plain data: the host-visible registers (10_state.md section 2), the internal registers
(section 3), the sequencer (R42), data memory with the platform's parameters (20_memory.md, 00_scope.md R7), and the model's own
fields for what a host does and for free values. -/

namespace Sys2Proof.Machine

/-- The context state CTX (10_state.md R31). The value 3 never occurs (R20). -/
inductive Ctx where
  | empty
  | keyed
  | released
deriving DecidableEq, Repr

/-- The result codes (60_exceptions.md R137). Codes 13 to 15 are never produced. -/
inductive ErrCode where
  | ok
  | invalidKey
  | missingArgument
  | lengthMismatch
  | invalidNonceLength
  | invalidTagLength
  | tagMismatch
  | lengthOverflow
  | contextUnusable
  | illegalCommand
  | addressRange
  | bufferOverlap
  | busError
deriving DecidableEq, Repr

/-- The six buffers a descriptor names (10_state.md R27). -/
inductive Buf where
  | key
  | nonce
  | ad
  | inp
  | out
  | tag
deriving DecidableEq, Repr

/-- One descriptor: a 64-bit address and a 64-bit length (10_state.md R27, R28). -/
structure Desc where
  addr : Addr
  len : Addr
deriving DecidableEq, Repr

/-- The six descriptors (10_state.md R16, R27). -/
structure DescBank where
  key : Desc
  nonce : Desc
  ad : Desc
  inp : Desc
  out : Desc
  tag : Desc
deriving DecidableEq, Repr

/-- The addresses base, base+1, ..., base+size-1. -/
structure Range where
  base : Nat
  size : Nat
deriving DecidableEq, Repr

/-- The MAC unit's own registers behind the streaming port (10_state.md R39): the key it was begun with, the bytes it was given,
its tag output. MacClear zeroes them all. -/
structure MacUnit where
  key : Vector Byte 32
  msg : List Byte
  tag : Vector Byte 16
deriving DecidableEq, Repr

/-- A byte value an element of the access trace uses. -/
inductive Val where
  /-- A constant, such as a padding byte. -/
  | lit (b : Byte)
  /-- The byte b of the last MemRead. -/
  | data
  /-- b xor KS[i] (41_encrypt.md R100). -/
  | dataXorKs (i : Nat)
  /-- ETAG[i] (41_encrypt.md R102). -/
  | etag (i : Nat)
deriving DecidableEq, Repr

/-- The elements of an access trace that write internal registers or call a primitive (00_scope.md R11). -/
inductive RegOp where
  /-- KEY <- 0. -/
  | clearKey
  /-- KEY[i] <- b. -/
  | latchKey (i : Nat)
  /-- CTX <- c. -/
  | setCtx (c : Ctx)
  /-- MSGLEN <- v. -/
  | setMsgLen (v : Addr)
  /-- NL[i] <- b. -/
  | latchNonce (i : Nat)
  /-- JCTR <- v. -/
  | setJctr (v : Word)
  /-- CS <- ChaChaInit(KEY, JCTR, NL). -/
  | csInit
  /-- KS <- ChaChaBlock(CS). -/
  | ksBlock
  | clearCs
  | clearKs
  /-- OTK <- KS[0..32). -/
  | latchOtk
  | clearOtk
  | clearNl
  | clearEtag
  | clearStag
  /-- STAG[i] <- b. -/
  | latchStag (i : Nat)
  | clearDiff
  /-- DIFF <- DIFF | (ETAG[i] xor STAG[i]). -/
  | diffStep (i : Nat)
  /-- ok <- (DIFF = 0). -/
  | latchOk
  /-- ENC_K <- v. -/
  | setEncK (v : Addr)
  /-- MacBegin(OTK). -/
  | macBegin
  /-- MacByte(v). -/
  | macByte (v : Val)
  /-- MacEnd(). -/
  | macEnd
  /-- ETAG <- the tag MacEnd returned. -/
  | latchEtag
  /-- MacClear(). -/
  | macClear
deriving DecidableEq, Repr

/-- One element of an access trace (00_scope.md R11): a register write or primitive call, or a DMA access. -/
inductive Act where
  | reg (r : RegOp)
  /-- b <- MemRead(a, 1). -/
  | rd (a : Addr)
  /-- MemWrite(a, 1, v). -/
  | wr (a : Addr) (v : Val)
deriving DecidableEq, Repr

/-- What the sequencer can stand at: an element of the trace, or one of the three points where the rest of the trace is settled. -/
inductive Elem where
  /-- Validate(i) (40_context.md R85); the trace goes on with the command's body, or with `raise`. -/
  | validate (i : Instr)
  | act (a : Act)
  /-- The choice on the bit ok in DEC and DECC (43_decrypt.md R127, R128). -/
  | branch (i : Instr)
  /-- finish(e) (60_exceptions.md R142). -/
  | finish (e : ErrCode)
deriving DecidableEq, Repr

/-- The sequencer (10_state.md R42). The position p in the running command's trace is held as what is left of the trace
(DEDUCED, log entry 3); the command is `none` for an ILLEGAL word. -/
inductive Seq where
  | idle
  | run (c : Option Instr) (todo : List Elem)
deriving DecidableEq, Repr

/-- What a host does to the block or to data memory (10_state.md R13(a), R41). -/
inductive HostAct where
  /-- A write of the register window, `bytes` wide, at an offset. -/
  | write (off : Offset) (bytes : Nat) (v : Word)
  /-- A read of the register window. -/
  | read (off : Offset) (bytes : Nat)
  /-- A write at a bus address, which reaches the block only inside the window at BASE. -/
  | busWrite (a : Addr) (bytes : Nat) (v : Word)
  /-- A read at a bus address. -/
  | busRead (a : Addr) (bytes : Nat)
  /-- A byte store to data memory. -/
  | store (a : Addr) (b : Byte)
  /-- A byte load from data memory. -/
  | load (a : Addr)
  /-- The host writes its cached lines over a range back (20_memory.md R62). -/
  | writeBack (r : Range)
  /-- The host invalidates its cached lines over a range (20_memory.md R62). -/
  | invalidate (r : Range)
  /-- The `rst` input (70_reset_and_hazards.md R157). -/
  | reset
deriving DecidableEq, Repr

/-- When a host action reaches the block. -/
inductive Arrival where
  /-- Once BUSY = 0. -/
  | whenIdle
  /-- Once a read of STATUS shows DONE = 1: the host repeats `R 0x00C` until then (`WAIT`, 30_encoding.md R79). -/
  | whenDone
  /-- After the sequencer has performed k more elements of the running trace; at once if no command runs. -/
  | after (k : Nat)
deriving DecidableEq, Repr

/-- One host action and its arrival. -/
structure Input where
  arrival : Arrival
  act : HostAct
deriving DecidableEq, Repr

/-- Everything the spec gives the machine, the platform's parameters, and the model's own fields. -/
structure State where
  /-- STATUS.DONE (10_state.md R20). -/
  done : Bool
  /-- STATUS.WIGN (10_state.md R20, R26). -/
  wign : Bool
  /-- CTX (10_state.md R31). -/
  ctx : Ctx
  /-- STATUS.ERRCODE (10_state.md R20). -/
  errCode : ErrCode
  /-- STATUS.LASTCMD (10_state.md R20). -/
  lastCmd : BitVec 4
  /-- IRQ_EN.DONE_IE (10_state.md R22). -/
  doneIe : Bool
  /-- PRESENT bits 5:0 (10_state.md R23). -/
  present : BitVec 6
  /-- MSGLEN (10_state.md R24). -/
  msgLen : Addr
  /-- ERRADDR (10_state.md R25). -/
  errAddr : Addr
  /-- The descriptors (10_state.md R27). -/
  desc : DescBank
  /-- KEY (10_state.md R32). -/
  key : Vector Byte 32
  /-- NL, the nonce latch (10_state.md R33). -/
  nl : Vector Byte 12
  /-- CS, the cipher state (10_state.md R34). -/
  cs : Vector Word 16
  /-- KS, the keystream buffer (10_state.md R34). -/
  ks : Vector Byte 64
  /-- OTK, the one-time MAC key (10_state.md R35). -/
  otk : Vector Byte 32
  /-- ETAG, the computed tag (10_state.md R36). -/
  etag : Vector Byte 16
  /-- STAG, the supplied tag (10_state.md R36). -/
  stag : Vector Byte 16
  /-- DIFF, the comparator accumulator (10_state.md R36). -/
  diff : Byte
  /-- ENC_K, the Tag-Input Builder's position (10_state.md R37). -/
  encK : Addr
  /-- JCTR, the block counter (10_state.md R37). -/
  jctr : Word
  /-- The MAC unit (10_state.md R39; DEDUCED, log entry 14). -/
  mac : MacUnit
  /-- The sequencer (10_state.md R42). -/
  seq : Seq
  /-- The byte b between a MemRead and its use, part of the sequencer's position (DEDUCED, log entry 3). -/
  dataLatch : Byte
  /-- The bit ok (43_decrypt.md R126), part of the sequencer's position (DEDUCED, log entry 3). -/
  okBit : Bool
  /-- Data memory (20_memory.md R46), canonical: addresses strictly rising, no entry 0x00. -/
  mem : List Host.Cell
  /-- Where RD_OK is false (00_scope.md R7; DESIGN CHOICE, log entry 6). -/
  rdFail : List Range
  /-- Where WR_OK is false (00_scope.md R7; DESIGN CHOICE, log entry 6). -/
  wrFail : List Range
  /-- Where memory is not ordinary (20_memory.md R58; DESIGN CHOICE, log entry 6). -/
  special : List Range
  /-- DMA_COHERENT (00_scope.md R7; DESIGN CHOICE, log entry 6). -/
  coherent : Bool
  /-- Model's own: replaced values a block read may still return (20_memory.md R62, R66; DESIGN CHOICE, log entry 7). -/
  blockStale : List Host.Cell
  /-- Model's own: of those, what the next command may still find, since the host has not written the byte back (20_memory.md R62;
  DESIGN CHOICE, log entry 7). -/
  unwritten : List Host.Cell
  /-- Model's own: replaced values a host read may still return while DMA_COHERENT = false (20_memory.md R62; DESIGN CHOICE, log
  entry 7). -/
  hostStale : List Host.Cell
  /-- Model's own: what the running command's writes replaced, newest first (93 U7, U8; DESIGN CHOICE, log entry 8). -/
  undo : List Host.Cell
  /-- Model's own: how many free values have been drawn (DESIGN CHOICE, log entry 4). -/
  draws : Nat
  /-- Model's own: what hosts will do, in the order it reaches the block (93 U11; DESIGN CHOICE, log entry 1). -/
  inputs : List Input
  /-- Model's own: the data of the host's last register read (DESIGN CHOICE, log entry 9). -/
  busData : Word
  /-- Model's own: the data of the host's last load (DESIGN CHOICE, log entry 9). -/
  memData : Byte
deriving DecidableEq, Repr

/-- Why a step stops. -/
inductive Fault where
  /-- Raised by `seqStep` alone, in a state no rule of the spec produces: the sequencer is in RUN and nothing is left of its trace,
  not even the finish that ends every trace (10_state.md R42; log entry 10). Safe: the machine stops where the hardware never is. -/
  | traceExhausted
deriving DecidableEq, Repr

/-- Why an instruction has no meaning. -/
inductive Refusal where
  /-- Answered by `exec` alone, for an instruction whose meaning is not written. No arm answers it. Safe: the model stops. -/
  | notModelled (mnemonic : String)
deriving DecidableEq, Repr

/-- A zeroed descriptor (10_state.md R30). -/
def Desc.zero : Desc := ⟨0, 0⟩

/-- The descriptors at reset (10_state.md R30). -/
def DescBank.zero : DescBank := ⟨.zero, .zero, .zero, .zero, .zero, .zero⟩

/-- The MAC unit after MacClear (10_state.md R39). -/
def MacUnit.clear : MacUnit := ⟨.replicate 32 0, [], .replicate 16 0⟩

/-- The machine right after reset (10_state.md R30, 70_reset_and_hazards.md R157, R158), on a platform where every address
completes, all memory is ordinary and DMA is coherent, with no host action to come (DESIGN CHOICE, log entries 1 and 3 to 9). -/
def State.reset : State where
  done := false
  wign := false
  ctx := .empty
  errCode := .ok
  lastCmd := 0
  doneIe := false
  present := 0
  msgLen := 0
  errAddr := 0
  desc := .zero
  key := .replicate 32 0
  nl := .replicate 12 0
  cs := .replicate 16 0
  ks := .replicate 64 0
  otk := .replicate 32 0
  etag := .replicate 16 0
  stag := .replicate 16 0
  diff := 0
  encK := 0
  jctr := 0
  mac := .clear
  seq := .idle
  dataLatch := 0
  okBit := false
  mem := []
  rdFail := []
  wrFail := []
  special := []
  coherent := true
  blockStale := []
  unwritten := []
  hostStale := []
  undo := []
  draws := 0
  inputs := []
  busData := 0
  memData := 0

end Sys2Proof.Machine
end

