-- ==== Sys2Proof/Machine/Ops.lean ====
section
/-! DEFINITION. The named operations: data memory and its access primitives (20_memory.md R52 to R54), the register operations of an
access trace (00_scope.md R11), Scrub (10_state.md R43), acceptance, raise and finish (60_exceptions.md R140 to R142). -/

namespace Sys2Proof.Machine

/-! ## Bytes of registers -/

/-- `x[i]` of a byte register; index i is always in range in the spec's pseudocode. -/
def byteAt {n : Nat} (x : Vector Byte n) (i : Nat) : Byte := x[i]?.getD 0

/-- `x[i] <- b`. -/
def setByte {n : Nat} (x : Vector Byte n) (i : Nat) (b : Byte) : Vector Byte n := x.setIfInBounds i b

/-- `KS[0 .. 32)` (41_encrypt.md R101). -/
def firstHalf (x : Vector Byte 64) : Vector Byte 32 := Vector.ofFn fun i : Fin 32 => byteAt x i.val

/-- `a + k`, the address of byte k of a region (20_memory.md R49(a)). Validation excludes a wrapped sum (R56). -/
def addrAdd (a : Addr) (k : Nat) : Addr := a + BitVec.ofNat 64 k

/-! ## Data memory -/

/-- The byte an unlisted address reads as (DESIGN CHOICE, log entry 5). -/
def memDefault : Byte := 0

/-- mem[a] (20_memory.md R52). -/
def memRead : List Host.Cell → Nat → Byte
  | [], _ => memDefault
  | (k, v) :: t, a => if k = a then v else memRead t a

/-- Puts a cell before the first one with a higher address. -/
def memInsert : List Host.Cell → Nat → Byte → List Host.Cell
  | [], a, b => [(a, b)]
  | (k, v) :: t, a, b => if a < k then (a, b) :: (k, v) :: t else (k, v) :: memInsert t a b

/-- The cells at other addresses than a. -/
def memErase (m : List Host.Cell) (a : Nat) : List Host.Cell := m.filter fun c => c.1 != a

/-- mem[a] <- b (20_memory.md R53), kept canonical. -/
def memWrite (m : List Host.Cell) (a : Nat) (b : Byte) : List Host.Cell :=
  if b = memDefault then memErase m a else memInsert (memErase m a) a b

/-- The canonical form: addresses strictly rising and below 2^64, no cell equal to what an unlisted address reads as. -/
abbrev Memory.wf (m : List Host.Cell) : Prop :=
  m.Pairwise (fun c d => c.1 < d.1) ∧ ∀ c ∈ m, c.2 ≠ memDefault ∧ c.1 < 2 ^ 64

/-- Address a lies in one of the ranges. -/
def inRanges (l : List Range) (a : Addr) : Bool :=
  l.any fun r => decide (r.base ≤ a.toNat) && decide (a.toNat < r.base + r.size)

/-- RD_OK(a) (00_scope.md R7). -/
def rdOk (s : State) (a : Addr) : Bool := !inRanges s.rdFail a

/-- WR_OK(a) (00_scope.md R7). -/
def wrOk (s : State) (a : Addr) : Bool := !inRanges s.wrFail a

/-- Address a is ordinary memory (20_memory.md R58). -/
def ordinary (s : State) (a : Addr) : Bool := !inRanges s.special a

/-! ## Free values -/

/-- The bytes of `l` kept for address a. -/
def staleAt (l : List Host.Cell) (a : Addr) : List Byte :=
  (l.filter fun c => c.1 == a.toNat).map fun c => c.2

/-- One of the admitted bytes `cur :: alts`: the current one if there is no other, else the one draw number `n` picks. -/
def pick (cur : Byte) (alts : List Byte) (n : Nat) : Byte :=
  match alts with
  | [] => cur
  | _ :: _ => (cur :: alts).getD (Config.freeNat n % (alts.length + 1)) cur

/-- How many draws `pick` makes. -/
def pickDraws (alts : List Byte) : Nat :=
  match alts with
  | [] => 0
  | _ :: _ => 1

/-! ## The sequencer -/

/-- STATUS.BUSY: a command is running (10_state.md R20, R42). -/
def busy (s : State) : Bool :=
  match s.seq with
  | .idle => false
  | .run _ _ => true

/-- The running command; `none` when idle and for an ILLEGAL word. -/
def running (s : State) : Option Instr :=
  match s.seq with
  | .idle => none
  | .run c _ => c

/-! ## The DMA access primitives -/

/-- What a bus error at a does before `raise BusError`: ERRADDR <- a, and KEY <- 0 in LOADKEY (20_memory.md R54). Both are made in the
one step of the failing access, so no host action comes between them, and Scrub and finish follow element by element: R54 gives their
order and not their grain (DESIGN CHOICE, log entry 17). -/
def busErrorAt (a : Addr) (s : State) : State :=
  if running s = some .loadkey then { s with errAddr := a, key := .replicate 32 0 } else { s with errAddr := a }

/-- b <- MemRead(a, 1) (20_memory.md R52). Memory that is not ordinary gives a drawn byte (93 U5); a byte the host has written and
not handed over gives the old or the new value (R66, R62; 93 U6). -/
def dmaRead (a : Addr) (s : State) : Except State State :=
  if rdOk s a then
    if ordinary s a then
      .ok { s with
        dataLatch := pick (memRead s.mem a.toNat) (staleAt s.blockStale a) s.draws
        draws := s.draws + pickDraws (staleAt s.blockStale a) }
    else .ok { s with dataLatch := Config.freeByte s.draws, draws := s.draws + 1 }
  else .error (busErrorAt a s)

/-- MemWrite(a, 1, v) (20_memory.md R53). The replaced byte is kept in `undo` (93 U7, U8). A later read by the block returns v (R64).
A write of memory that is not ordinary shows nowhere, since every read of such memory is drawn (93 U5). -/
def dmaWrite (a : Addr) (v : Byte) (s : State) : Except State State :=
  if wrOk s a then
    if ordinary s a then
      .ok { s with
        mem := memWrite s.mem a.toNat v
        undo := (a.toNat, memRead s.mem a.toNat) :: s.undo
        blockStale := memErase s.blockStale a.toNat }
    else .ok s
  else .error (busErrorAt a s)

/-! ## The elements of an access trace -/

/-- The byte a `Val` names. -/
def valOf (s : State) : Val → Byte
  | .lit b => b
  | .data => s.dataLatch
  | .dataXorKs i => s.dataLatch ^^^ byteAt s.ks i
  | .etag i => byteAt s.etag i

/-- A register write or primitive call of the trace (00_scope.md R11; 10_state.md R38, R39). -/
def performReg (r : RegOp) (s : State) : State :=
  match r with
  | .clearKey => { s with key := .replicate 32 0 }
  | .latchKey i => { s with key := setByte s.key i s.dataLatch }
  | .setCtx c => { s with ctx := c }
  | .setMsgLen v => { s with msgLen := v }
  | .latchNonce i => { s with nl := setByte s.nl i s.dataLatch }
  | .setJctr v => { s with jctr := v }
  | .csInit => { s with cs := Config.chachaInit s.key s.jctr s.nl }
  | .ksBlock => { s with ks := Config.chachaBlock s.cs }
  | .clearCs => { s with cs := .replicate 16 0 }
  | .clearKs => { s with ks := .replicate 64 0 }
  | .latchOtk => { s with otk := firstHalf s.ks }
  | .clearOtk => { s with otk := .replicate 32 0 }
  | .clearNl => { s with nl := .replicate 12 0 }
  | .clearEtag => { s with etag := .replicate 16 0 }
  | .clearStag => { s with stag := .replicate 16 0 }
  | .latchStag i => { s with stag := setByte s.stag i s.dataLatch }
  | .clearDiff => { s with diff := 0 }
  | .diffStep i => { s with diff := s.diff ||| (byteAt s.etag i ^^^ byteAt s.stag i) }
  | .latchOk => { s with okBit := s.diff == 0 }
  | .setEncK v => { s with encK := v }
  | .macBegin => { s with mac := { key := s.otk, msg := [], tag := .replicate 16 0 } }
  | .macByte v => { s with mac := { s.mac with msg := s.mac.msg ++ [valOf s v] } }
  | .macEnd => { s with mac := { s.mac with tag := Config.poly1305Tag s.mac.key s.mac.msg } }
  | .latchEtag => { s with etag := s.mac.tag }
  | .macClear => { s with mac := .clear }

/-- One element of the trace. `.error t`: a bus error, with t the state it leaves (20_memory.md R54). -/
def perform (a : Act) (s : State) : Except State State :=
  match a with
  | .reg r => .ok (performReg r s)
  | .rd a => dmaRead a s
  | .wr a v => dmaWrite a (valOf s v) s

/-- The elements in order, up to the first bus error. -/
def performAll : List Act → State → Except State State
  | [], s => .ok s
  | a :: t, s =>
    match perform a s with
    | .ok s' => performAll t s'
    | .error s' => .error s'

/-! ## Scrub, finish and raise: how a command ends, and how the block takes an exception -/

/-- The writes of `Scrub()` in order, as the sequencer makes them one by one (10_state.md R43). -/
def scrubOps : List RegOp :=
  [.clearNl, .clearCs, .clearKs, .clearOtk, .clearEtag, .clearStag, .clearDiff, .setEncK 0, .setJctr 0, .macClear]

/-- `Scrub()` as a whole (10_state.md R43): what the writes of `scrubOps` come to. -/
def scrub (s : State) : State :=
  { s with
    nl := .replicate 12 0
    cs := .replicate 16 0
    ks := .replicate 64 0
    otk := .replicate 32 0
    etag := .replicate 16 0
    stag := .replicate 16 0
    diff := 0
    encK := 0
    jctr := 0
    mac := .clear }

/-- The cells of m at addresses that no cell of l has. -/
def awayFrom (l m : List Host.Cell) : List Host.Cell := m.filter fun c => !l.any fun d => d.1 == c.1

/-- What is left of the races once a command has ended. The host may still read the bytes this command replaced until it invalidates,
and the block the bytes the host has not written back (20_memory.md R62), but for those this command has written over (R64); neither
if DMA is coherent (R63, R65). -/
def handOver (s : State) : State :=
  { s with
    undo := []
    blockStale := if s.coherent then [] else awayFrom s.undo s.unwritten
    unwritten := awayFrom s.undo s.unwritten
    hostStale := if s.coherent then s.hostStale else s.undo ++ s.hostStale }

/-- `finish(E)` (60_exceptions.md R142): the block's trap entry (R147). -/
def finish (e : ErrCode) (s : State) : State :=
  { handOver s with errCode := e, done := true, seq := .idle, dataLatch := 0, okBit := false }

/-- `Scrub(); finish(E)`: `raise E` for an error (60_exceptions.md R140), and the successful end for E = OK. -/
def conclude (e : ErrCode) (s : State) : State := finish e (scrub s)

/-- The elements of `Scrub(); finish(E)`. -/
def concludeTrace (e : ErrCode) : List Elem := scrubOps.map (fun r => .act (.reg r)) ++ [.finish e]

/-- Performs `acts` and goes on with `k`; a bus error raises BusError (20_memory.md R54). -/
def runActs (acts : List Act) (k : State → State) (s : State) : State :=
  match performAll acts s with
  | .ok t => k t
  | .error t => conclude .busError t

/-! ## Acceptance -/

/-- `accept(v)` (60_exceptions.md R141), with the trace the command starts on. It is the acquire point: a coherent host's stores are
seen from here on (20_memory.md R63). -/
def accept (w : Word) (trace : List Elem) (s : State) : State :=
  { s with
    done := false
    errCode := .ok
    lastCmd := w.extractLsb' 0 4
    msgLen := 0
    errAddr := 0
    seq := .run (decodeCommand w) trace
    dataLatch := 0
    okBit := false
    undo := []
    blockStale := if s.coherent then [] else s.blockStale }

/-- A write that BUSY = 1 refuses: WIGN <- 1 and nothing else (10_state.md R26). -/
def ignoreWrite (s : State) : State := { s with wign := true }

/-- A host writes command i to CMD and nothing else reaches the block until the command has finished: refused if a command is running
(10_state.md R19, R26), else accepted and run to its finish by `body`. -/
def issue (i : Instr) (trace : List Elem) (body : State → State) (s : State) : Host.Outcome State Fault Refusal :=
  if busy s then .next (ignoreWrite s) else .next (body (accept (encode i) trace s))

end Sys2Proof.Machine
end

