-- ==== Sys2Proof/Machine/Operands.lean ====
section
/-! DEFINITION. Operands and validation: descriptors (10_state.md R27, R28), text lengths and regions (30_encoding.md R75 to R77,
20_memory.md R55 to R57), the padding and message-length arithmetic (42_tag_input.md R111 to R113), and Validate (40_context.md R85 to
R94). Lengths and sums are unbounded naturals (00_scope.md R9). -/

namespace Sys2Proof.Machine

/-! ## Descriptors -/

/-- The descriptor number b (10_state.md R27). -/
def bufIndex : Buf → Nat
  | .key => 0
  | .nonce => 1
  | .ad => 2
  | .inp => 3
  | .out => 4
  | .tag => 5

/-- Descriptor b. -/
def descOf (d : DescBank) : Buf → Desc
  | .key => d.key
  | .nonce => d.nonce
  | .ad => d.ad
  | .inp => d.inp
  | .out => d.out
  | .tag => d.tag

/-- Descriptor b replaced. -/
def setDesc (d : DescBank) (b : Buf) (x : Desc) : DescBank :=
  match b with
  | .key => { d with key := x }
  | .nonce => { d with nonce := x }
  | .ad => { d with ad := x }
  | .inp => { d with inp := x }
  | .out => { d with out := x }
  | .tag => { d with tag := x }

/-- present(b) (10_state.md R28). -/
def isPresent (s : State) (b : Buf) : Bool := s.present.getLsbD (bufIndex b)

/-- addr(b) (10_state.md R28). -/
def addrOf (s : State) (b : Buf) : Addr := (descOf s.desc b).addr

/-- len(b) (10_state.md R28), a byte count. -/
def lenOf (s : State) (b : Buf) : Nat := (descOf s.desc b).len.toNat

/-- adlen (40_context.md R83). -/
def adLen (s : State) : Nat := if isPresent s .ad then lenOf s .ad else 0

/-! ## Lengths -/

/-- padlen(L) (42_tag_input.md R111). -/
def padLen (l : Nat) : Nat := (16 - l % 16) % 16

/-- MsgLen(a, c) (42_tag_input.md R113). -/
def messageLen (a c : Nat) : Nat := a + padLen a + c + padLen c + 16

/-- ceil(n/64), the number of keystream blocks that n bytes take (00_scope.md R9). -/
def blocksOf (n : Nat) : Nat := (n + 63) / 64

/-- The text length n of each command (30_encoding.md R77); 0 for the commands without a text. -/
def textLen (i : Instr) (s : State) : Nat :=
  match i with
  | .enc | .encc | .dec | .tagin => lenOf s .inp
  | .decc => lenOf s .inp - 16
  | .loadkey | .release => 0

/-! ## Regions -/

/-- The region [addr(b), addr(b)+L) (20_memory.md R55). -/
def regionOf (s : State) (b : Buf) (l : Nat) : Range := ⟨(addrOf s b).toNat, l⟩

/-- In range: empty, or not past 2^64 (20_memory.md R56). -/
def inRange (r : Range) : Bool := r.size == 0 || decide (r.base + r.size ≤ 2 ^ 64)

/-- Two regions overlap (20_memory.md R57). -/
def overlaps (r q : Range) : Bool :=
  decide (0 < r.size) && decide (0 < q.size) && decide (r.base < q.base + q.size) && decide (q.base < r.base + r.size)

/-- The regions a command uses (40_context.md R93), each with its buffer. -/
def usedRegions (i : Instr) (s : State) : List (Buf × Range) :=
  let n := textLen i s
  match i with
  | .loadkey => [(.key, regionOf s .key 32)]
  | .enc => [(.nonce, regionOf s .nonce 12), (.ad, regionOf s .ad (adLen s)), (.inp, regionOf s .inp n),
      (.out, regionOf s .out n), (.tag, regionOf s .tag 16)]
  | .encc => [(.nonce, regionOf s .nonce 12), (.ad, regionOf s .ad (adLen s)), (.inp, regionOf s .inp n),
      (.out, regionOf s .out (n + 16))]
  | .dec => [(.nonce, regionOf s .nonce 12), (.ad, regionOf s .ad (adLen s)), (.inp, regionOf s .inp n),
      (.out, regionOf s .out n), (.tag, regionOf s .tag 16)]
  | .decc => [(.nonce, regionOf s .nonce 12), (.ad, regionOf s .ad (adLen s)), (.inp, regionOf s .inp (n + 16)),
      (.out, regionOf s .out n)]
  | .tagin => [(.ad, regionOf s .ad (adLen s)), (.inp, regionOf s .inp n),
      (.out, regionOf s .out (messageLen (adLen s) n))]
  | .release => []

/-- The buffers a command writes (40_context.md R94; 30_encoding.md R76). -/
def outputBufs : Instr → List Buf
  | .enc => [.out, .tag]
  | .encc | .dec | .decc | .tagin => [.out]
  | .loadkey | .release => []

/-- The in-place pair may overlap (20_memory.md R57): OUT against IN at the same address, in the four cipher commands. -/
def inPlacePair (i : Instr) (s : State) (o r : Buf) : Bool :=
  match i with
  | .enc | .encc | .dec | .decc => o == .out && r == .inp && addrOf s .out == addrOf s .inp
  | .loadkey | .release | .tagin => false

/-- The output regions of a command that some other used region may not overlap (40_context.md R94). -/
def outputRegions (i : Instr) (s : State) : List (Buf × Range) :=
  (usedRegions i s).filter fun u => (outputBufs i).contains u.1

/-! ## The checks of Validate, each true when the command fails it -/

/-- ContextUnusable (40_context.md R86). -/
def failsContext (i : Instr) (s : State) : Bool :=
  match i with
  | .enc | .encc | .dec | .decc => s.ctx != .keyed
  | .loadkey | .release | .tagin => false

/-- InvalidKey (40_context.md R87). -/
def failsKey (i : Instr) (s : State) : Bool :=
  match i with
  | .loadkey => !isPresent s .key || lenOf s .key != 32
  | .enc | .encc | .dec | .decc | .release | .tagin => false

/-- The buffers a command requires (40_context.md R88; 30_encoding.md R76). LOADKEY's absent KEY is InvalidKey (R87). -/
def requiredBufs : Instr → List Buf
  | .enc | .dec => [.nonce, .inp, .out, .tag]
  | .encc | .decc => [.nonce, .inp, .out]
  | .tagin => [.inp, .out]
  | .loadkey | .release => []

/-- MissingArgument (40_context.md R88). -/
def failsMissing (i : Instr) (s : State) : Bool := (requiredBufs i).any fun b => !isPresent s b

/-- LengthMismatch (40_context.md R89). -/
def failsMismatch (i : Instr) (s : State) : Bool :=
  match i with
  | .enc | .dec => lenOf s .out != lenOf s .inp
  | .encc => lenOf s .out != lenOf s .inp + 16
  | .decc => decide (16 ≤ lenOf s .inp) && lenOf s .out != lenOf s .inp - 16
  | .tagin =>
    decide (messageLen (adLen s) (lenOf s .inp) ≤ 2 ^ 64 - 1) && lenOf s .out != messageLen (adLen s) (lenOf s .inp)
  | .loadkey | .release => false

/-- InvalidNonceLength (40_context.md R90). -/
def failsNonce (i : Instr) (s : State) : Bool :=
  match i with
  | .enc | .encc | .dec | .decc => lenOf s .nonce != 12
  | .loadkey | .release | .tagin => false

/-- InvalidTagLength (40_context.md R91). -/
def failsTag (i : Instr) (s : State) : Bool :=
  match i with
  | .enc | .dec => lenOf s .tag != 16
  | .decc => decide (lenOf s .inp < 16)
  | .encc | .loadkey | .release | .tagin => false

/-- LengthOverflow (40_context.md R92). -/
def failsOverflow (i : Instr) (s : State) : Bool :=
  match i with
  | .enc | .encc | .dec | .decc =>
    decide (Config.maxText < textLen i s) || decide (2 ^ 64 - 1 < messageLen (adLen s) (textLen i s))
  | .tagin => decide (2 ^ 64 - 1 < messageLen (adLen s) (lenOf s .inp))
  | .loadkey | .release => false

/-- AddressRange (40_context.md R93). -/
def failsRange (i : Instr) (s : State) : Bool := (usedRegions i s).any fun u => !inRange u.2

/-- BufferOverlap (40_context.md R94). -/
def failsOverlap (i : Instr) (s : State) : Bool :=
  (outputRegions i s).any fun o =>
    (usedRegions i s).any fun u => u.1 != o.1 && overlaps o.2 u.2 && !inPlacePair i s o.1 u.1

/-- The checks with their codes, in the order of 40_context.md R85. A check not listed there for a command passes. -/
def checks (i : Instr) (s : State) : List (Bool × ErrCode) :=
  [(failsContext i s, .contextUnusable),
   (failsKey i s, .invalidKey),
   (failsMissing i s, .missingArgument),
   (failsMismatch i s, .lengthMismatch),
   (failsNonce i s, .invalidNonceLength),
   (failsTag i s, .invalidTagLength),
   (failsOverflow i s, .lengthOverflow),
   (failsRange i s, .addressRange),
   (failsOverlap i s, .bufferOverlap)]

/-- The code of the first check that fails. -/
def firstFailure : List (Bool × ErrCode) → Option ErrCode
  | [] => none
  | (true, e) :: _ => some e
  | (false, _) :: t => firstFailure t

/-- `Validate(i)` (40_context.md R85): the code to raise, or `none` when every check passes. -/
def validate (i : Instr) (s : State) : Option ErrCode := firstFailure (checks i s)

/-- Runs `body` once Validate passes; a failing check raises its code (40_context.md R85). -/
def validated (i : Instr) (body : State → State) (s : State) : State :=
  match validate i s with
  | some e => conclude e s
  | none => body s

end Sys2Proof.Machine
end

