-- ==== Sys2Proof/Machine/Context.lean ====
section
/-! DEFINITION. The context commands LOADKEY and RELEASE (40_context.md R96, R97), and what an ILLEGAL word does (30_encoding.md R73). -/

namespace Sys2Proof.Machine

/-- KEY[i] <- MemRead(addr(KEY) + i, 1) (40_context.md R96). -/
def readKeyByte (a : Addr) (i : Nat) : List Act := [.rd (addrAdd a i), .reg (.latchKey i)]

/-- LOADKEY after Validate and before Scrub (40_context.md R96). -/
def loadkeyActs (s : State) : List Act :=
  [.reg .clearKey, .reg (.setCtx .empty)] ++ (List.range 32).flatMap (readKeyByte (addrOf s .key)) ++ [.reg (.setCtx .keyed)]

/-- RELEASE before Scrub (40_context.md R97). -/
def releaseActs : List Act := [.reg .clearKey, .reg (.setCtx .released)]

/-- The trace RELEASE starts on: it runs no validation (40_context.md R82, R97). -/
def releaseTrace : List Elem := releaseActs.map Elem.act ++ concludeTrace .ok

/-- LOADKEY (40_context.md R96). -/
def execLoadkey (s : State) : Host.Outcome State Fault Refusal :=
  issue .loadkey [.validate .loadkey] (validated .loadkey fun t => runActs (loadkeyActs t) (conclude .ok) t) s

/-- RELEASE (40_context.md R97). -/
def execRelease (s : State) : Host.Outcome State Fault Refusal :=
  issue .release releaseTrace (runActs releaseActs (conclude .ok)) s

/-- A host writes an ILLEGAL word to CMD and nothing else reaches the block until it has finished (30_encoding.md R73). -/
def runIllegal (w : Word) (s : State) : Host.Outcome State Fault Refusal :=
  if busy s then .next (ignoreWrite s)
  else .next (conclude .illegalCommand (accept w (concludeTrace .illegalCommand) s))

end Sys2Proof.Machine
end

