-- ==== Sys2Proof/Machine/TagInput.lean ====
section
/-! DEFINITION. The Tag-Input Builder (42_tag_input.md): the message as a byte sequence (R111 to R114), the byte-serial encoder (R115,
R116), MacOver (R117) and TAGIN (R121). -/

namespace Sys2Proof.Machine

/-! ## The message -/

/-- LE64(v)[i] (42_tag_input.md R112). -/
def le64Byte (v i : Nat) : Byte := BitVec.ofNat 8 (v / 2 ^ (8 * i))

/-- LE64(v) (42_tag_input.md R112). -/
def le64 (v : Nat) : List Byte := (List.range 8).map (le64Byte v)

/-- pad16(x) (42_tag_input.md R111). -/
def pad16 (x : List Byte) : List Byte := List.replicate (padLen x.length) 0

/-- TagInput(A, C) (42_tag_input.md R114). -/
def tagInput (a c : List Byte) : List Byte :=
  a ++ pad16 a ++ c ++ pad16 c ++ le64 a.length ++ le64 c.length

/-! ## The encoder -/

/-- `Emit(k, a, adAddr, c, ctAddr)` (42_tag_input.md R115): the MemRead it makes, if any, and the byte it yields. -/
def emit (k a : Nat) (adAddr : Addr) (c : Nat) (ctAddr : Addr) : List Act × Val :=
  let sa := a + padLen a
  let sc := c + padLen c
  if k < a then ([.rd (addrAdd adAddr k)], .data)
  else if k < sa then ([], .lit 0)
  else if k < sa + c then ([.rd (addrAdd ctAddr (k - sa))], .data)
  else if k < sa + sc then ([], .lit 0)
  else if k < sa + sc + 8 then ([], .lit (le64Byte a (k - sa - sc)))
  else ([], .lit (le64Byte c (k - sa - sc - 8)))

/-- ENC_K <- k; MacByte(Emit(k, ...)) (42_tag_input.md R117). -/
def macStep (a : Nat) (adAddr : Addr) (c : Nat) (ctAddr : Addr) (k : Nat) : List Act :=
  [.reg (.setEncK (BitVec.ofNat 64 k))] ++ (emit k a adAddr c ctAddr).1 ++ [.reg (.macByte (emit k a adAddr c ctAddr).2)]

/-- ETAG <- MacOver(a, adAddr, c, ctAddr) (42_tag_input.md R117; DEDUCED, log entry 14). -/
def macOver (a : Nat) (adAddr : Addr) (c : Nat) (ctAddr : Addr) : List Act :=
  [.reg .macBegin] ++ (List.range (messageLen a c)).flatMap (macStep a adAddr c ctAddr) ++
    [.reg .macEnd, .reg .clearOtk, .reg (.setEncK 0), .reg .latchEtag]

/-! ## TAGIN -/

/-- ENC_K <- k; MemWrite(addr(OUT) + k, 1, Emit(k, ...)) (42_tag_input.md R121). -/
def taginStep (a : Nat) (adAddr : Addr) (c : Nat) (ctAddr outAddr : Addr) (k : Nat) : List Act :=
  [.reg (.setEncK (BitVec.ofNat 64 k))] ++ (emit k a adAddr c ctAddr).1 ++
    [.wr (addrAdd outAddr k) (emit k a adAddr c ctAddr).2]

/-- TAGIN after Validate and before Scrub (42_tag_input.md R121). -/
def taginActs (s : State) : List Act :=
  let a := adLen s
  let c := textLen .tagin s
  [.reg (.setMsgLen (BitVec.ofNat 64 (messageLen a c)))] ++
    (List.range (messageLen a c)).flatMap (taginStep a (addrOf s .ad) c (addrOf s .inp) (addrOf s .out)) ++
    [.reg (.setEncK 0)]

/-- TAGIN (42_tag_input.md R121). -/
def execTagin (s : State) : Host.Outcome State Fault Refusal :=
  issue .tagin [.validate .tagin] (validated .tagin fun t => runActs (taginActs t) (conclude .ok) t) s

end Sys2Proof.Machine
end

