-- ==== Sys2Proof/Machine/Encrypt.lean ====
section
/-! DEFINITION. Encrypt (41_encrypt.md): XorPass (R100), DeriveOTK (R101), ENC (R102) and ENCC (R103). -/

namespace Sys2Proof.Machine

/-! ## Subroutines shared with decrypt -/

/-- MSGLEN <- MsgLen(a, n) (42_tag_input.md R124). -/
def setMessageLen (a n : Nat) : List Act := [.reg (.setMsgLen (BitVec.ofNat 64 (messageLen a n)))]

/-- NL[i] <- MemRead(a + i, 1). -/
def readNonceByte (a : Addr) (i : Nat) : List Act := [.rd (addrAdd a i), .reg (.latchNonce i)]

/-- for i in 0 .. 11: NL[i] <- MemRead(a + i, 1) (41_encrypt.md R102). -/
def readNonce (a : Addr) : List Act := (List.range 12).flatMap (readNonceByte a)

/-- b <- MemRead(src + k, 1); MemWrite(dst + k, 1, b xor KS[i]) (41_encrypt.md R100). -/
def xorByte (src dst : Addr) (k i : Nat) : List Act := [.rd (addrAdd src k), .wr (addrAdd dst k) (.dataXorKs i)]

/-- Block j of XorPass (41_encrypt.md R100). -/
def xorBlock (src dst : Addr) (n j : Nat) : List Act :=
  [.reg (.setJctr (BitVec.ofNat 32 (1 + j))), .reg .csInit, .reg .ksBlock, .reg .clearCs] ++
    (List.range (min 64 (n - 64 * j))).flatMap (fun i => xorByte src dst (64 * j + i) i) ++ [.reg .clearKs]

/-- `XorPass(src, dst, n)` (41_encrypt.md R100). -/
def xorPass (src dst : Addr) (n : Nat) : List Act :=
  (List.range (blocksOf n)).flatMap (xorBlock src dst n) ++ [.reg (.setJctr 0)]

/-- `DeriveOTK()` (41_encrypt.md R101). -/
def deriveOtk : List Act :=
  [.reg (.setJctr 0), .reg .csInit, .reg .ksBlock, .reg .clearCs, .reg .latchOtk, .reg .clearKs]

/-- for i in 0 .. 15: MemWrite(a + i, 1, ETAG[i]) (41_encrypt.md R102). -/
def writeTag (a : Addr) : List Act := (List.range 16).map fun i => .wr (addrAdd a i) (.etag i)

/-! ## ENC and ENCC -/

/-- ENC after Validate and before Scrub (41_encrypt.md R102). -/
def encActs (s : State) : List Act :=
  let n := textLen .enc s
  let a := adLen s
  setMessageLen a n ++ readNonce (addrOf s .nonce) ++ xorPass (addrOf s .inp) (addrOf s .out) n ++ deriveOtk ++
    macOver a (addrOf s .ad) n (addrOf s .out) ++ writeTag (addrOf s .tag)

/-- ENCC after Validate and before Scrub (41_encrypt.md R103): the tag goes to OUT + n. -/
def enccActs (s : State) : List Act :=
  let n := textLen .encc s
  let a := adLen s
  setMessageLen a n ++ readNonce (addrOf s .nonce) ++ xorPass (addrOf s .inp) (addrOf s .out) n ++ deriveOtk ++
    macOver a (addrOf s .ad) n (addrOf s .out) ++ writeTag (addrAdd (addrOf s .out) n)

/-- ENC (41_encrypt.md R102). -/
def execEnc (s : State) : Host.Outcome State Fault Refusal :=
  issue .enc [.validate .enc] (validated .enc fun t => runActs (encActs t) (conclude .ok) t) s

/-- ENCC (41_encrypt.md R103). -/
def execEncc (s : State) : Host.Outcome State Fault Refusal :=
  issue .encc [.validate .encc] (validated .encc fun t => runActs (enccActs t) (conclude .ok) t) s

end Sys2Proof.Machine
end

