-- ==== Sys2Proof/Machine/Decrypt.lean ====
section
/-! DEFINITION. Decrypt (43_decrypt.md): the comparator (R126), DEC (R127), DECC (R128) and the zero-fill of a rejection (R129). -/

namespace Sys2Proof.Machine

/-- STAG[i] <- MemRead(a + i, 1). -/
def readTagByte (a : Addr) (i : Nat) : List Act := [.rd (addrAdd a i), .reg (.latchStag i)]

/-- for i in 0 .. 15: STAG[i] <- MemRead(a + i, 1) (43_decrypt.md R127). -/
def readTag (a : Addr) : List Act := (List.range 16).flatMap (readTagByte a)

/-- `ok <- CtEqual()` (43_decrypt.md R126): always 16 combine steps. -/
def ctEqual : List Act :=
  [.reg .clearDiff] ++ (List.range 16).map (fun i => .reg (.diffStep i)) ++
    [.reg .latchOk, .reg .clearDiff, .reg .clearEtag, .reg .clearStag]

/-- The zero-fill of OUT[0..n) (43_decrypt.md R129). -/
def zeroFill (a : Addr) (n : Nat) : List Act := (List.range n).map fun i => .wr (addrAdd a i) (.lit 0)

/-- DEC from MSGLEN to the comparison (43_decrypt.md R127). -/
def decVerifyActs (s : State) : List Act :=
  let n := textLen .dec s
  let a := adLen s
  setMessageLen a n ++ readNonce (addrOf s .nonce) ++ deriveOtk ++ macOver a (addrOf s .ad) n (addrOf s .inp) ++
    readTag (addrOf s .tag) ++ ctEqual

/-- DECC from MSGLEN to the comparison (43_decrypt.md R128): the supplied tag is at IN + n. -/
def deccVerifyActs (s : State) : List Act :=
  let n := textLen .decc s
  let a := adLen s
  setMessageLen a n ++ readNonce (addrOf s .nonce) ++ deriveOtk ++ macOver a (addrOf s .ad) n (addrOf s .inp) ++
    readTag (addrAdd (addrOf s .inp) n) ++ ctEqual

/-- What DEC or DECC does once the tag has verified (43_decrypt.md R127, R128). -/
def acceptActs (i : Instr) (s : State) : List Act := xorPass (addrOf s .inp) (addrOf s .out) (textLen i s)

/-- What DEC or DECC does once the tag has not verified (43_decrypt.md R129). -/
def rejectActs (i : Instr) (s : State) : List Act := zeroFill (addrOf s .out) (textLen i s)

/-- The choice on ok (43_decrypt.md R127, R128). -/
def verdict (i : Instr) (s : State) : State :=
  if s.okBit then runActs (acceptActs i s) (conclude .ok) s else runActs (rejectActs i s) (conclude .tagMismatch) s

/-- DEC (43_decrypt.md R127). -/
def execDec (s : State) : Host.Outcome State Fault Refusal :=
  issue .dec [.validate .dec] (validated .dec fun t => runActs (decVerifyActs t) (verdict .dec) t) s

/-- DECC (43_decrypt.md R128). -/
def execDecc (s : State) : Host.Outcome State Fault Refusal :=
  issue .decc [.validate .decc] (validated .decc fun t => runActs (deccVerifyActs t) (verdict .decc) t) s

end Sys2Proof.Machine
end

