-- ==== Sys2Proof/Machine/Dispatch.lean ====
section
/-! DEFINITION. One arm per command (30_encoding.md R71): a host writes the command's word to CMD, and nothing else reaches the block
until the command has finished. -/

namespace Sys2Proof.Machine

def exec (i : Instr) (s : State) : Host.Outcome State Fault Refusal :=
  match i with
  | .loadkey => Sys2Proof.Machine.execLoadkey s
  | .enc => Sys2Proof.Machine.execEnc s
  | .dec => Sys2Proof.Machine.execDec s
  | .encc => Sys2Proof.Machine.execEncc s
  | .decc => Sys2Proof.Machine.execDecc s
  | .release => Sys2Proof.Machine.execRelease s
  | .tagin => Sys2Proof.Machine.execTagin s

end Sys2Proof.Machine
end

