-- ==== Sys2Proof/Machine/Flags.lean ====
section
/-! DEFINITION. The computed status: result codes (60_exceptions.md R137), ERR and SCRUBBED and the STATUS word (10_state.md R20, R44),
and the interrupt line (60_exceptions.md R146). -/

namespace Sys2Proof.Machine

/-- code(E) (60_exceptions.md R137). -/
def codeOf : ErrCode → BitVec 4
  | .ok => 0
  | .invalidKey => 1
  | .missingArgument => 2
  | .lengthMismatch => 3
  | .invalidNonceLength => 4
  | .invalidTagLength => 5
  | .tagMismatch => 6
  | .lengthOverflow => 7
  | .contextUnusable => 8
  | .illegalCommand => 9
  | .addressRange => 10
  | .bufferOverlap => 11
  | .busError => 12

/-- The value STATUS.CTX shows (10_state.md R31). -/
def ctxBits : Ctx → BitVec 2
  | .empty => 0
  | .keyed => 1
  | .released => 2

/-- STATUS.ERR: ERRCODE ≠ 0 at every instant (10_state.md R20). -/
def errFlag (s : State) : Bool := codeOf s.errCode != 0

/-- Every working register is zero (10_state.md R44(a)). -/
def workingZero (s : State) : Bool :=
  s.nl == .replicate 12 0 && s.cs == .replicate 16 0 && s.ks == .replicate 64 0 && s.otk == .replicate 32 0 &&
    s.etag == .replicate 16 0 && s.stag == .replicate 16 0 && s.diff == 0 && s.encK == 0 && s.jctr == 0

/-- STATUS.SCRUBBED (10_state.md R44). -/
def scrubbed (s : State) : Bool := workingZero s && (s.ctx == .keyed || s.key == .replicate 32 0)

/-- One bit as a 1-bit word. -/
def bit (b : Bool) : BitVec 1 := BitVec.ofBool b

/-- The STATUS word (10_state.md R20), from bit 31 down to bit 0. -/
def statusWord (s : State) : Word :=
  0#16 ++ s.lastCmd ++ codeOf s.errCode ++ 0#1 ++ bit (scrubbed s) ++ ctxBits s.ctx ++ bit s.wign ++ bit (errFlag s) ++
    bit s.done ++ bit (busy s)

/-- The `irq` output (60_exceptions.md R146). -/
def irq (s : State) : Bool := s.done && s.doneIe

end Sys2Proof.Machine
end

