-- ==== Sys2Proof/Machine/Sequencer.lean ====
section
/-! DEFINITION. The sequencer element by element (10_state.md R42, 00_scope.md R11): what a command does when host actions reach the
block while it runs. -/

namespace Sys2Proof.Machine

/-- The trace a command starts on (10_state.md R42, RUN(c, 0)). -/
def startTrace : Option Instr → List Elem
  | some .release => releaseTrace
  | some i => [.validate i]
  | none => concludeTrace .illegalCommand

/-- Acceptance of a word written to CMD (60_exceptions.md R141). -/
def acceptWord (w : Word) (s : State) : State := accept w (startTrace (decodeCommand w)) s

/-- The rest of the trace once Validate has passed. -/
def bodyTrace (i : Instr) (s : State) : List Elem :=
  match i with
  | .loadkey => (loadkeyActs s).map Elem.act ++ concludeTrace .ok
  | .enc => (encActs s).map Elem.act ++ concludeTrace .ok
  | .encc => (enccActs s).map Elem.act ++ concludeTrace .ok
  | .dec => (decVerifyActs s).map Elem.act ++ [.branch .dec]
  | .decc => (deccVerifyActs s).map Elem.act ++ [.branch .decc]
  | .tagin => (taginActs s).map Elem.act ++ concludeTrace .ok
  | .release => releaseTrace

/-- The rest of the trace after the comparison in DEC and DECC (43_decrypt.md R127, R128). -/
def verdictTrace (i : Instr) (s : State) : List Elem :=
  if s.okBit then (acceptActs i s).map Elem.act ++ concludeTrace .ok
  else (rejectActs i s).map Elem.act ++ concludeTrace .tagMismatch

/-- One sequencer step: the element at the head of the rest of the trace (10_state.md R42). -/
def seqStep (s : State) : Host.Outcome State Fault Refusal :=
  match s.seq with
  | .idle => .next s
  | .run _ [] => .fault .traceExhausted
  | .run c (.validate i :: _) =>
    match validate i s with
    | some e => .next { s with seq := .run c (concludeTrace e) }
    | none => .next { s with seq := .run c (bodyTrace i s) }
  | .run c (.branch i :: _) => .next { s with seq := .run c (verdictTrace i s) }
  | .run c (.act a :: rest) =>
    match perform a s with
    | .ok t => .next { t with seq := .run c rest }
    | .error t => .next { t with seq := .run c (concludeTrace .busError) }
  | .run _ (.finish e :: _) => .next (finish e s)

/-- The next element is the finish. -/
def atFinish (s : State) : Bool :=
  match s.seq with
  | .run _ (.finish _ :: _) => true
  | _ => false

/-- Up to n sequencer steps, stopping at idle. -/
def seqRun : Nat → State → Host.Outcome State Fault Refusal
  | 0, s => .next s
  | n + 1, s =>
    match seqStep s with
    | .next t => seqRun n t
    | .fault r => .fault r
    | .refused r => .refused r

/-- Up to n sequencer steps, never the finish. -/
def advance : Nat → State → State
  | 0, s => s
  | n + 1, s =>
    if atFinish s then s
    else
      match seqStep s with
      | .next t => advance n t
      | .fault _ => s
      | .refused _ => s

/-- Data memory with the newest n of the running command's writes undone. -/
def rollBack : Nat → List Host.Cell → List Host.Cell → List Host.Cell
  | 0, _, m => m
  | _ + 1, [], m => m
  | n + 1, (a, b) :: t, m => rollBack n t (memWrite m a b)

/-- The state in which a reset finds an abandoned command: memory holds the effects of a drawn prefix of its trace, shorter or longer
than what the sequencer has performed, never with the finish (70_reset_and_hazards.md R159; 93 U8; DESIGN CHOICE, log entry 8). If it
undoes a write over a byte that a host had stored and not written back, on a platform that is not coherent, the block may still read the
byte from before that store, which `unwritten` has kept: the spec does not say (DESIGN CHOICE, log entry 20). -/
def abandoned (s : State) : State :=
  let d := Config.freeNat s.draws
  let t := { s with draws := s.draws + 1 }
  if d < s.undo.length then { t with mem := rollBack (s.undo.length - d) s.undo s.mem, undo := s.undo.drop (s.undo.length - d) }
  else advance (d - s.undo.length) t

/-- `rst` (70_reset_and_hazards.md R157 to R160): every register of the block at its reset value; data memory, the platform and the
hosts as they are. -/
def resetStep (s : State) : State :=
  let t := handOver (if busy s then abandoned s else s)
  { State.reset with
    mem := t.mem
    rdFail := t.rdFail
    wrFail := t.wrFail
    special := t.special
    coherent := t.coherent
    blockStale := t.blockStale
    unwritten := t.unwritten
    hostStale := t.hostStale
    draws := t.draws
    inputs := t.inputs
    busData := t.busData
    memData := t.memData }

end Sys2Proof.Machine
end

