-- ==== Sys2Proof/Machine/HostPort.lean ====
section
/-! DEFINITION. The host's side: the register window (10_state.md R15 to R28, 20_memory.md R51), the host's data-memory accesses
(20_memory.md R62, R66) and the notation of host programs (30_encoding.md R78, R79). -/

namespace Sys2Proof.Machine

/-! ## The register map -/

/-- The four registers of a descriptor (10_state.md R27). -/
inductive DescWord where
  | addrLo
  | addrHi
  | lenLo
  | lenHi
deriving DecidableEq, Repr

/-- The registers of the window (10_state.md R16). -/
inductive Reg where
  | id
  | caps
  | cmd
  | status
  | irqEn
  | present
  | msgLenLo
  | msgLenHi
  | errAddrLo
  | errAddrHi
  | desc (b : Buf) (w : DescWord)
deriving DecidableEq, Repr

/-- Descriptor number n (10_state.md R27). -/
def bufOf : Nat → Option Buf
  | 0 => some .key
  | 1 => some .nonce
  | 2 => some .ad
  | 3 => some .inp
  | 4 => some .out
  | 5 => some .tag
  | _ => none

/-- The register at byte n of a descriptor's four registers (10_state.md R16). -/
def descWordOf : Nat → Option DescWord
  | 0x0 => some .addrLo
  | 0x4 => some .addrHi
  | 0x8 => some .lenLo
  | 0xC => some .lenHi
  | _ => none

/-- The registers below 0x040 (10_state.md R16). -/
def lowReg : Nat → Option Reg
  | 0x000 => some .id
  | 0x004 => some .caps
  | 0x008 => some .cmd
  | 0x00C => some .status
  | 0x010 => some .irqEn
  | 0x014 => some .present
  | 0x020 => some .msgLenLo
  | 0x024 => some .msgLenHi
  | 0x028 => some .errAddrLo
  | 0x02C => some .errAddrHi
  | _ => none

/-- The register at an offset, `none` for a reserved or misaligned one (10_state.md R15, R16): descriptor b has its four registers
from 0x040 + 0x10·b on. -/
def regAt (off : Offset) : Option Reg :=
  if off.toNat < 0x40 then lowReg off.toNat
  else
    match bufOf ((off.toNat - 0x40) / 0x10), descWordOf (off.toNat % 0x10) with
    | some b, some w => some (.desc b w)
    | _, _ => none

/-- The register an access acts on: one that is 32 bits wide and whose offset the map lists (20_memory.md R51, 10_state.md R15). -/
def accessed (off : Offset) (bytes : Nat) : Option Reg := if bytes = 4 then regAt off else none

/-- Bits 31:0 of a 64-bit value (20_memory.md R49(c)). -/
def loHalf (v : Addr) : Word := v.extractLsb' 0 32

/-- Bits 63:32 of a 64-bit value. -/
def hiHalf (v : Addr) : Word := v.extractLsb' 32 32

/-- A 64-bit value with its low half replaced. -/
def withLo (v : Addr) (w : Word) : Addr := hiHalf v ++ w

/-- A 64-bit value with its high half replaced. -/
def withHi (v : Addr) (w : Word) : Addr := w ++ loHalf v

/-! ## Register reads and writes -/

/-- A register of a descriptor (10_state.md R27). -/
def readDesc (d : Desc) : DescWord → Word
  | .addrLo => loHalf d.addr
  | .addrHi => hiHalf d.addr
  | .lenLo => loHalf d.len
  | .lenHi => hiHalf d.len

/-- A descriptor with one of its registers written (10_state.md R27). -/
def writeDesc (d : Desc) (w : DescWord) (v : Word) : Desc :=
  match w with
  | .addrLo => { d with addr := withLo d.addr v }
  | .addrHi => { d with addr := withHi d.addr v }
  | .lenLo => { d with len := withLo d.len v }
  | .lenHi => { d with len := withHi d.len v }

/-- What ERRADDR shows to a read: 0 while BUSY = 1 (70_reset_and_hazards.md R169), though a bus error writes the register before Scrub
and finish (20_memory.md R54); its value once BUSY = 0 (10_state.md R25; DESIGN CHOICE, log entry 16). -/
def shownErrAddr (s : State) : Addr := if busy s then 0 else s.errAddr

/-- What a register reads (10_state.md R17 to R27). -/
def readReg (s : State) : Reg → Word
  | .id => 0x84390001#32
  | .caps => 0x40100C20#32
  | .cmd => 0
  | .status => statusWord s
  | .irqEn => 0#31 ++ bit s.doneIe
  | .present => 0#26 ++ s.present
  | .msgLenLo => loHalf s.msgLen
  | .msgLenHi => hiHalf s.msgLen
  | .errAddrLo => loHalf (shownErrAddr s)
  | .errAddrHi => hiHalf (shownErrAddr s)
  | .desc b w => readDesc (descOf s.desc b) w

/-- A read of the register window: no side effect, and 0 where no register is accessed (10_state.md R15, 20_memory.md R51). -/
def portRead (off : Offset) (bytes : Nat) (s : State) : Word :=
  match accessed off bytes with
  | some r => readReg s r
  | none => 0

/-- A write that BUSY = 1 refuses (10_state.md R26). -/
def unlessBusy (f : State → State) (s : State) : State := if busy s then ignoreWrite s else f s

/-- What writing v to a register does (10_state.md R15, R19, R21 to R23, R26, R27). -/
def writeReg (r : Reg) (v : Word) (s : State) : State :=
  match r with
  | .cmd => unlessBusy (acceptWord v) s
  | .status =>
    { s with
      done := s.done && !v.getLsbD 1
      wign := s.wign && !v.getLsbD 3 }
  | .irqEn => { s with doneIe := v.getLsbD 0 }
  | .present => unlessBusy (fun t => { t with present := v.extractLsb' 0 6 }) s
  | .desc b w => unlessBusy (fun t => { t with desc := setDesc t.desc b (writeDesc (descOf t.desc b) w v) }) s
  | .id | .caps | .msgLenLo | .msgLenHi | .errAddrLo | .errAddrHi => s

/-- A write of the register window (20_memory.md R51). -/
def portWrite (off : Offset) (bytes : Nat) (v : Word) (s : State) : State :=
  match accessed off bytes with
  | some r => writeReg r v s
  | none => s

/-- The offset of a bus address inside the window at BASE (00_scope.md R7, 10_state.md R15). -/
def windowOffset (a : Addr) : Option Offset :=
  if a.extractLsb' 12 52 = Config.basePage then some (a.extractLsb' 0 12) else none

/-! ## The host's accesses to data memory -/

/-- A host's byte store. While a command runs it is a race with the block's reads (20_memory.md R66); on a platform that is not
coherent the block may read the old byte until the host writes its cache back (R62). It reaches `mem` at once on either platform
(DESIGN CHOICE, log entry 19), and completes whatever RD_OK and WR_OK say, which are stated for DMA alone (DESIGN CHOICE, log
entry 18). A later host load returns the stored byte until the block writes there again, also while BUSY = 1, where R66 and 93 U7 name
only the byte from before the command and the trace's values: `undo` and `hostStale` lose the byte (DESIGN CHOICE, log entry 21). -/
def hostStore (a : Addr) (b : Byte) (s : State) : State :=
  if ordinary s a then
    { s with
      mem := memWrite s.mem a.toNat b
      blockStale := if busy s || !s.coherent then (a.toNat, memRead s.mem a.toNat) :: s.blockStale else s.blockStale
      unwritten := if s.coherent then s.unwritten else (a.toNat, memRead s.mem a.toNat) :: s.unwritten
      hostStale := memErase s.hostStale a.toNat
      undo := memErase s.undo a.toNat }
  else s

/-- The values a host load of a may return beside the one in memory: those the running command replaced (20_memory.md R66), and on a
platform that is not coherent those of lines the host has not invalidated (R62); none from before a host's own store (DESIGN CHOICE, log entry
21). -/
def hostAlts (a : Addr) (s : State) : List Byte :=
  staleAt s.undo a ++ if s.coherent then [] else staleAt s.hostStale a

/-- A host's byte load. It completes whatever RD_OK says, which is stated for DMA alone (DESIGN CHOICE, log entry 18). -/
def hostLoad (a : Addr) (s : State) : State :=
  if ordinary s a then
    { s with
      memData := pick (memRead s.mem a.toNat) (hostAlts a s) s.draws
      draws := s.draws + pickDraws (hostAlts a s) }
  else { s with memData := Config.freeByte s.draws, draws := s.draws + 1 }

/-- The cells outside a range. -/
def outside (r : Range) (l : List Host.Cell) : List Host.Cell :=
  l.filter fun c => !(decide (r.base ≤ c.1) && decide (c.1 < r.base + r.size))

/-- The host writes its cached lines over a range back (20_memory.md R62): the next command reads the bytes in memory. A command that runs
is still racing with the stores it was not handed, so its own reads stay drawn (R66, R67). -/
def hostWriteBack (r : Range) (s : State) : State :=
  { s with
    unwritten := outside r s.unwritten
    blockStale := if busy s then s.blockStale else outside r s.blockStale }

/-- What one host action does when it reaches the block or data memory (DESIGN CHOICE, log entry 15). Writing back and invalidating
cached lines never change `mem`: what a line does that is written back over a byte the block wrote, or invalidated before it is written
back, the spec does not say (DESIGN CHOICE, log entry 19). -/
def deliver (act : HostAct) (s : State) : State :=
  match act with
  | .write off bytes v => portWrite off bytes v s
  | .read off bytes => { s with busData := portRead off bytes s }
  | .busWrite a bytes v =>
    match windowOffset a with
    | some off => portWrite off bytes v s
    | none => s
  | .busRead a bytes =>
    match windowOffset a with
    | some off => { s with busData := portRead off bytes s }
    | none => s
  | .store a b => hostStore a b s
  | .load a => hostLoad a s
  | .writeBack r => hostWriteBack r s
  | .invalidate r => { s with hostStale := outside r s.hostStale }
  | .reset => resetStep s

/-- The word an action writes to CMD, if it does (10_state.md R19). -/
def commandWord (act : HostAct) : Option Word :=
  match act with
  | .write off bytes v => if accessed off bytes = some .cmd then some v else none
  | .busWrite a bytes v =>
    match windowOffset a with
    | some off => if accessed off bytes = some .cmd then some v else none
    | none => none
  | .read _ _ | .busRead _ _ | .store _ _ | .load _ | .writeBack _ | .invalidate _ | .reset => none

/-! ## Host programs (30_encoding.md R78, R79)

A program is the list of its lines. When a line reaches the block is no part of it: `schedule` places the lines, each at a moment of its
own, so a line may reach a running command or an idle block (10_state.md R26; 95_test_vectors.md P6). -/

/-- A line of a host program: `W off, val`, `R off` (30_encoding.md R78) and `WAIT` (R79). A MEM line is no action: `progMem`. -/
inductive HostLine where
  | w (off : Offset) (v : Word)
  | r (off : Offset)
  | wait
deriving DecidableEq, Repr

/-- A line as a host action: W and R reach the block once k more elements of the running trace have been performed, at once if no
command runs; WAIT is `R 0x00C` repeated until the value read has DONE = 1. -/
def lineInput (k : Nat) : HostLine → Input
  | .w off v => ⟨.after k, .write off 4 v⟩
  | .r off => ⟨.after k, .read off 4⟩
  | .wait => ⟨.whenDone, .read 0x00C 4⟩

/-- The lines of a program with a moment for each, in order; a line with no moment comes at the first one. -/
def schedule : List HostLine → List Nat → List Input
  | [], _ => []
  | l :: t, [] => lineInput 0 l :: schedule t []
  | l :: t, k :: ks => lineInput k l :: schedule t ks

/-- The encoding of a program: its writes, in order (30_encoding.md R78). -/
def progEncoding (l : List HostLine) : List (Offset × Word) :=
  l.filterMap fun x => match x with
    | .w off v => some (off, v)
    | .r _ => none
    | .wait => none

/-- `MEM a: b0 b1 ...`: start contents of data memory from address a on (30_encoding.md R78). -/
def progMem (a : Addr) : List Byte → State → State
  | [], s => s
  | b :: t, s => progMem (addrAdd a 1) t { s with mem := memWrite s.mem a.toNat b }

/-- `SETBUF B, a, L`. -/
def progSetbuf (b : Buf) (a l : Addr) : List HostLine :=
  let base : Offset := 0x040#12 + BitVec.ofNat 12 (0x10 * bufIndex b)
  [.w base (loHalf a), .w (base + 0x4) (hiHalf a), .w (base + 0x8) (loHalf l), .w (base + 0xC) (hiHalf l)]

/-- `PRES m`. -/
def progPres (m : Word) : List HostLine := [.w 0x014 m]

/-- `CMD X`. -/
def progCmd (i : Instr) : List HostLine := [.w 0x008 (encode i)]

/-- `WAIT`. -/
def progWait : List HostLine := [.wait]

/-- `ACK`. -/
def progAck : List HostLine := [.w 0x00C 0x0000000A]

/-- `IRQON`. -/
def progIrqon : List HostLine := [.w 0x010 0x00000001]

end Sys2Proof.Machine
end

