-- ==== Sys2Proof/Machine/Step.lean ====
section
/-! DEFINITION. One step: which agent moves (10_state.md R13) and what it does. A command that no host action interrupts runs whole, as
`exec` (DESIGN CHOICE, log entry 11); one that a host action is to reach while it runs goes element by element (10_state.md R42). -/

namespace Sys2Proof.Machine

/-- The host is still polling: DONE = 0, so the read of STATUS it makes is not its last (30_encoding.md R79). -/
def polling (a : Arrival) (s : State) : Bool :=
  match a with
  | .whenDone => !s.done
  | .whenIdle => false
  | .after _ => false

/-- One poll of WAIT: `R 0x00C` (30_encoding.md R79). -/
def poll (s : State) : State := deliver (.read 0x00C 4) s

/-- The next input, if any, arrives while the command that is about to start still runs. -/
def interrupted : List Input → Bool
  | ⟨.after _, _⟩ :: _ => true
  | _ => false

/-- A host writes word w to CMD while no command runs: the command runs whole if nothing arrives meanwhile, else it is accepted. -/
def runWord (w : Word) (s : State) : Host.Outcome State Fault Refusal :=
  if interrupted s.inputs then .next (acceptWord w s)
  else
    match decodeCommand w with
    | some i => exec i s
    | none => runIllegal w s

/-- A step while no command runs: the next host action, a poll if the host waits for a DONE that has not come, or nothing
(70_reset_and_hazards.md R178). -/
def idleStep (s : State) : Host.Outcome State Fault Refusal :=
  match s.inputs with
  | [] => .next s
  | ⟨ar, act⟩ :: rest =>
    if polling ar s then .next (poll s)
    else
      match commandWord act with
      | some w => runWord w { s with inputs := rest }
      | none => .next (deliver act { s with inputs := rest })

/-- A step while a command runs: the host action that is due, or the sequencer's next element (70_reset_and_hazards.md R177), after a
poll if the host waits for DONE. -/
def busyStep (s : State) : Host.Outcome State Fault Refusal :=
  match s.inputs with
  | ⟨.after 0, act⟩ :: rest => .next (deliver act { s with inputs := rest })
  | ⟨.after (k + 1), act⟩ :: rest => seqStep { s with inputs := ⟨.after k, act⟩ :: rest }
  | ⟨.whenIdle, _⟩ :: _ => seqStep s
  | ⟨.whenDone, _⟩ :: _ => seqStep (poll s)
  | [] => seqStep s

/-- One step of the machine. -/
def step (s : State) : Host.Outcome State Fault Refusal := if busy s then busyStep s else idleStep s

/-- s with an instruction's word about to be written to CMD, where the block takes its next command from: no command runs, and the
host's next (and only) action is that write (DESIGN CHOICE, log entry 1). -/
def State.withFetchWord (s : State) (nbits w : Nat) : State :=
  { s with seq := .idle, inputs := [⟨.whenIdle, .write 0x008 4 (tableWord nbits w)⟩] }

end Sys2Proof.Machine
end

