-- ==== Sys2Proof/Safety.lean ====
section
/-! DEFINITION. The terms in which claims about the block are stated: the bytes of a region, which accesses a command needs (30_encoding.md
R76), what ENC and DEC compute (41_encrypt.md R104), how a command has ended (60_exceptions.md R142), and the invariant every step keeps
(10_state.md R20, R45). -/

namespace Sys2Proof.Machine

/-! ## Regions and accesses -/

/-- The bytes of [a, a+n) (20_memory.md R49(a), R55). -/
def regionBytes (m : List Host.Cell) (a : Addr) (n : Nat) : List Byte :=
  (List.range n).map fun i => memRead m (addrAdd a i).toNat

/-- Every byte of [a, a+n) can be read by the block and is ordinary memory (00_scope.md R7, 20_memory.md R58). -/
abbrev Readable (s : State) (a : Addr) (n : Nat) : Prop :=
  ∀ i < n, rdOk s (addrAdd a i) = true ∧ ordinary s (addrAdd a i) = true

/-- Every byte of [a, a+n) can be written by the block and is ordinary memory. -/
abbrev Writable (s : State) (a : Addr) (n : Nat) : Prop :=
  ∀ i < n, wrOk s (addrAdd a i) = true ∧ ordinary s (addrAdd a i) = true

/-- The regions a command reads, as address and length (30_encoding.md R76). -/
def readsOf (i : Instr) (s : State) : List (Addr × Nat) :=
  let n := textLen i s
  match i with
  | .loadkey => [(addrOf s .key, 32)]
  | .enc | .encc => [(addrOf s .nonce, 12), (addrOf s .inp, n), (addrOf s .ad, adLen s), (addrOf s .out, n)]
  | .dec => [(addrOf s .nonce, 12), (addrOf s .ad, adLen s), (addrOf s .inp, n), (addrOf s .tag, 16)]
  | .decc => [(addrOf s .nonce, 12), (addrOf s .ad, adLen s), (addrOf s .inp, n + 16)]
  | .tagin => [(addrOf s .ad, adLen s), (addrOf s .inp, n)]
  | .release => []

/-- The regions a command writes, as address and length (30_encoding.md R76). -/
def writesOf (i : Instr) (s : State) : List (Addr × Nat) :=
  let n := textLen i s
  match i with
  | .enc => [(addrOf s .out, n), (addrOf s .tag, 16)]
  | .encc => [(addrOf s .out, n + 16)]
  | .dec | .decc => [(addrOf s .out, n)]
  | .tagin => [(addrOf s .out, messageLen (adLen s) n)]
  | .loadkey | .release => []

/-- Every access the command makes completes with data, on ordinary memory. -/
abbrev Granted (i : Instr) (s : State) : Prop :=
  (∀ r ∈ readsOf i s, Readable s r.1 r.2) ∧ ∀ w ∈ writesOf i s, Writable s w.1 w.2

/-- Every host store the command could read has been handed over to the block: the platform is coherent, or nothing is left to write
back (20_memory.md R62, R63). -/
abbrev HandedOver (s : State) : Prop := s.coherent = true ∨ s.blockStale = []

/-- The range covers address a. -/
abbrev Covers (r : Range) (a : Addr) : Prop := r.base ≤ a.toNat ∧ a.toNat < r.base + r.size

/-- Address x is none of the bytes the command may store to (30_encoding.md R76). -/
abbrev OutsideWrites (i : Instr) (s : State) (x : Nat) : Prop :=
  ∀ w ∈ writesOf i s, ∀ k < w.2, x ≠ (addrAdd w.1 k).toNat

/-! ## What the cipher commands compute (41_encrypt.md R104, 43_decrypt.md R127) -/

/-- The bytes at [a, a+n) as an n-byte register. -/
def loadBytes (n : Nat) (m : List Host.Cell) (a : Addr) : Vector Byte n :=
  Vector.ofFn fun i : Fin n => memRead m (addrAdd a i.val).toNat

/-- Byte i of the text keystream: byte i mod 64 of the block with counter 1 + floor(i/64) (41_encrypt.md R100). -/
def textKeystream (key : Vector Byte 32) (nonce : Vector Byte 12) (i : Nat) : Byte :=
  byteAt (Config.chachaBlock (Config.chachaInit key (BitVec.ofNat 32 (1 + i / 64)) nonce)) (i % 64)

/-- The one-time MAC key: the first 32 bytes of the block with counter 0 (41_encrypt.md R101). -/
def oneTimeKey (key : Vector Byte 32) (nonce : Vector Byte 12) : Vector Byte 32 :=
  firstHalf (Config.chachaBlock (Config.chachaInit key 0 nonce))

/-- The text XORed with the keystream (41_encrypt.md R104). -/
def xorText (key : Vector Byte 32) (nonce : Vector Byte 12) (p : List Byte) : List Byte :=
  p.mapIdx fun i b => b ^^^ textKeystream key nonce i

/-- The nonce a cipher command latches. -/
def nonceOf (s : State) : Vector Byte 12 := loadBytes 12 s.mem (addrOf s .nonce)

/-- The associated data of a command. -/
def adBytes (s : State) : List Byte := regionBytes s.mem (addrOf s .ad) (adLen s)

/-- The text a command reads from IN. -/
def textBytes (i : Instr) (s : State) : List Byte := regionBytes s.mem (addrOf s .inp) (textLen i s)

/-- The tag over associated data and ciphertext (42_tag_input.md R118). -/
def tagFor (key : Vector Byte 32) (nonce : Vector Byte 12) (a c : List Byte) : Vector Byte 16 :=
  Config.poly1305Tag (oneTimeKey key nonce) (tagInput a c)

/-- The tag DEC and DECC compute over the received ciphertext. -/
def computedTag (i : Instr) (s : State) : Vector Byte 16 := tagFor s.key (nonceOf s) (adBytes s) (textBytes i s)

/-- Where DEC or DECC finds the supplied tag (43_decrypt.md R127, R128). -/
def suppliedTagAddr (i : Instr) (s : State) : Addr :=
  match i with
  | .decc => addrAdd (addrOf s .inp) (textLen .decc s)
  | .loadkey | .enc | .dec | .encc | .release | .tagin => addrOf s .tag

/-- The supplied tag (43_decrypt.md R127, R128). -/
def suppliedTag (i : Instr) (s : State) : Vector Byte 16 := loadBytes 16 s.mem (suppliedTagAddr i s)

/-- Where ENC or ENCC puts the tag (41_encrypt.md R102, R103). -/
def tagOutAddr (i : Instr) (s : State) : Addr :=
  match i with
  | .encc => addrAdd (addrOf s .out) (textLen .encc s)
  | .loadkey | .enc | .dec | .decc | .release | .tagin => addrOf s .tag

/-- The address byte k of a tag-input message is read from, `none` for a padding or length byte (42_tag_input.md R115): a bytes of AD at
ad, c bytes of ciphertext at ct. -/
def messageSource (a : Nat) (ad : Addr) (c : Nat) (ct : Addr) (k : Nat) : Option Addr :=
  if k < a then some (addrAdd ad k)
  else if a + padLen a ≤ k ∧ k < a + padLen a + c then some (addrAdd ct (k - (a + padLen a)))
  else none

/-- The address TAGIN reads byte k of its message from. -/
abbrev taginSource (s : State) (k : Nat) : Option Addr :=
  messageSource (adLen s) (addrOf s .ad) (lenOf s .inp) (addrOf s .inp) k

/-- The address ENC or ENCC reads byte k of its message from: the ciphertext is read back from OUT. -/
abbrev encryptSource (i : Instr) (s : State) (k : Nat) : Option Addr :=
  messageSource (adLen s) (addrOf s .ad) (textLen i s) (addrOf s .out) k

/-! ## How a command has ended -/

/-- The command has finished with code e (60_exceptions.md R142) and every working register is zero (10_state.md R45). -/
abbrev FinishedWith (e : ErrCode) (t : State) : Prop :=
  busy t = false ∧ t.done = true ∧ t.errCode = e ∧ workingZero t = true ∧ t.mac = MacUnit.clear

/-- What no command changes: the descriptors, PRESENT, IRQ_EN and WIGN, the platform, and what hosts have yet to do. -/
structure SameSetup (s t : State) : Prop where
  desc : t.desc = s.desc
  present : t.present = s.present
  doneIe : t.doneIe = s.doneIe
  wign : t.wign = s.wign
  rdFail : t.rdFail = s.rdFail
  wrFail : t.wrFail = s.wrFail
  special : t.special = s.special
  coherent : t.coherent = s.coherent
  inputs : t.inputs = s.inputs
  busData : t.busData = s.busData
  memData : t.memData = s.memData

/-! ## Counting a trace (70_reset_and_hazards.md R163) -/

/-- The DMA reads among the elements. -/
def readCount (l : List Act) : Nat :=
  l.countP fun a => match a with | .rd _ => true | .wr _ _ => false | .reg _ => false

/-- The DMA writes among the elements. -/
def writeCount (l : List Act) : Nat :=
  l.countP fun a => match a with | .wr _ _ => true | .rd _ => false | .reg _ => false

/-- The ChaChaInit calls among the elements. -/
def initCount (l : List Act) : Nat := l.countP fun a => a == .reg .csInit

/-- The MacByte calls among the elements. -/
def macByteCount (l : List Act) : Nat :=
  l.countP fun a => match a with | .reg (.macByte _) => true | .reg _ => false | .rd _ => false | .wr _ _ => false

/-- The values the elements write to JCTR, in order (10_state.md R37). -/
def counterValues (l : List Act) : List Word :=
  l.filterMap fun a => match a with | .reg (.setJctr v) => some v | .reg _ => none | .rd _ => none | .wr _ _ => none

/-! ## The register map -/

/-- Where a register of a descriptor stands: 0x040 + 0x10·b + 0x0, 0x4, 0x8 or 0xC (10_state.md R16). -/
def descOffset (b : Buf) (w : DescWord) : Offset :=
  0x040#12 + BitVec.ofNat 12 (0x10 * bufIndex b) +
    (match w with | .addrLo => 0x0#12 | .addrHi => 0x4#12 | .lenLo => 0x8#12 | .lenHi => 0xC#12)

/-! ## The invariant -/

/-- KEY may hold a key only while CTX = KEYED (10_state.md R44(b)). -/
abbrev KeyHeld (s : State) : Prop := s.ctx = .keyed ∨ s.key = .replicate 32 0

/-- Performing the elements ends with `KeyHeld`, and so does a bus error at any of them (which zeroes KEY in LOADKEY, 20_memory.md
R54); z: KEY is zero now, kd: CTX is KEYED now. -/
def keySafe (c : Option Instr) : List Act → Bool → Bool → Bool
  | [], z, kd => z || kd
  | .reg .clearKey :: t, _, kd => keySafe c t true kd
  | .reg (.latchKey _) :: t, _, kd => keySafe c t false kd
  | .reg (.setCtx x) :: t, z, _ => keySafe c t z (x == .keyed)
  | .reg _ :: t, z, kd => keySafe c t z kd
  | .rd _ :: t, z, kd => (c == some .loadkey || z || kd) && keySafe c t z kd
  | .wr _ _ :: t, z, kd => (c == some .loadkey || z || kd) && keySafe c t z kd

/-- `keySafe` from the key and context of s on. -/
abbrev KeySafe (c : Option Instr) (acts : List Act) (s : State) : Prop :=
  keySafe c acts (s.key == .replicate 32 0) (s.ctx == .keyed) = true

/-- What can be left of a running command's trace (10_state.md R42): Validate; elements and then `Scrub(); finish`; elements and then
the choice on ok; or part of `Scrub(); finish`, with the registers already scrubbed at zero. -/
def TraceOk (c : Option Instr) (todo : List Elem) (s : State) : Prop :=
  (∃ i, c = some i ∧ todo = [.validate i] ∧ KeyHeld s) ∨
  (∃ acts e, todo = acts.map Elem.act ++ concludeTrace e ∧ KeySafe c acts s) ∨
  (∃ acts i, (i = .dec ∨ i = .decc) ∧ todo = acts.map Elem.act ++ [.branch i] ∧ KeySafe c acts s) ∨
  (∃ k e, k ≤ scrubOps.length ∧ todo = (concludeTrace e).drop k ∧ (∀ r ∈ scrubOps.take k, performReg r s = s) ∧ KeyHeld s)

/-- The sequencer's half of the invariant: idle means scrubbed (10_state.md R45); running means DONE = 0 and ERRCODE = 0 (R20) and a
trace that can go on. -/
def SeqOk (s : State) : Prop :=
  match s.seq with
  | .idle => scrubbed s = true ∧ s.undo = [] ∧ s.dataLatch = 0 ∧ s.okBit = false
  | .run c todo => s.done = false ∧ s.errCode = .ok ∧ TraceOk c todo s

/-- The invariant: memory is canonical, and the sequencer's half. -/
structure Inv (s : State) : Prop where
  mem_wf : Memory.wf s.mem
  undo_lt : ∀ c ∈ s.undo, c.1 < 2 ^ 64
  seq_ok : SeqOk s

end Sys2Proof.Machine
end

