-- ==== Sys2Proof/Certificates/Slice0/Obligations.lean ====
section
/-! DEFINITION. The statements for the provers, from the numbered rules of spec/. Each name says what it states; OBLIGATIONS.json cites
the rules. Every statement about the state a command leaves is about `exec`, which answers a next state for every command (no meaning
faults or refuses). -/

open Sys2Proof Sys2Proof.Machine

/-! ## Encoding -/

/-- The opcode map, word by word (30_encoding.md R71, R73): seven words name a command, OP 0 and 8 to 15 name none, and a word with a
bit of RSVD set names none whatever its OP is. -/
def Obligations.DecodeSpecWords : Prop :=
  decode 0x00000001#32 = .ok .loadkey ∧ decode 0x00000002#32 = .ok .enc ∧ decode 0x00000003#32 = .ok .dec ∧
  decode 0x00000004#32 = .ok .encc ∧ decode 0x00000005#32 = .ok .decc ∧ decode 0x00000006#32 = .ok .release ∧
  decode 0x00000007#32 = .ok .tagin ∧ decode 0x00000000#32 = .error .unassignedOp ∧
  (∀ k < 8, decode (BitVec.ofNat 32 (8 + k)) = .error .unassignedOp) ∧
  decode 0x00000012#32 = .error .reservedBits ∧ decode 0x80000001#32 = .error .reservedBits

/-- Decode on all 2^32 words (30_encoding.md R72): a word decodes to a command exactly when it is that command's word, 1 to 7, so exactly
seven words do, and every other word is ILLEGAL. -/
def Obligations.DecodeExactly : Prop :=
  [Instr.loadkey, .enc, .dec, .encc, .decc, .release, .tagin].map encode = [1#32, 2#32, 3#32, 4#32, 5#32, 6#32, 7#32] ∧
  ∀ w : Word,
    (∀ i, decode w = .ok i ↔ w = encode i) ∧
    (w.extractLsb' 4 28 ≠ 0#28 → decode w = .error .reservedBits) ∧
    (w.extractLsb' 4 28 = 0#28 → (∀ i, w ≠ encode i) → decode w = .error .unassignedOp) ∧
    (wellFormedWord w = true ↔ ∃ i, w = encode i)

/-! ## Which agent moves -/

/-- A step that writes a command's word to CMD while no command runs is exec of that command, when the host is not polling and no host
action is to reach the block while it runs (10_state.md R19, 30_encoding.md R72, R74); and so is the step from `withFetchWord`. A write
of the window is a write of CMD exactly when it is 32 bits wide at offset 0x008. -/
def Obligations.StepRunsCommand : Prop :=
  (∀ (s : State) (ar : Arrival) (act : HostAct) (w : Word) (i : Instr) (rest : List Input),
    busy s = false → s.inputs = ⟨ar, act⟩ :: rest → commandWord act = some w → polling ar s = false → interrupted rest = false →
    decode w = .ok i →
    step s = exec i { s with inputs := rest }) ∧
  (∀ (off : Offset) (bytes : Nat) (v : Word),
    commandWord (.write off bytes v) = if off = 0x008 ∧ bytes = 4 then some v else none) ∧
  ∀ (s : State) (i : Instr),
    step (s.withFetchWord 32 (encode i).toNat) = exec i { s with seq := .idle, inputs := [] }

/-- Every other step (10_state.md R13, R42; 70_reset_and_hazards.md R178): an idle block with no host action to come stays as it is; a host
action that writes no command takes effect alone; a command that a host action is to reach while it runs is accepted and then goes
element by element, the host action taking effect once its count of elements has passed. A host that waits for DONE polls: while DONE = 0
each of its steps reads STATUS and changes nothing else, the sequencer going on, and once DONE = 1 its action takes effect as any other
(30_encoding.md R79). A host access at a bus address inside the window at BASE is the access at its offset, CMD included, and one outside
the window changes nothing (10_state.md R15, 00_scope.md R7). -/
def Obligations.StepTakesTurns : Prop :=
  ∀ s : State,
    (busy s = false → s.inputs = [] → step s = .next s) ∧
    (∀ act rest, busy s = false → s.inputs = ⟨.whenDone, act⟩ :: rest → s.done = false →
      step s = .next { s with busData := portRead 0x00C 4 s }) ∧
    (∀ ar act rest, busy s = false → s.inputs = ⟨ar, act⟩ :: rest → (ar = .whenDone → s.done = true) → commandWord act = none →
      step s = .next (deliver act { s with inputs := rest })) ∧
    (∀ ar act w k act' rest, busy s = false → s.inputs = ⟨ar, act⟩ :: ⟨.after k, act'⟩ :: rest →
      (ar = .whenDone → s.done = true) → commandWord act = some w →
      step s = .next (acceptWord w { s with inputs := ⟨.after k, act'⟩ :: rest })) ∧
    (busy s = true → s.inputs = [] → step s = seqStep s) ∧
    (∀ act rest, busy s = true → s.inputs = ⟨.whenIdle, act⟩ :: rest → step s = seqStep s) ∧
    (∀ act rest, busy s = true → s.inputs = ⟨.whenDone, act⟩ :: rest →
      step s = seqStep { s with busData := portRead 0x00C 4 s }) ∧
    (∀ act rest, busy s = true → s.inputs = ⟨.after 0, act⟩ :: rest → step s = .next (deliver act { s with inputs := rest })) ∧
    (∀ k act rest, busy s = true → s.inputs = ⟨.after (k + 1), act⟩ :: rest →
      step s = seqStep { s with inputs := ⟨.after k, act⟩ :: rest }) ∧
    (∀ (off : Offset) bytes v,
      deliver (.busWrite (Config.basePage ++ off) bytes v) s = deliver (.write off bytes v) s ∧
      deliver (.busRead (Config.basePage ++ off) bytes) s = deliver (.read off bytes) s ∧
      commandWord (.busWrite (Config.basePage ++ off) bytes v) = commandWord (.write off bytes v)) ∧
    ∀ (a : Addr) bytes v, a.extractLsb' 12 52 ≠ Config.basePage →
      deliver (.busWrite a bytes v) s = s ∧ deliver (.busRead a bytes) s = s ∧ commandWord (.busWrite a bytes v) = none

/-- A word nothing interrupts runs whole in one step, a command as exec and an ILLEGAL word as runIllegal, and that step leaves what the
sequencer leaves when it performs the word's trace element by element (10_state.md R42, 00_scope.md R11). -/
def Obligations.WholeRunIsElementByElement : Prop :=
  ∀ (w : Word) (s : State), busy s = false →
    ∃ n t, seqRun n (acceptWord w s) = .next t ∧ busy t = false ∧
      (∀ i, decode w = .ok i → exec i s = .next t) ∧ ((∀ i, decode w ≠ .ok i) → runIllegal w s = .next t)

/-- An ILLEGAL word is accepted, finishes IllegalCommand, and touches no descriptor, no memory, no CTX and no KEY
(30_encoding.md R73). That acceptance and the whole trace are one step here, where no host action comes in between, is the model's choice
(log entries 1 and 11); by 10_state.md R42 each element is a step of its own, and `WholeRunIsElementByElement` says both leave the same. -/
def Obligations.IllegalWordRefused : Prop :=
  ∀ (s : State) (ar : Arrival) (act : HostAct) (w : Word) (rest : List Input),
    busy s = false → s.inputs = ⟨ar, act⟩ :: rest → commandWord act = some w → polling ar s = false → interrupted rest = false →
    wellFormedWord w = false →
    ∃ t, step s = .next t ∧ FinishedWith .illegalCommand t ∧ t.lastCmd = w.extractLsb' 0 4 ∧ t.mem = s.mem ∧
      t.ctx = s.ctx ∧ t.key = s.key ∧ t.msgLen = 0 ∧ t.errAddr = 0 ∧ SameSetup { s with inputs := rest } t

/-! ## The register window -/

/-- ID, CAPS and CMD read constants in every state, and a write of a read-only register is ignored and sets no status bit
(10_state.md R15, R17, R18, R19). -/
def Obligations.ReadOnlyRegisters : Prop :=
  (∀ s : State, portRead 0x000 4 s = 0x84390001#32 ∧ portRead 0x004 4 s = 0x40100C20#32 ∧ portRead 0x008 4 s = 0) ∧
  ∀ (s : State) (off : Offset) (v : Word),
    (off = 0x000 ∨ off = 0x004 ∨ off = 0x020 ∨ off = 0x024 ∨ off = 0x028 ∨ off = 0x02C) → portWrite off 4 v s = s

/-- An access that is not 32 bits wide, is misaligned or names a reserved offset reads 0, and its write is ignored and sets no status
bit (10_state.md R15, R16; 20_memory.md R51). -/
def Obligations.ReservedAccessesInert : Prop :=
  ∀ (s : State) (off : Offset) (bytes : Nat) (v : Word),
    (bytes ≠ 4 ∨ off.toNat % 4 ≠ 0 ∨ (0x018 ≤ off.toNat ∧ off.toNat < 0x020) ∨ (0x030 ≤ off.toNat ∧ off.toNat < 0x040) ∨
      0x0A0 ≤ off.toNat) →
    portRead off bytes s = 0 ∧ portWrite off bytes v s = s

/-- What a STATUS read shows, bit by bit (10_state.md R20); while BUSY = 1, DONE = 0, ERR = 0 and ERRCODE = 0, so no read shows BUSY = 1
with DONE = 1 (R20, 60_exceptions.md R142), and in every state ERRADDR reads 0 then (70_reset_and_hazards.md R169). -/
def Obligations.StatusFields : Prop :=
  ∀ s : State,
    let v := portRead 0x00C 4 s
    (v.getLsbD 0 = busy s ∧ v.getLsbD 1 = s.done ∧ (v.getLsbD 2 = true ↔ v.extractLsb' 8 4 ≠ 0) ∧ v.getLsbD 3 = s.wign ∧
      v.extractLsb' 4 2 = ctxBits s.ctx ∧ v.extractLsb' 4 2 ≠ 3 ∧ v.getLsbD 6 = scrubbed s ∧ v.getLsbD 7 = false ∧
      v.extractLsb' 8 4 = codeOf s.errCode ∧ v.extractLsb' 12 4 = s.lastCmd ∧ v.extractLsb' 16 16 = 0) ∧
    (Inv s → v.getLsbD 0 = true → v.getLsbD 1 = false ∧ v.getLsbD 2 = false ∧ v.extractLsb' 8 4 = 0) ∧
    (v.getLsbD 0 = true → portRead 0x028 4 s = 0 ∧ portRead 0x02C 4 s = 0)

/-- A STATUS write clears DONE by bit 1 and WIGN by bit 3 and does nothing else, also while BUSY = 1, where its DONE half has no effect
(10_state.md R21). -/
def Obligations.StatusWriteOneToClear : Prop :=
  ∀ (s : State) (v : Word),
    portWrite 0x00C 4 v s =
      { s with
        done := if v.getLsbD 1 then false else s.done
        wign := if v.getLsbD 3 then false else s.wign } ∧
    (Inv s → busy s = true → (portWrite 0x00C 4 v s).done = s.done)

/-- SCRUBBED, term by term (10_state.md R44), and that it is 1 after every step that leaves BUSY = 0 (R45). -/
def Obligations.Scrubbed : Prop :=
  (∀ s : State, (portRead 0x00C 4 s).getLsbD 6 = true ↔
    (s.nl = .replicate 12 0 ∧ s.cs = .replicate 16 0 ∧ s.ks = .replicate 64 0 ∧ s.otk = .replicate 32 0 ∧
      s.etag = .replicate 16 0 ∧ s.stag = .replicate 16 0 ∧ s.diff = 0 ∧ s.encK = 0 ∧ s.jctr = 0) ∧
    (s.ctx = .keyed ∨ s.key = .replicate 32 0)) ∧
  ∀ s t : State, Inv s → step s = .next t → (portRead 0x00C 4 t).getLsbD 0 = false →
    (portRead 0x00C 4 t).getLsbD 6 = true

/-- While BUSY = 1 a write of CMD, PRESENT or a descriptor register only sets WIGN, and so does any command; so the running command reads
the same descriptors and PRESENT from its acceptance to its finish, whatever hosts do (10_state.md R19, R26). -/
def Obligations.BusyWritesIgnored : Prop :=
  ∀ s : State, busy s = true →
    (∀ (off : Offset) (v : Word), (off = 0x008 ∨ off = 0x014 ∨ ∃ b w, off = descOffset b w) →
      portWrite off 4 v s = { s with wign := true }) ∧
    (∀ i, exec i s = .next { s with wign := true }) ∧
    ∀ t, step s = .next t → busy t = true → t.desc = s.desc ∧ t.present = s.present

/-- What a descriptor, PRESENT or IRQ_EN register reads after a write: a descriptor register the value written while BUSY = 0, with no
other descriptor register changed (10_state.md R27); PRESENT bits 5:0 (R23); IRQ_EN bit 0, also while BUSY = 1 (R22). -/
def Obligations.RegisterReadBack : Prop :=
  ∀ (s : State) (v : Word),
    (∀ b w, busy s = false →
      portRead (descOffset b w) 4 (portWrite (descOffset b w) 4 v s) = v ∧
      ∀ b' w', (b', w') ≠ (b, w) →
        portRead (descOffset b' w') 4 (portWrite (descOffset b w) 4 v s) = portRead (descOffset b' w') 4 s) ∧
    (busy s = false → portRead 0x014 4 (portWrite 0x014 4 v s) = v &&& 0x3F#32) ∧
    portRead 0x010 4 (portWrite 0x010 4 v s) = v &&& 0x1#32

/-- addr(b), len(b) and present(b) in terms of the register halves (10_state.md R28). -/
def Obligations.DescriptorMeaning : Prop :=
  ∀ (s : State) (b : Buf),
    (addrOf s b).toNat =
      (portRead (descOffset b .addrHi) 4 s).toNat * 2 ^ 32 + (portRead (descOffset b .addrLo) 4 s).toNat ∧
    lenOf s b = (portRead (descOffset b .lenHi) 4 s).toNat * 2 ^ 32 + (portRead (descOffset b .lenLo) 4 s).toNat ∧
    isPresent s b = (portRead 0x014 4 s).getLsbD (bufIndex b)

/-- SETBUF writes the four registers of a descriptor: done while BUSY = 0 it sets that descriptor's address and length and nothing else
(30_encoding.md R79); done while BUSY = 1 it only sets WIGN (10_state.md R26). Its lines are placed at any moments. -/
def Obligations.SetbufSetsDescriptor : Prop :=
  ∀ (s : State) (b : Buf) (a l : Addr) (moments : List Nat),
    ((schedule (progSetbuf b a l) moments).map fun p => p.act).foldl (fun t act => deliver act t) s =
      if busy s then { s with wign := true } else { s with desc := setDesc s.desc b ⟨a, l⟩ }

/-- The interrupt line (60_exceptions.md R146): STATUS.DONE and IRQ_EN.DONE_IE; raised by the finish of any command with any code when
enabled, raised and lowered at once by IRQ_EN, lowered by writing 1 to DONE, by the acceptance of a command and by reset. -/
def Obligations.InterruptLine : Prop :=
  ∀ s : State,
    irq s = ((portRead 0x00C 4 s).getLsbD 1 && (portRead 0x010 4 s).getLsbD 0) ∧
    (∀ i t, busy s = false → exec i s = .next t → irq t = s.doneIe) ∧
    (∀ w t, busy s = false → runIllegal w s = .next t → irq t = s.doneIe) ∧
    (∀ v, irq (portWrite 0x010 4 v s) = (s.done && v.getLsbD 0) ∧ (portWrite 0x010 4 v s).done = s.done) ∧
    (∀ v, v.getLsbD 1 = true → irq (portWrite 0x00C 4 v s) = false) ∧
    (∀ w, irq (acceptWord w s) = false) ∧
    irq (resetStep s) = false

/-! ## Reset -/

/-- After a reset every register of the window reads its reset value, whatever the block was doing (10_state.md R30,
70_reset_and_hazards.md R157). -/
def Obligations.ResetRegisters : Prop :=
  ∀ (s : State) (off : Offset),
    portRead off 4 (resetStep s) =
      if off = 0x000 then 0x84390001#32
      else if off = 0x004 then 0x40100C20#32
      else if off = 0x00C then 0x00000040#32
      else 0

/-- The reset action on internal state (70_reset_and_hazards.md R158), and that the state right after power-up is that of a reset. -/
def Obligations.ResetInternal : Prop :=
  (∀ s : State,
    (resetStep s).ctx = .empty ∧ (resetStep s).key = .replicate 32 0 ∧ (resetStep s).nl = .replicate 12 0 ∧
    (resetStep s).cs = .replicate 16 0 ∧ (resetStep s).ks = .replicate 64 0 ∧ (resetStep s).otk = .replicate 32 0 ∧
    (resetStep s).etag = .replicate 16 0 ∧ (resetStep s).stag = .replicate 16 0 ∧ (resetStep s).diff = 0 ∧
    (resetStep s).encK = 0 ∧ (resetStep s).jctr = 0 ∧ (resetStep s).mac = .clear ∧ (resetStep s).seq = .idle ∧
    scrubbed (resetStep s) = true) ∧
  resetStep State.reset = State.reset

/-- Reset and data memory (70_reset_and_hazards.md R159, R160): a reset while no command runs leaves memory as it is; a reset of a
running command leaves the memory effects of some prefix of its trace, without its finish. The second is said of ordinary memory with
every host store handed over, where no free value is drawn. -/
def Obligations.ResetAndMemory : Prop :=
  (∀ (s : State) (ar : Arrival) (rest : List Input), busy s = false → s.inputs = ⟨ar, .reset⟩ :: rest → polling ar s = false →
    ∃ t, step s = .next t ∧ t.mem = s.mem ∧ busy t = false ∧ t.inputs = rest) ∧
  ∀ (s0 s : State) (w : Word) (n : Nat), busy s0 = false → s0.special = [] → HandedOver s0 →
    seqRun n (acceptWord w s0) = .next s → busy s = true →
    ∃ m u, seqRun m (acceptWord w s0) = .next u ∧ busy u = true ∧
      ∀ x, memRead (resetStep s).mem x = memRead u.mem x

/-- The block right after reset meets the invariant (10_state.md R45). -/
def Obligations.ResetMeetsInvariant : Prop := Inv State.reset

/-! ## Invariants -/

/-- Every step goes on, with neither fault nor refusal, and keeps the invariant: memory in its canonical form; idle means every working
register zero and KEY zero unless CTX is KEYED; running means DONE = 0, ERRCODE = 0 and a trace that can run to its finish
(10_state.md R20, R42, R45). It holds whatever hosts do, resets included. -/
def Obligations.StepKeepsInvariant : Prop :=
  ∀ s : State, Inv s → ∃ t, step s = .next t ∧ Inv t

/-! ## Memory -/

/-- One byte read and one byte write of ordinary memory, and the bus error (20_memory.md R52, R53, R54): a granted write sets that byte
and no other, a granted read returns the byte held, so a read after a write returns the value written; an access that is not granted
changes no byte. -/
def Obligations.ByteAccesses : Prop :=
  ∀ (s : State) (a : Addr) (v : Byte), ordinary s a = true →
    (wrOk s a = true → ∃ t, dmaWrite a v s = .ok t ∧ (∀ x, memRead t.mem x = if x = a.toNat then v else memRead s.mem x) ∧
      (rdOk s a = true → ∃ u, dmaRead a t = .ok u ∧ u.dataLatch = v ∧ u.mem = t.mem)) ∧
    (rdOk s a = true → s.blockStale = [] → dmaRead a s = .ok { s with dataLatch := memRead s.mem a.toNat }) ∧
    (wrOk s a = false → dmaWrite a v s = .error (busErrorAt a s)) ∧
    (rdOk s a = false → dmaRead a s = .error (busErrorAt a s)) ∧
    (busErrorAt a s).mem = s.mem ∧ (busErrorAt a s).errAddr = a

/-- The two ordering points (20_memory.md R63, R65). On a coherent platform a host store before the CMD write is seen by the command's
reads, and a host load of ordinary memory once a command has finished gets what the command left there. On any platform so does a store
the host has written back, and a load after the host has invalidated (R62, 70_reset_and_hazards.md R170). A write-back while a command
runs orders nothing for that command (R66, R67) and is seen by the next. That a host's own access completes whatever RD_OK and WR_OK say
is the model's choice (log entry 18), and so is that a store stands in memory at once (log entry 19). -/
def Obligations.OrderingPoints : Prop :=
  (∀ (s : State) (a : Addr) (b : Byte) (w : Word), busy s = false → s.coherent = true → ordinary s a = true →
    rdOk s a = true → ∃ t, dmaRead a (acceptWord w (deliver (.store a b) s)) = .ok t ∧ t.dataLatch = b) ∧
  (∀ (i : Instr) (s t : State) (a : Addr), busy s = false → s.coherent = true → ordinary s a = true → exec i s = .next t →
    (deliver (.load a) t).memData = memRead t.mem a.toNat) ∧
  (∀ (s : State) (a : Addr) (b : Byte) (w : Word) (r : Range), busy s = false → ordinary s a = true → rdOk s a = true →
    Covers r a →
    ∃ t, dmaRead a (acceptWord w (deliver (.writeBack r) (deliver (.store a b) s))) = .ok t ∧ t.dataLatch = b) ∧
  (∀ (i : Instr) (s t : State) (a : Addr) (r : Range), busy s = false → ordinary s a = true → Covers r a → exec i s = .next t →
    (deliver (.load a) (deliver (.invalidate r) t)).memData = memRead t.mem a.toNat) ∧
  ∀ (s : State) (a : Addr) (e : ErrCode) (w : Word) (r : Range), busy s = true → ordinary s a = true → rdOk s a = true →
    Covers r a →
    (deliver (.writeBack r) s).blockStale = s.blockStale ∧
    ∃ t, dmaRead a (acceptWord w (conclude e (deliver (.writeBack r) s))) = .ok t ∧ t.dataLatch = memRead s.mem a.toNat

/-- The two races of 20_memory.md R66: after a host store to a byte while BUSY = 1 the block reads the new byte or one the byte held
before; a host load while BUSY = 1 gets the current byte or one this command replaced. Which one is a free value, and that the host's own
access completes whatever RD_OK and WR_OK say is the model's choice (log entries 4, 7, 8 and 18), and so is that a load after a host's own
store to the byte gets no byte from before that store (log entry 21). -/
def Obligations.RacesGiveOldOrNew : Prop :=
  ∀ (s : State) (a : Addr), busy s = true → ordinary s a = true → s.coherent = true →
    (∀ b, rdOk s a = true → ∃ t, dmaRead a (deliver (.store a b) s) = .ok t ∧
      (t.dataLatch = b ∨ t.dataLatch = memRead s.mem a.toNat ∨ (a.toNat, t.dataLatch) ∈ s.blockStale)) ∧
    ((deliver (.load a) s).memData = memRead s.mem a.toNat ∨ (a.toNat, (deliver (.load a) s).memData) ∈ s.undo)

/-! ## Validation -/

/-- ENC and DEC: which validation failure is reported, check by check in order (40_context.md R86, R88 to R92). -/
def Obligations.EncDecValidation : Prop :=
  ∀ (i : Instr) (s : State), i = .enc ∨ i = .dec → busy s = false →
    ∃ t, exec i s = .next t ∧
      (t.errCode = .contextUnusable ↔ s.ctx ≠ .keyed) ∧
      (let required := isPresent s .nonce = true ∧ isPresent s .inp = true ∧ isPresent s .out = true ∧ isPresent s .tag = true
       (t.errCode = .missingArgument ↔ s.ctx = .keyed ∧ ¬required) ∧
       (t.errCode = .lengthMismatch ↔ s.ctx = .keyed ∧ required ∧ lenOf s .out ≠ lenOf s .inp) ∧
       (t.errCode = .invalidNonceLength ↔
         s.ctx = .keyed ∧ required ∧ lenOf s .out = lenOf s .inp ∧ lenOf s .nonce ≠ 12) ∧
       (t.errCode = .invalidTagLength ↔
         s.ctx = .keyed ∧ required ∧ lenOf s .out = lenOf s .inp ∧ lenOf s .nonce = 12 ∧ lenOf s .tag ≠ 16) ∧
       (t.errCode = .lengthOverflow ↔
         s.ctx = .keyed ∧ required ∧ lenOf s .out = lenOf s .inp ∧ lenOf s .nonce = 12 ∧ lenOf s .tag = 16 ∧
           ((2 ^ 32 - 1) * 64 < lenOf s .inp ∨ 2 ^ 64 - 1 < messageLen (adLen s) (lenOf s .inp))))

/-- ENCC (40_context.md R86, R88 to R92): TAG is not looked at, and OUT must hold 16 bytes more than IN. -/
def Obligations.EnccValidation : Prop :=
  ∀ s : State, busy s = false →
    ∃ t, exec .encc s = .next t ∧ t.errCode ≠ .invalidTagLength ∧
      (t.errCode = .contextUnusable ↔ s.ctx ≠ .keyed) ∧
      (let required := isPresent s .nonce = true ∧ isPresent s .inp = true ∧ isPresent s .out = true
       (t.errCode = .missingArgument ↔ s.ctx = .keyed ∧ ¬required) ∧
       (t.errCode = .lengthMismatch ↔ s.ctx = .keyed ∧ required ∧ lenOf s .out ≠ lenOf s .inp + 16) ∧
       (t.errCode = .invalidNonceLength ↔
         s.ctx = .keyed ∧ required ∧ lenOf s .out = lenOf s .inp + 16 ∧ lenOf s .nonce ≠ 12) ∧
       (t.errCode = .lengthOverflow ↔
         s.ctx = .keyed ∧ required ∧ lenOf s .out = lenOf s .inp + 16 ∧ lenOf s .nonce = 12 ∧
           ((2 ^ 32 - 1) * 64 < lenOf s .inp ∨ 2 ^ 64 - 1 < messageLen (adLen s) (lenOf s .inp))))

/-- DECC (40_context.md R86, R88 to R92): an IN shorter than 16 bytes passes the length check and fails InvalidTagLength. -/
def Obligations.DeccValidation : Prop :=
  ∀ s : State, busy s = false →
    ∃ t, exec .decc s = .next t ∧
      (t.errCode = .contextUnusable ↔ s.ctx ≠ .keyed) ∧
      (let required := isPresent s .nonce = true ∧ isPresent s .inp = true ∧ isPresent s .out = true
       let lengths := lenOf s .inp < 16 ∨ lenOf s .out = lenOf s .inp - 16
       (t.errCode = .missingArgument ↔ s.ctx = .keyed ∧ ¬required) ∧
       (t.errCode = .lengthMismatch ↔ s.ctx = .keyed ∧ required ∧ ¬lengths) ∧
       (t.errCode = .invalidNonceLength ↔ s.ctx = .keyed ∧ required ∧ lengths ∧ lenOf s .nonce ≠ 12) ∧
       (t.errCode = .invalidTagLength ↔ s.ctx = .keyed ∧ required ∧ lenOf s .nonce = 12 ∧ lenOf s .inp < 16) ∧
       (t.errCode = .lengthOverflow ↔
         s.ctx = .keyed ∧ required ∧ lenOf s .nonce = 12 ∧ 16 ≤ lenOf s .inp ∧ lenOf s .out = lenOf s .inp - 16 ∧
           ((2 ^ 32 - 1) * 64 < lenOf s .inp - 16 ∨ 2 ^ 64 - 1 < messageLen (adLen s) (lenOf s .inp - 16))))

/-- TAGIN (40_context.md R88, R89, R92): it needs no key, and a message length above 2^64 - 1 is LengthOverflow, not LengthMismatch. -/
def Obligations.TaginValidation : Prop :=
  ∀ s : State, busy s = false →
    ∃ t, exec .tagin s = .next t ∧ t.errCode ≠ .contextUnusable ∧
      (let required := isPresent s .inp = true ∧ isPresent s .out = true
       (t.errCode = .missingArgument ↔ ¬required) ∧
       (t.errCode = .lengthMismatch ↔ required ∧ messageLen (adLen s) (lenOf s .inp) ≤ 2 ^ 64 - 1 ∧
         lenOf s .out ≠ messageLen (adLen s) (lenOf s .inp)) ∧
       (t.errCode = .lengthOverflow ↔ required ∧ 2 ^ 64 - 1 < messageLen (adLen s) (lenOf s .inp)))

/-- LOADKEY (40_context.md R87, R93): InvalidKey when the key is absent or not 32 bytes, then AddressRange; a failure leaves KEY and CTX
unchanged. -/
def Obligations.LoadkeyValidation : Prop :=
  ∀ s : State, busy s = false →
    ∃ t, exec .loadkey s = .next t ∧
      (t.errCode = .invalidKey ↔ isPresent s .key = false ∨ lenOf s .key ≠ 32) ∧
      (t.errCode = .addressRange ↔ isPresent s .key = true ∧ lenOf s .key = 32 ∧ 2 ^ 64 < (addrOf s .key).toNat + 32) ∧
      (t.errCode = .invalidKey ∨ t.errCode = .addressRange → t.key = s.key ∧ t.ctx = s.ctx)

/-- AddressRange and BufferOverlap (40_context.md R93, R94; 20_memory.md R56, R57), once the earlier checks pass: a used region runs past
2^64 - 1; or an output region has an address in common with another used region and the two are not the in-place pair. -/
def Obligations.RangeAndOverlap : Prop :=
  ∀ (i : Instr) (s : State), busy s = false → failsContext i s = false → failsKey i s = false → failsMissing i s = false →
    failsMismatch i s = false → failsNonce i s = false → failsTag i s = false → failsOverflow i s = false →
    ∃ t, exec i s = .next t ∧
      (t.errCode = .addressRange ↔ ∃ u ∈ usedRegions i s, 0 < u.2.size ∧ 2 ^ 64 < u.2.base + u.2.size) ∧
      (t.errCode = .bufferOverlap ↔
        (∀ u ∈ usedRegions i s, u.2.size = 0 ∨ u.2.base + u.2.size ≤ 2 ^ 64) ∧
        ∃ o ∈ usedRegions i s, o.1 ∈ outputBufs i ∧ ∃ u ∈ usedRegions i s, u.1 ≠ o.1 ∧
          (∃ x, (o.2.base ≤ x ∧ x < o.2.base + o.2.size) ∧ u.2.base ≤ x ∧ x < u.2.base + u.2.size) ∧
          ¬(o.1 = .out ∧ u.1 = .inp ∧ (i = .enc ∨ i = .encc ∨ i = .dec ∨ i = .decc) ∧ addrOf s .out = addrOf s .inp))

/-- A command that fails validation changes only what acceptance and finish change: it finishes with the first failing check's code, and
memory, KEY, CTX and every working register are as before; MSGLEN and ERRADDR read 0 (40_context.md R82, R85). -/
def Obligations.FailedValidationHasNoEffect : Prop :=
  ∀ (i : Instr) (s : State) (e : ErrCode), busy s = false → workingZero s = true → i ≠ .release → validate i s = some e →
    ∃ t, exec i s = .next t ∧ FinishedWith e t ∧ t.mem = s.mem ∧ t.key = s.key ∧ t.ctx = s.ctx ∧ t.nl = s.nl ∧ t.cs = s.cs ∧
      t.ks = s.ks ∧ t.otk = s.otk ∧ t.etag = s.etag ∧ t.stag = s.stag ∧ t.diff = s.diff ∧ t.encK = s.encK ∧ t.jctr = s.jctr ∧
      t.msgLen = 0 ∧ t.errAddr = 0 ∧ t.lastCmd = (encode i).extractLsb' 0 4 ∧ SameSetup s t

/-- adlen, and an absent AD and a present AD of length 0 give the same result in every command, whatever address and length the AD
descriptor holds while it is absent (40_context.md R83). -/
def Obligations.AbsentAdIsEmptyAd : Prop :=
  (∀ s : State, adLen s = if isPresent s .ad = true then lenOf s .ad else 0) ∧
  ∀ (i : Instr) (s : State) (a : Addr), busy s = false → isPresent s .ad = false →
    let s' : State := { s with present := s.present ||| 0b000100#6, desc := setDesc s.desc .ad ⟨a, 0⟩ }
    ∃ t, exec i s = .next t ∧ exec i s' = .next { t with present := s'.present, desc := s'.desc }

/-! ## The context commands -/

/-- LOADKEY when every key byte can be read (40_context.md R96): KEY holds the 32 bytes, CTX is KEYED, no byte of memory changes, whatever
the context was before. -/
def Obligations.LoadkeyResult : Prop :=
  ∀ s : State, busy s = false → validate .loadkey s = none → Granted .loadkey s → HandedOver s →
    ∃ t, exec .loadkey s = .next t ∧ FinishedWith .ok t ∧
      (∀ k < 32, byteAt t.key k = memRead s.mem (addrAdd (addrOf s .key) k).toNat) ∧ t.ctx = .keyed ∧ t.mem = s.mem ∧
      t.msgLen = 0 ∧ t.errAddr = 0 ∧ t.lastCmd = 1 ∧ SameSetup s t

/-- LOADKEY when key byte j is the first that cannot be read (20_memory.md R54, 40_context.md R96): BusError, KEY = 0, CTX = EMPTY,
ERRADDR names the byte. -/
def Obligations.LoadkeyBusError : Prop :=
  ∀ (s : State) (j : Nat), busy s = false → validate .loadkey s = none → j < 32 →
    (∀ k < j, rdOk s (addrAdd (addrOf s .key) k) = true) → rdOk s (addrAdd (addrOf s .key) j) = false →
    ∃ t, exec .loadkey s = .next t ∧ FinishedWith .busError t ∧ t.key = .replicate 32 0 ∧ t.ctx = .empty ∧
      t.errAddr = addrAdd (addrOf s .key) j ∧ t.mem = s.mem ∧ t.msgLen = 0 ∧ t.lastCmd = 1 ∧ SameSetup s t

/-- RELEASE, in every context (40_context.md R97): KEY = 0, CTX = RELEASED, memory untouched, and STATUS reads 0x0000_6062 apart from
WIGN; while another command runs it is ignored. -/
def Obligations.ReleaseResult : Prop :=
  (∀ s : State, busy s = true → exec .release s = .next { s with wign := true }) ∧
  ∀ s : State, busy s = false →
    ∃ t, exec .release s = .next t ∧ FinishedWith .ok t ∧ t.key = .replicate 32 0 ∧ t.ctx = .released ∧ t.mem = s.mem ∧
      t.msgLen = 0 ∧ t.errAddr = 0 ∧ t.lastCmd = 6 ∧ SameSetup s t ∧
      portRead 0x00C 4 t = 0x00006062#32 ||| (if s.wign then 0x8#32 else 0#32)

/-- After RELEASE every ENC, ENCC, DEC and DECC fails ContextUnusable until a LOADKEY succeeds (40_context.md R86, R98): RELEASE leaves
KEY zero, SCRUBBED = 1 and CTX not KEYED; the four fail while CTX is not KEYED and change no memory, KEY or CTX; only a LOADKEY that
finishes OK makes CTX KEYED again. CAPS does not change. -/
def Obligations.AfterReleaseUnusable : Prop :=
  (∀ s t : State, busy s = false → exec .release s = .next t →
    t.ctx ≠ .keyed ∧ t.key = .replicate 32 0 ∧ (portRead 0x00C 4 t).getLsbD 6 = true) ∧
  (∀ (s : State) (i : Instr), busy s = false → s.ctx ≠ .keyed → i = .enc ∨ i = .encc ∨ i = .dec ∨ i = .decc →
    ∃ t, exec i s = .next t ∧ FinishedWith .contextUnusable t ∧ t.key = s.key ∧ t.ctx = s.ctx ∧ t.mem = s.mem) ∧
  (∀ (s t : State) (i : Instr), busy s = false → s.ctx ≠ .keyed → exec i s = .next t → t.ctx = .keyed →
    i = .loadkey ∧ t.errCode = .ok) ∧
  ∀ s : State, portRead 0x004 4 s = 0x40100C20#32

/-- The transitions of CTX (40_context.md R95): each command's, the reset's, and that no other host action changes it, whether a command
runs or not. -/
def Obligations.ContextTransitions : Prop :=
  (∀ s : State, busy s = false →
    (∃ t, exec .loadkey s = .next t ∧
      ((t.errCode = .ok ∧ t.ctx = .keyed) ∨ (t.errCode = .busError ∧ t.ctx = .empty) ∨
        ((t.errCode = .invalidKey ∨ t.errCode = .addressRange) ∧ t.ctx = s.ctx))) ∧
    (∃ t, exec .release s = .next t ∧ t.errCode = .ok ∧ t.ctx = .released) ∧
    (∀ i, i = .enc ∨ i = .encc ∨ i = .dec ∨ i = .decc →
      ∃ t, exec i s = .next t ∧ t.ctx = s.ctx ∧ (s.ctx ≠ .keyed → t.errCode = .contextUnusable)) ∧
    (∃ t, exec .tagin s = .next t ∧ t.ctx = s.ctx) ∧
    ∀ w, ∃ t, runIllegal w s = .next t ∧ t.ctx = s.ctx) ∧
  ∀ s : State, (deliver .reset s).ctx = .empty ∧ ∀ act, act ≠ .reset → (deliver act s).ctx = s.ctx

/-! ## Encrypt -/

/-- ENC (41_encrypt.md R102, R104, R105): OUT holds the text XORed with the keystream of counter 1 upward, TAG the Poly1305 tag, under
the one-time key of counter 0, of the tag-input message over AD and ciphertext; no other byte of memory changes. -/
def Obligations.EncResult : Prop :=
  ∀ s : State, busy s = false → validate .enc s = none → Granted .enc s → HandedOver s →
    ∃ t, exec .enc s = .next t ∧ FinishedWith .ok t ∧
      (∀ j < textLen .enc s, memRead t.mem (addrAdd (addrOf s .out) j).toNat =
        memRead s.mem (addrAdd (addrOf s .inp) j).toNat ^^^
          byteAt (Config.chachaBlock (Config.chachaInit s.key (BitVec.ofNat 32 (1 + j / 64)) (nonceOf s))) (j % 64)) ∧
      loadBytes 16 t.mem (addrOf s .tag) =
        Config.poly1305Tag (firstHalf (Config.chachaBlock (Config.chachaInit s.key 0 (nonceOf s))))
          (tagInput (adBytes s) (regionBytes t.mem (addrOf s .out) (textLen .enc s))) ∧
      (∀ x, OutsideWrites .enc s x → memRead t.mem x = memRead s.mem x) ∧ t.key = s.key ∧ t.ctx = .keyed ∧
      t.msgLen.toNat = messageLen (adLen s) (textLen .enc s) ∧ t.errAddr = 0 ∧ t.lastCmd = 2 ∧ SameSetup s t

/-- ENCC (41_encrypt.md R103, R104, R105): as ENC, with the tag in the 16 bytes of OUT after the ciphertext. -/
def Obligations.EnccResult : Prop :=
  ∀ s : State, busy s = false → validate .encc s = none → Granted .encc s → HandedOver s →
    ∃ t, exec .encc s = .next t ∧ FinishedWith .ok t ∧
      (∀ j < textLen .encc s, memRead t.mem (addrAdd (addrOf s .out) j).toNat =
        memRead s.mem (addrAdd (addrOf s .inp) j).toNat ^^^
          byteAt (Config.chachaBlock (Config.chachaInit s.key (BitVec.ofNat 32 (1 + j / 64)) (nonceOf s))) (j % 64)) ∧
      loadBytes 16 t.mem (addrAdd (addrOf s .out) (textLen .encc s)) =
        Config.poly1305Tag (firstHalf (Config.chachaBlock (Config.chachaInit s.key 0 (nonceOf s))))
          (tagInput (adBytes s) (regionBytes t.mem (addrOf s .out) (textLen .encc s))) ∧
      (∀ x, OutsideWrites .encc s x → memRead t.mem x = memRead s.mem x) ∧ t.key = s.key ∧ t.ctx = .keyed ∧
      t.msgLen.toNat = messageLen (adLen s) (textLen .encc s) ∧ t.errAddr = 0 ∧ t.lastCmd = 4 ∧ SameSetup s t

/-- A bus error in ENC or ENCC before the tag (41_encrypt.md R110). At a nonce read: nothing is written. At the read or the write of text
byte j: the first j bytes of OUT hold ciphertext. At the read of an AD byte or the read-back of a ciphertext byte in MacOver: OUT holds
the whole ciphertext. In each case no other byte of memory changes, the tag's among them, and ERRADDR names the failing byte. -/
def Obligations.EncryptBusErrorBeforeTag : Prop :=
  ∀ (i : Instr) (s : State), i = .enc ∨ i = .encc → busy s = false → validate i s = none →
    (∀ j < 12, (∀ k < j, rdOk s (addrAdd (addrOf s .nonce) k) = true) → rdOk s (addrAdd (addrOf s .nonce) j) = false →
      ∃ t, exec i s = .next t ∧ FinishedWith .busError t ∧ t.errAddr = addrAdd (addrOf s .nonce) j ∧ t.mem = s.mem ∧
        t.key = s.key ∧ t.ctx = s.ctx ∧ SameSetup s t) ∧
    (HandedOver s → Readable s (addrOf s .nonce) 12 →
      (∀ j < textLen i s, Readable s (addrOf s .inp) j → Writable s (addrOf s .out) j →
        (rdOk s (addrAdd (addrOf s .inp) j) = false ∨
          rdOk s (addrAdd (addrOf s .inp) j) = true ∧ wrOk s (addrAdd (addrOf s .out) j) = false) →
        ∃ t, exec i s = .next t ∧ FinishedWith .busError t ∧
          t.errAddr = (if rdOk s (addrAdd (addrOf s .inp) j) then addrAdd (addrOf s .out) j else addrAdd (addrOf s .inp) j) ∧
          regionBytes t.mem (addrOf s .out) j = (xorText s.key (nonceOf s) (textBytes i s)).take j ∧
          (∀ x, (∀ k < j, x ≠ (addrAdd (addrOf s .out) k).toNat) → memRead t.mem x = memRead s.mem x) ∧
          t.key = s.key ∧ t.ctx = s.ctx ∧ SameSetup s t) ∧
      ∀ k f, Readable s (addrOf s .inp) (textLen i s) → Writable s (addrOf s .out) (textLen i s) →
        (∀ k' < k, ∀ x, encryptSource i s k' = some x → rdOk s x = true) → encryptSource i s k = some f → rdOk s f = false →
        ∃ t, exec i s = .next t ∧ FinishedWith .busError t ∧ t.errAddr = f ∧
          regionBytes t.mem (addrOf s .out) (textLen i s) = xorText s.key (nonceOf s) (textBytes i s) ∧
          (∀ x, (∀ j < textLen i s, x ≠ (addrAdd (addrOf s .out) j).toNat) → memRead t.mem x = memRead s.mem x) ∧
          t.key = s.key ∧ t.ctx = s.ctx ∧ SameSetup s t)

/-- A bus error at the write of tag byte j of ENC or ENCC (41_encrypt.md R110): OUT holds the ciphertext, the first j bytes of the tag are
written, and no other byte of memory changes. -/
def Obligations.EncryptBusErrorInTag : Prop :=
  ∀ (i : Instr) (s : State) (j : Nat), i = .enc ∨ i = .encc → busy s = false → validate i s = none → HandedOver s →
    (∀ r ∈ readsOf i s, Readable s r.1 r.2) → Writable s (addrOf s .out) (textLen i s) → j < 16 →
    Writable s (tagOutAddr i s) j → wrOk s (addrAdd (tagOutAddr i s) j) = false →
    ∃ t, exec i s = .next t ∧ FinishedWith .busError t ∧ t.errAddr = addrAdd (tagOutAddr i s) j ∧
      regionBytes t.mem (addrOf s .out) (textLen i s) = xorText s.key (nonceOf s) (textBytes i s) ∧
      (∀ k < j, memRead t.mem (addrAdd (tagOutAddr i s) k).toNat =
        byteAt (tagFor s.key (nonceOf s) (adBytes s) (xorText s.key (nonceOf s) (textBytes i s))) k) ∧
      (∀ x, (∀ k < textLen i s, x ≠ (addrAdd (addrOf s .out) k).toNat) →
        (∀ k < j, x ≠ (addrAdd (tagOutAddr i s) k).toNat) → memRead t.mem x = memRead s.mem x) ∧
      t.key = s.key ∧ t.ctx = s.ctx ∧ SameSetup s t

/-- JCTR in the cipher commands (41_encrypt.md R106): XorPass writes 1, 2, ..., ceil(n/64) and then 0, and once validation has passed no
counter exceeds 2^32 - 1; a text longer than MAX_TEXT fails the check LengthOverflow. -/
def Obligations.CounterNeverWraps : Prop :=
  ∀ (i : Instr) (s : State), i = .enc ∨ i = .encc ∨ i = .dec ∨ i = .decc →
    (validate i s = none →
      blocksOf (textLen i s) ≤ 2 ^ 32 - 1 ∧
      (counterValues (xorPass (addrOf s .inp) (addrOf s .out) (textLen i s))).map BitVec.toNat =
        (List.range (blocksOf (textLen i s))).map (fun j => 1 + j) ++ [0]) ∧
    ((2 ^ 32 - 1) * 64 < textLen i s → failsOverflow i s = true ∧ validate i s ≠ none)

/-! ## The Tag-Input Builder -/

/-- The tag-input message and its numbers (42_tag_input.md R111 to R114): padlen(L) = (16 - L mod 16) mod 16 is in 0 to 15, 0 exactly when 16 divides L, and
L + padlen(L) is the least multiple of 16 that is at least L; LE64(v) has 8 bytes, byte i being floor(v / 2^(8·i)) mod 256, and
determines v; the message length is a multiple of 16, at least 16, and 16 times ceil(a/16) + ceil(c/16) + 1; the message is AD, zeros
to a multiple of 16, ciphertext, zeros to a multiple of 16, and the two length fields, and its length is the message length. -/
def Obligations.TagInputMessage : Prop :=
  (∀ l : Nat, padLen l = (16 - l % 16) % 16 ∧ padLen l ≤ 15 ∧ (padLen l = 0 ↔ l % 16 = 0) ∧ (l + padLen l) % 16 = 0 ∧
    ∀ m, m % 16 = 0 → l ≤ m → l + padLen l ≤ m) ∧
  (∀ v : Nat, v < 2 ^ 64 → (le64 v).length = 8 ∧
    (∀ i < 8, ((le64 v)[i]?.getD 0).toNat = v / 2 ^ (8 * i) % 256) ∧
    ((List.range 8).map fun i => ((le64 v)[i]?.getD 0).toNat * 2 ^ (8 * i)).sum = v) ∧
  (∀ a c : Nat, messageLen a c = a + padLen a + c + padLen c + 16 ∧ messageLen a c % 16 = 0 ∧ 16 ≤ messageLen a c ∧
    messageLen a c / 16 = (a + 15) / 16 + (c + 15) / 16 + 1) ∧
  ∀ x y : List Byte,
    tagInput x y = x ++ List.replicate (padLen x.length) 0 ++ y ++ List.replicate (padLen y.length) 0 ++ le64 x.length ++
      le64 y.length ∧
    (tagInput x y).length = messageLen x.length y.length

/-- The encoder (42_tag_input.md R114, R115, R116): the sequence Emit(0), ..., Emit(MsgLen - 1) is the tag-input message over the AD and
ciphertext in memory, and that message is MsgLen bytes long. -/
def Obligations.EmitIsTagInput : Prop :=
  ∀ (s : State) (a c : Nat) (x y : Addr), Readable s x a → Readable s y c → s.blockStale = [] →
    (tagInput (regionBytes s.mem x a) (regionBytes s.mem y c)).length = messageLen a c ∧
    ∀ k < messageLen a c, ∃ t, performAll (emit k a x c y).1 s = .ok t ∧ t.mem = s.mem ∧
      (tagInput (regionBytes s.mem x a) (regionBytes s.mem y c))[k]? = some (valOf t (emit k a x c y).2)

/-- MacOver (42_tag_input.md R117, R118): ETAG holds the tag, under OTK, of the tag-input message; OTK and ENC_K are 0; memory, KEY and NL
are as before. -/
def Obligations.MacOverTag : Prop :=
  ∀ (s : State) (a c : Nat) (x y : Addr), Readable s x a → Readable s y c → s.blockStale = [] →
    ∃ t, performAll (macOver a x c y) s = .ok t ∧
      t.etag = Config.poly1305Tag s.otk (tagInput (regionBytes s.mem x a) (regionBytes s.mem y c)) ∧
      t.otk = .replicate 32 0 ∧ t.encK = 0 ∧ t.mem = s.mem ∧ t.key = s.key ∧ t.nl = s.nl

/-- TAGIN (42_tag_input.md R121), in every context: OUT holds the tag-input message over AD and IN; or, when message byte k is the first
whose read or write fails, its first k bytes, with ERRADDR the failing byte. No other byte of memory changes, and KEY and CTX are as
before. -/
def Obligations.TaginResult : Prop :=
  ∀ s : State, busy s = false → validate .tagin s = none → HandedOver s →
    (Granted .tagin s →
      ∃ t, exec .tagin s = .next t ∧ FinishedWith .ok t ∧
        regionBytes t.mem (addrOf s .out) (messageLen (adLen s) (lenOf s .inp)) = tagInput (adBytes s) (textBytes .tagin s) ∧
        (∀ x, OutsideWrites .tagin s x → memRead t.mem x = memRead s.mem x) ∧ t.key = s.key ∧ t.ctx = s.ctx ∧
        t.msgLen.toNat = messageLen (adLen s) (lenOf s .inp) ∧ t.errAddr = 0 ∧ t.lastCmd = 7 ∧ SameSetup s t) ∧
    ∀ k f, k < messageLen (adLen s) (lenOf s .inp) →
      (∀ k' < k, ∀ x, taginSource s k' = some x → rdOk s x = true ∧ ordinary s x = true) → Writable s (addrOf s .out) k →
      (taginSource s k = some f ∧ rdOk s f = false ∨
        (∀ x, taginSource s k = some x → rdOk s x = true) ∧ f = addrAdd (addrOf s .out) k ∧ wrOk s f = false) →
      ∃ t, exec .tagin s = .next t ∧ FinishedWith .busError t ∧ t.errAddr = f ∧
        regionBytes t.mem (addrOf s .out) k = (tagInput (adBytes s) (textBytes .tagin s)).take k ∧
        (∀ x, (∀ k' < k, x ≠ (addrAdd (addrOf s .out) k').toNat) → memRead t.mem x = memRead s.mem x) ∧
        t.key = s.key ∧ t.ctx = s.ctx ∧ t.msgLen.toNat = messageLen (adLen s) (lenOf s .inp) ∧ t.lastCmd = 7 ∧ SameSetup s t

/-! ## Decrypt -/

/-- The comparator (43_decrypt.md R126): ok is 1 exactly when the 16 bytes are equal, DIFF, ETAG and STAG are 0 afterwards, and the 16
combine steps are always made. -/
def Obligations.Comparator : Prop :=
  (∀ s : State, ∃ t, performAll ctEqual s = .ok t ∧
    (t.okBit = true ↔ ∀ i < 16, byteAt s.etag i = byteAt s.stag i) ∧ t.diff = 0 ∧ t.etag = .replicate 16 0 ∧
    t.stag = .replicate 16 0 ∧ t.mem = s.mem ∧ t.key = s.key) ∧
  ctEqual.filter (fun a => match a with | .reg (.diffStep _) => true | .reg _ => false | .rd _ => false | .wr _ _ => false) =
    (List.range 16).map fun i => Act.reg (.diffStep i)

/-- DEC and DECC when the supplied tag is the computed one (43_decrypt.md R127, R128, R130): they finish OK and OUT holds the received
ciphertext XORed with the keystream; no other byte of memory changes. -/
def Obligations.DecryptAccepts : Prop :=
  ∀ (i : Instr) (s : State), i = .dec ∨ i = .decc → busy s = false → validate i s = none → Granted i s → HandedOver s →
    suppliedTag i s = computedTag i s →
    ∃ t, exec i s = .next t ∧ FinishedWith .ok t ∧
      regionBytes t.mem (addrOf s .out) (textLen i s) = xorText s.key (nonceOf s) (textBytes i s) ∧
      (∀ x, OutsideWrites i s x → memRead t.mem x = memRead s.mem x) ∧ t.key = s.key ∧ t.ctx = .keyed ∧
      t.msgLen.toNat = messageLen (adLen s) (textLen i s) ∧ t.errAddr = 0 ∧ t.lastCmd = (if i = .dec then 3 else 5) ∧
      SameSetup s t

/-- DEC and DECC when the supplied tag is not the computed one (43_decrypt.md R127 to R130): they finish TagMismatch and OUT holds n zero
bytes, also in place; no other byte of memory changes. The zero-fill is n writes of 0 in increasing address order. -/
def Obligations.DecryptRejects : Prop :=
  (∀ (i : Instr) (s : State), s.okBit = false →
    ((verdictTrace i s).filterMap fun e => match e with
      | .act (.wr a v) => some (a, v)
      | .act (.rd _) | .act (.reg _) | .validate _ | .branch _ | .finish _ => none) =
      (List.range (textLen i s)).map fun k => (addrAdd (addrOf s .out) k, Val.lit 0)) ∧
  ∀ (i : Instr) (s : State), i = .dec ∨ i = .decc → busy s = false → validate i s = none → Granted i s → HandedOver s →
    suppliedTag i s ≠ computedTag i s →
    ∃ t, exec i s = .next t ∧ FinishedWith .tagMismatch t ∧
      regionBytes t.mem (addrOf s .out) (textLen i s) = List.replicate (textLen i s) 0 ∧
      (∀ x, OutsideWrites i s x → memRead t.mem x = memRead s.mem x) ∧ t.key = s.key ∧ t.ctx = .keyed ∧
      t.msgLen.toNat = messageLen (adLen s) (textLen i s) ∧ t.errAddr = 0 ∧ t.lastCmd = (if i = .dec then 3 else 5) ∧
      SameSetup s t

/-- Round trip (43_decrypt.md R136): what ENC or ENCC made of a text, DEC or DECC with the same key, nonce and AD restores, and it
finishes OK. -/
def Obligations.RoundTrip : Prop :=
  (∀ s t u : State, busy s = false → validate .enc s = none → Granted .enc s → HandedOver s → exec .enc s = .next t →
    busy u = false → validate .dec u = none → Granted .dec u → HandedOver u → u.key = s.key → nonceOf u = nonceOf s →
    adBytes u = adBytes s → textBytes .dec u = regionBytes t.mem (addrOf s .out) (textLen .enc s) →
    suppliedTag .dec u = loadBytes 16 t.mem (addrOf s .tag) →
    ∃ v, exec .dec u = .next v ∧ FinishedWith .ok v ∧
      regionBytes v.mem (addrOf u .out) (textLen .dec u) = textBytes .enc s) ∧
  ∀ s t u : State, busy s = false → validate .encc s = none → Granted .encc s → HandedOver s → exec .encc s = .next t →
    busy u = false → validate .decc u = none → Granted .decc u → HandedOver u → u.key = s.key → nonceOf u = nonceOf s →
    adBytes u = adBytes s → textBytes .decc u = regionBytes t.mem (addrOf s .out) (textLen .encc s) →
    suppliedTag .decc u = loadBytes 16 t.mem (addrAdd (addrOf s .out) (textLen .encc s)) →
    ∃ v, exec .decc u = .next v ∧ FinishedWith .ok v ∧
      regionBytes v.mem (addrOf u .out) (textLen .decc u) = textBytes .encc s

/-- A bus error in DEC or DECC (43_decrypt.md R135): when some byte they must read cannot be read, they finish BusError and no byte of
memory has changed; when OUT byte j is the first that cannot be written, its first j bytes hold verified plaintext if the tag matched
and zeros if not, and no other byte of memory has changed. -/
def Obligations.DecryptBusError : Prop :=
  ∀ (i : Instr) (s : State), i = .dec ∨ i = .decc → busy s = false → validate i s = none →
    ((∃ r ∈ readsOf i s, ∃ k < r.2, rdOk s (addrAdd r.1 k) = false) →
      ∃ t, exec i s = .next t ∧ FinishedWith .busError t ∧ t.mem = s.mem ∧ rdOk s t.errAddr = false ∧ t.key = s.key ∧
        t.ctx = s.ctx ∧ SameSetup s t) ∧
    ∀ j, HandedOver s → (∀ r ∈ readsOf i s, Readable s r.1 r.2) → j < textLen i s → Writable s (addrOf s .out) j →
      wrOk s (addrAdd (addrOf s .out) j) = false →
      ∃ t, exec i s = .next t ∧ FinishedWith .busError t ∧ t.errAddr = addrAdd (addrOf s .out) j ∧
        regionBytes t.mem (addrOf s .out) j =
          (if suppliedTag i s = computedTag i s then (xorText s.key (nonceOf s) (textBytes i s)).take j
           else List.replicate j 0) ∧
        (∀ x, (∀ k < j, x ≠ (addrAdd (addrOf s .out) k).toNat) → memRead t.mem x = memRead s.mem x) ∧ t.key = s.key ∧
        t.ctx = s.ctx ∧ SameSetup s t

/-- No keystream byte before verification (43_decrypt.md R131): DEC and DECC store nothing before the choice on ok, and on the reject
branch they store only zeros. -/
def Obligations.NoKeystreamBeforeVerdict : Prop :=
  ∀ (i : Instr) (s : State), i = .dec ∨ i = .decc →
    (∀ a v, Elem.act (.wr a v) ∉ startTrace (some i)) ∧
    (∀ a v, Elem.act (.wr a v) ∉ bodyTrace i s) ∧
    (s.okBit = false → ∀ a v, Elem.act (.wr a v) ∈ verdictTrace i s → v = .lit 0)

/-- The trace is independent of the data (43_decrypt.md R133, 70_reset_and_hazards.md R175): two runs of one command word that start
with the same descriptors, PRESENT and CTX, on platforms that grant the same accesses, stand at the same point of the same trace after
every number of elements, as long as they agree on the bit ok; KEY, memory and every other register may differ. The rest of a trace names
each DMA access, primitive call and register write to come, and where a stored byte comes from, not its value. -/
def Obligations.TraceIndependentOfData : Prop :=
  ∀ (w : Word) (s t : State), s.desc = t.desc → s.present = t.present → s.ctx = t.ctx → s.rdFail = t.rdFail →
    s.wrFail = t.wrFail → ∀ (n : Nat) (s' t' : State),
      seqRun n (acceptWord w s) = .next s' → seqRun n (acceptWord w t) = .next t' →
      (∀ m < n, ∀ u v, seqRun m (acceptWord w s) = .next u → seqRun m (acceptWord w t) = .next v → u.okBit = v.okBit) →
      s'.seq = t'.seq

/-! ## All commands -/

/-- The codes each command can finish with (60_exceptions.md R138), and that every command finishes with exactly one
(60_exceptions.md R139, 70_reset_and_hazards.md R163). -/
def Obligations.CodesOfCommands : Prop :=
  ∀ (i : Instr) (s : State), busy s = false →
    (∃ t, exec i s = .next t ∧ FinishedWith t.errCode t ∧
      t.errCode ∈ (match i with
        | .loadkey => [ErrCode.ok, .invalidKey, .addressRange, .busError]
        | .enc => [.ok, .missingArgument, .lengthMismatch, .invalidNonceLength, .invalidTagLength, .lengthOverflow,
            .contextUnusable, .addressRange, .bufferOverlap, .busError]
        | .encc => [.ok, .missingArgument, .lengthMismatch, .invalidNonceLength, .lengthOverflow, .contextUnusable,
            .addressRange, .bufferOverlap, .busError]
        | .dec => [.ok, .missingArgument, .lengthMismatch, .invalidNonceLength, .invalidTagLength, .tagMismatch,
            .lengthOverflow, .contextUnusable, .addressRange, .bufferOverlap, .busError]
        | .decc => [.ok, .missingArgument, .lengthMismatch, .invalidNonceLength, .invalidTagLength, .tagMismatch,
            .lengthOverflow, .contextUnusable, .addressRange, .bufferOverlap, .busError]
        | .release => [.ok]
        | .tagin => [.ok, .missingArgument, .lengthMismatch, .lengthOverflow, .addressRange, .bufferOverlap, .busError])) ∧
    ∀ w, ∃ t, runIllegal w s = .next t ∧ FinishedWith .illegalCommand t

/-- What a finished command records for the host (60_exceptions.md R143; 10_state.md R20, R25; 42_tag_input.md R124): ERRCODE, LASTCMD,
ERRADDR and MSGLEN, which their register pairs read. ERRADDR is, for BusError, a byte of a region the command reads or writes whose access the platform does not grant,
and 0 for every other code. MSGLEN is the message length if validation passed in a command that uses the Tag-Input Builder, whatever
code it then finished with, and 0 otherwise. -/
def Obligations.FinishRecords : Prop :=
  ∀ (i : Instr) (s : State), busy s = false →
    ∃ t, exec i s = .next t ∧
      (portRead 0x00C 4 t).extractLsb' 8 4 = codeOf t.errCode ∧
      (portRead 0x00C 4 t).extractLsb' 12 4 = (encode i).extractLsb' 0 4 ∧
      (portRead 0x02C 4 t).toNat * 2 ^ 32 + (portRead 0x028 4 t).toNat = t.errAddr.toNat ∧
      (portRead 0x024 4 t).toNat * 2 ^ 32 + (portRead 0x020 4 t).toNat = t.msgLen.toNat ∧
      (t.errCode ≠ .busError → t.errAddr = 0) ∧
      (t.errCode = .busError →
        (∃ r ∈ readsOf i s, ∃ k < r.2, t.errAddr = addrAdd r.1 k ∧ rdOk s t.errAddr = false) ∨
        ∃ w ∈ writesOf i s, ∃ k < w.2, t.errAddr = addrAdd w.1 k ∧ wrOk s t.errAddr = false) ∧
      t.msgLen.toNat =
        if i ≠ .loadkey ∧ i ≠ .release ∧ validate i s = none then messageLen (adLen s) (textLen i s) else 0

/-- What every command leaves of memory, with whatever code it finishes (30_encoding.md R76, 41_encrypt.md R105): every byte outside the
regions the operand table says it writes. -/
def Obligations.MemoryFrame : Prop :=
  ∀ (i : Instr) (s t : State), exec i s = .next t → ∀ x, OutsideWrites i s x → memRead t.mem x = memRead s.mem x

/-- What every command leaves of the registers, with whatever code it finishes: the descriptors, PRESENT, IRQ_EN and WIGN; and KEY and
CTX in every command but LOADKEY and RELEASE (40_context.md R95, 60_exceptions.md R141). -/
def Obligations.RegisterFrame : Prop :=
  ∀ (i : Instr) (s : State), busy s = false →
    ∃ t, exec i s = .next t ∧ SameSetup s t ∧ t.lastCmd = (encode i).extractLsb' 0 4 ∧
      (i ≠ .loadkey → i ≠ .release → t.key = s.key ∧ t.ctx = s.ctx)

/-- The length of each command's trace (70_reset_and_hazards.md R163): its DMA reads, DMA writes, ChaChaInit calls and MacByte calls. -/
def Obligations.TraceCounts : Prop :=
  ∀ s : State,
    let counts := fun l => (readCount l, writeCount l, initCount l, macByteCount l)
    let a := adLen s
    counts (loadkeyActs s) = (32, 0, 0, 0) ∧
    counts (encActs s) = (12 + 2 * textLen .enc s + a, textLen .enc s + 16, blocksOf (textLen .enc s) + 1,
      messageLen a (textLen .enc s)) ∧
    counts (enccActs s) = (12 + 2 * textLen .encc s + a, textLen .encc s + 16, blocksOf (textLen .encc s) + 1,
      messageLen a (textLen .encc s)) ∧
    counts (decVerifyActs s ++ acceptActs .dec s) = (12 + a + 2 * textLen .dec s + 16, textLen .dec s,
      blocksOf (textLen .dec s) + 1, messageLen a (textLen .dec s)) ∧
    counts (decVerifyActs s ++ rejectActs .dec s) = (12 + a + textLen .dec s + 16, textLen .dec s, 1,
      messageLen a (textLen .dec s)) ∧
    counts (deccVerifyActs s ++ acceptActs .decc s) = (12 + a + 2 * textLen .decc s + 16, textLen .decc s,
      blocksOf (textLen .decc s) + 1, messageLen a (textLen .decc s)) ∧
    counts (deccVerifyActs s ++ rejectActs .decc s) = (12 + a + textLen .decc s + 16, textLen .decc s, 1,
      messageLen a (textLen .decc s)) ∧
    counts (taginActs s) = (a + textLen .tagin s, messageLen a (textLen .tagin s), 0, 0) ∧
    counts releaseActs = (0, 0, 0, 0)

/-- No register read after a command other than DEC and DECC carries the key or the data (10_state.md R32, 30_encoding.md R80,
60_exceptions.md R145): in two idle states that agree on what hosts can see and on which accesses the platform grants, such a command
leaves every register of the window reading the same, whatever KEY and memory hold. -/
def Obligations.RegistersHideSecrets : Prop :=
  ∀ (i : Instr) (s₁ s₂ : State), i ≠ .dec → i ≠ .decc → Inv s₁ → Inv s₂ → busy s₁ = false → busy s₂ = false →
    s₁.wign = s₂.wign → s₁.ctx = s₂.ctx → s₁.doneIe = s₂.doneIe → s₁.present = s₂.present → s₁.desc = s₂.desc →
    s₁.rdFail = s₂.rdFail → s₁.wrFail = s₂.wrFail →
    ∃ t₁ t₂, exec i s₁ = .next t₁ ∧ exec i s₂ = .next t₂ ∧ ∀ off bytes, portRead off bytes t₁ = portRead off bytes t₂

/-- Through the register window DEC and DECC show hosts one bit of the data, the verdict, where every access they make is granted
(43_decrypt.md R133, 70_reset_and_hazards.md R175): in two idle states that agree on what the window shows and on which accesses the
platform grants, and in which the tag matches in both or in neither, every register reads the same afterwards. What hosts read in
OUT, and runs that end in BusError, are not spoken of. -/
def Obligations.DecryptWindowShowsOnlyVerdict : Prop :=
  ∀ (i : Instr) (s₁ s₂ : State), i = .dec ∨ i = .decc → Inv s₁ → Inv s₂ → busy s₁ = false → busy s₂ = false →
    s₁.wign = s₂.wign → s₁.ctx = s₂.ctx → s₁.doneIe = s₂.doneIe → s₁.present = s₂.present → s₁.desc = s₂.desc →
    s₁.rdFail = s₂.rdFail → s₁.wrFail = s₂.wrFail → Granted i s₁ → Granted i s₂ → HandedOver s₁ → HandedOver s₂ →
    (suppliedTag i s₁ = computedTag i s₁ ↔ suppliedTag i s₂ = computedTag i s₂) →
    ∃ t₁ t₂, exec i s₁ = .next t₁ ∧ exec i s₂ = .next t₂ ∧ ∀ off bytes, portRead off bytes t₁ = portRead off bytes t₂
end

