-- ==== Sys2Proof/Laws/Memory.lean ====
section
/-! SUPPORT. Data memory: read after write, the canonical form, and blocks of consecutive bytes (20_memory.md R52, R53, R64). -/

namespace Sys2Proof.Machine

@[simp] theorem memRead_nil (a : Nat) : memRead [] a = memDefault := rfl

theorem memRead_erase_same (m : List Host.Cell) (a : Nat) : memRead (memErase m a) a = memDefault := by
  induction m with
  | nil => rfl
  | cons c t ih =>
    obtain ⟨k, v⟩ := c
    by_cases h : k = a
    · simpa [memErase, h] using ih
    · simpa [memErase, h, memRead] using ih

theorem memRead_erase_other (m : List Host.Cell) {a x : Nat} (h : x ≠ a) :
    memRead (memErase m a) x = memRead m x := by
  induction m with
  | nil => rfl
  | cons c t ih =>
    obtain ⟨k, v⟩ := c
    by_cases hk : k = a
    · subst hk
      simpa [memErase, memRead, Ne.symm h] using ih
    · by_cases hx : k = x
      · subst hx
        simp [memErase, memRead, hk]
      · simpa [memErase, memRead, hk, hx] using ih

theorem memRead_insert_same (m : List Host.Cell) (a : Nat) (b : Byte) (h : ∀ c ∈ m, c.1 ≠ a) :
    memRead (memInsert m a b) a = b := by
  induction m with
  | nil => simp [memInsert, memRead]
  | cons c t ih =>
    obtain ⟨k, v⟩ := c
    have hk : k ≠ a := h (k, v) (by simp)
    by_cases hlt : a < k
    · simp [memInsert, memRead, hlt]
    · simpa [memInsert, memRead, hlt, hk] using ih fun c hc => h c (by simp [hc])

theorem memRead_insert_other (m : List Host.Cell) {a x : Nat} (b : Byte) (h : x ≠ a) :
    memRead (memInsert m a b) x = memRead m x := by
  induction m with
  | nil => simp [memInsert, memRead, Ne.symm h]
  | cons c t ih =>
    obtain ⟨k, v⟩ := c
    by_cases hlt : a < k
    · simp [memInsert, memRead, hlt, Ne.symm h]
    · by_cases hx : k = x
      · subst hx
        simp [memInsert, memRead, hlt]
      · simpa [memInsert, memRead, hlt, hx] using ih

theorem ne_of_mem_erase {m : List Host.Cell} {a : Nat} {c : Host.Cell} (h : c ∈ memErase m a) : c.1 ≠ a := by
  simpa using (List.mem_filter.mp h).2

/-- A read of the byte just written gives the value written (20_memory.md R64), whatever list the memory is. -/
@[simp] theorem memRead_write_same (m : List Host.Cell) (a : Nat) (b : Byte) : memRead (memWrite m a b) a = b := by
  unfold memWrite
  split
  · next h => rw [memRead_erase_same, h]
  · exact memRead_insert_same _ _ _ fun c hc => ne_of_mem_erase hc

/-- A write leaves every other byte alone (20_memory.md R53), whatever list the memory is. -/
theorem memRead_write_other (m : List Host.Cell) {a x : Nat} (b : Byte) (h : x ≠ a) :
    memRead (memWrite m a b) x = memRead m x := by
  unfold memWrite
  split
  · exact memRead_erase_other m h
  · rw [memRead_insert_other _ _ h, memRead_erase_other m h]

theorem memErase_wf {m : List Host.Cell} (h : Memory.wf m) (a : Nat) : Memory.wf (memErase m a) :=
  ⟨h.1.filter _, fun c hc => h.2 c (List.mem_of_mem_filter hc)⟩

theorem mem_insert {m : List Host.Cell} {a : Nat} {b : Byte} {c : Host.Cell} (h : c ∈ memInsert m a b) :
    c = (a, b) ∨ c ∈ m := by
  induction m with
  | nil => simpa [memInsert] using h
  | cons d t ih =>
    obtain ⟨k, v⟩ := d
    by_cases hlt : a < k
    · simpa [memInsert, hlt] using h
    · rw [memInsert, if_neg hlt, List.mem_cons] at h
      rcases h with h | h
      · simp [h]
      · rcases ih h with h | h <;> simp [h]

theorem memInsert_wf {m : List Host.Cell} (h : Memory.wf m) {a : Nat} {b : Byte} (ha : a < 2 ^ 64)
    (hb : b ≠ memDefault) (hne : ∀ c ∈ m, c.1 ≠ a) : Memory.wf (memInsert m a b) := by
  refine ⟨?_, fun c hc => ?_⟩
  · induction m with
    | nil => simp [memInsert]
    | cons d t ih =>
      obtain ⟨k, v⟩ := d
      have ht : Memory.wf t := ⟨(List.pairwise_cons.mp h.1).2, fun c hc => h.2 c (by simp [hc])⟩
      have hrise := (List.pairwise_cons.mp h.1).1
      have hk : k ≠ a := hne (k, v) (by simp)
      by_cases hlt : a < k
      · rw [memInsert, if_pos hlt, List.pairwise_cons]
        refine ⟨fun c hc => ?_, h.1⟩
        rcases List.mem_cons.mp hc with rfl | hc
        · exact hlt
        · exact lt_trans hlt (hrise c hc)
      · rw [memInsert, if_neg hlt, List.pairwise_cons]
        refine ⟨fun c hc => ?_, ih ht fun c hc => hne c (by simp [hc])⟩
        rcases mem_insert hc with rfl | hc
        · show k < a; omega
        · exact hrise c hc
  · rcases mem_insert hc with rfl | hc
    · exact ⟨hb, ha⟩
    · exact h.2 c hc

/-- Every write keeps the canonical form. -/
theorem memWrite_wf {m : List Host.Cell} (h : Memory.wf m) {a : Nat} (ha : a < 2 ^ 64) (b : Byte) :
    Memory.wf (memWrite m a b) := by
  unfold memWrite
  split
  · exact memErase_wf h a
  · next hb => exact memInsert_wf (memErase_wf h a) ha hb fun c hc => ne_of_mem_erase hc

theorem reset_mem_wf : Memory.wf State.reset.mem :=
  ⟨List.Pairwise.nil, fun _ hc => absurd hc List.not_mem_nil⟩

@[simp] theorem staleAt_nil (a : Addr) : staleAt [] a = [] := rfl

@[simp] theorem memErase_nil (a : Nat) : memErase [] a = [] := rfl

@[simp] theorem pick_nil (cur : Byte) (n : Nat) : pick cur [] n = cur := rfl

@[simp] theorem pickDraws_nil : pickDraws [] = 0 := rfl

/-! ## Consecutive bytes -/

/-- Memory with bytes f 0, ..., f (n-1) written at base, base+1, ... in this order. -/
def writeBytes (m : List Host.Cell) (base : Addr) (n : Nat) (f : Nat → Byte) : List Host.Cell :=
  (List.range n).foldl (fun m k => memWrite m (addrAdd base k).toNat (f k)) m

@[simp] theorem writeBytes_zero (m : List Host.Cell) (base : Addr) (f : Nat → Byte) : writeBytes m base 0 f = m := rfl

theorem writeBytes_succ (m : List Host.Cell) (base : Addr) (n : Nat) (f : Nat → Byte) :
    writeBytes m base (n + 1) f = memWrite (writeBytes m base n f) (addrAdd base n).toNat (f n) := by
  simp [writeBytes, List.range_succ, List.foldl_append]

@[simp] theorem addrAdd_zero (a : Addr) : addrAdd a 0 = a := by simp [addrAdd]

/-- Byte k of a region that does not pass 2^64 is at address + k (20_memory.md R49(a), R56). -/
theorem addrAdd_toNat {a : Addr} {k : Nat} (h : a.toNat + k < 2 ^ 64) : (addrAdd a k).toNat = a.toNat + k := by
  simp only [addrAdd, BitVec.toNat_add, BitVec.toNat_ofNat]
  omega

theorem addrAdd_addrAdd (a : Addr) (j k : Nat) : addrAdd (addrAdd a j) k = addrAdd a (j + k) := by
  simp only [addrAdd, BitVec.ofNat_add, BitVec.add_assoc]

/-- What a block of written bytes reads as, and that nothing else changed. -/
theorem memRead_writeBytes {m : List Host.Cell} {base : Addr} {n : Nat} (f : Nat → Byte) (h : base.toNat + n ≤ 2 ^ 64) (x : Nat) :
    memRead (writeBytes m base n f) x = if base.toNat ≤ x ∧ x < base.toNat + n then f (x - base.toNat) else memRead m x := by
  induction n with
  | zero => rw [writeBytes_zero, if_neg (by omega)]
  | succ n ih =>
    rw [writeBytes_succ, addrAdd_toNat (by omega)]
    by_cases hx : x = base.toNat + n
    · subst hx
      simp
    · rw [memRead_write_other _ _ hx, ih (by omega)]
      have : (base.toNat ≤ x ∧ x < base.toNat + (n + 1)) ↔ (base.toNat ≤ x ∧ x < base.toNat + n) := by omega
      simp only [this]

/-- Bytes outside the written addresses are as before, also for a block that wraps. -/
theorem memRead_writeBytes_other {m : List Host.Cell} {base : Addr} {n : Nat} (f : Nat → Byte) {x : Nat}
    (h : ∀ k < n, x ≠ (addrAdd base k).toNat) : memRead (writeBytes m base n f) x = memRead m x := by
  induction n with
  | zero => rfl
  | succ n ih =>
    rw [writeBytes_succ, memRead_write_other _ _ (h n (by omega)), ih fun k hk => h k (by omega)]

theorem memRead_writeBytes_at {m : List Host.Cell} {base : Addr} {n k : Nat} (f : Nat → Byte) (h : base.toNat + n ≤ 2 ^ 64)
    (hk : k < n) : memRead (writeBytes m base n f) (addrAdd base k).toNat = f k := by
  rw [memRead_writeBytes f h, addrAdd_toNat (by omega), if_pos (by omega), Nat.add_sub_cancel_left]

theorem writeBytes_wf {m : List Host.Cell} (h : Memory.wf m) (base : Addr) (n : Nat) (f : Nat → Byte) :
    Memory.wf (writeBytes m base n f) := by
  induction n with
  | zero => exact h
  | succ n ih => rw [writeBytes_succ]; exact memWrite_wf ih (addrAdd base n).isLt _

/-- Two blocks written one after the other. -/
theorem writeBytes_append (m : List Host.Cell) (base : Addr) (p q : Nat) (f : Nat → Byte) :
    writeBytes (writeBytes m base p f) (addrAdd base p) q (fun i => f (p + i)) = writeBytes m base (p + q) f := by
  induction q with
  | zero => rfl
  | succ q ih => rw [writeBytes_succ, ih, addrAdd_addrAdd, ← writeBytes_succ, Nat.add_assoc]

theorem writeBytes_congr {m : List Host.Cell} {base : Addr} {n : Nat} {f g : Nat → Byte} (h : ∀ k < n, f k = g k) :
    writeBytes m base n f = writeBytes m base n g := by
  induction n with
  | zero => rfl
  | succ n ih => rw [writeBytes_succ, writeBytes_succ, ih fun k hk => h k (by omega), h n (by omega)]

end Sys2Proof.Machine
end

