-- ==== Sys2Proof/Laws/State.lean ====
section
/-! SUPPORT. One lemma per field for each shared update of the state: acceptance, Scrub, finish, conclude, a refused write, and a bus
error. Each is true by unfolding, so that no later proof unfolds a record update. -/

namespace Sys2Proof.Machine

variable (w : Word) (tr : List Elem) (e : ErrCode) (a : Addr) (s : State)

/-! ## Acceptance (60_exceptions.md R141) -/

@[simp] theorem accept_done : (accept w tr s).done = false := rfl
@[simp] theorem accept_wign : (accept w tr s).wign = s.wign := rfl
@[simp] theorem accept_ctx : (accept w tr s).ctx = s.ctx := rfl
@[simp] theorem accept_errCode : (accept w tr s).errCode = .ok := rfl
@[simp] theorem accept_lastCmd : (accept w tr s).lastCmd = w.extractLsb' 0 4 := rfl
@[simp] theorem accept_doneIe : (accept w tr s).doneIe = s.doneIe := rfl
@[simp] theorem accept_present : (accept w tr s).present = s.present := rfl
@[simp] theorem accept_msgLen : (accept w tr s).msgLen = 0 := rfl
@[simp] theorem accept_errAddr : (accept w tr s).errAddr = 0 := rfl
@[simp] theorem accept_desc : (accept w tr s).desc = s.desc := rfl
@[simp] theorem accept_key : (accept w tr s).key = s.key := rfl
@[simp] theorem accept_nl : (accept w tr s).nl = s.nl := rfl
@[simp] theorem accept_cs : (accept w tr s).cs = s.cs := rfl
@[simp] theorem accept_ks : (accept w tr s).ks = s.ks := rfl
@[simp] theorem accept_otk : (accept w tr s).otk = s.otk := rfl
@[simp] theorem accept_etag : (accept w tr s).etag = s.etag := rfl
@[simp] theorem accept_stag : (accept w tr s).stag = s.stag := rfl
@[simp] theorem accept_diff : (accept w tr s).diff = s.diff := rfl
@[simp] theorem accept_encK : (accept w tr s).encK = s.encK := rfl
@[simp] theorem accept_jctr : (accept w tr s).jctr = s.jctr := rfl
@[simp] theorem accept_mac : (accept w tr s).mac = s.mac := rfl
@[simp] theorem accept_seq : (accept w tr s).seq = .run (decodeCommand w) tr := rfl
@[simp] theorem accept_dataLatch : (accept w tr s).dataLatch = 0 := rfl
@[simp] theorem accept_okBit : (accept w tr s).okBit = false := rfl
@[simp] theorem accept_mem : (accept w tr s).mem = s.mem := rfl
@[simp] theorem accept_rdFail : (accept w tr s).rdFail = s.rdFail := rfl
@[simp] theorem accept_wrFail : (accept w tr s).wrFail = s.wrFail := rfl
@[simp] theorem accept_special : (accept w tr s).special = s.special := rfl
@[simp] theorem accept_coherent : (accept w tr s).coherent = s.coherent := rfl
@[simp] theorem accept_blockStale : (accept w tr s).blockStale = if s.coherent then [] else s.blockStale := rfl
@[simp] theorem accept_unwritten : (accept w tr s).unwritten = s.unwritten := rfl
@[simp] theorem accept_hostStale : (accept w tr s).hostStale = s.hostStale := rfl
@[simp] theorem accept_undo : (accept w tr s).undo = [] := rfl
@[simp] theorem accept_draws : (accept w tr s).draws = s.draws := rfl
@[simp] theorem accept_inputs : (accept w tr s).inputs = s.inputs := rfl
@[simp] theorem accept_busData : (accept w tr s).busData = s.busData := rfl
@[simp] theorem accept_memData : (accept w tr s).memData = s.memData := rfl

/-! ## Scrub (10_state.md R43) -/

@[simp] theorem scrub_done : (scrub s).done = s.done := rfl
@[simp] theorem scrub_wign : (scrub s).wign = s.wign := rfl
@[simp] theorem scrub_ctx : (scrub s).ctx = s.ctx := rfl
@[simp] theorem scrub_errCode : (scrub s).errCode = s.errCode := rfl
@[simp] theorem scrub_lastCmd : (scrub s).lastCmd = s.lastCmd := rfl
@[simp] theorem scrub_doneIe : (scrub s).doneIe = s.doneIe := rfl
@[simp] theorem scrub_present : (scrub s).present = s.present := rfl
@[simp] theorem scrub_msgLen : (scrub s).msgLen = s.msgLen := rfl
@[simp] theorem scrub_errAddr : (scrub s).errAddr = s.errAddr := rfl
@[simp] theorem scrub_desc : (scrub s).desc = s.desc := rfl
@[simp] theorem scrub_key : (scrub s).key = s.key := rfl
@[simp] theorem scrub_nl : (scrub s).nl = .replicate 12 0 := rfl
@[simp] theorem scrub_cs : (scrub s).cs = .replicate 16 0 := rfl
@[simp] theorem scrub_ks : (scrub s).ks = .replicate 64 0 := rfl
@[simp] theorem scrub_otk : (scrub s).otk = .replicate 32 0 := rfl
@[simp] theorem scrub_etag : (scrub s).etag = .replicate 16 0 := rfl
@[simp] theorem scrub_stag : (scrub s).stag = .replicate 16 0 := rfl
@[simp] theorem scrub_diff : (scrub s).diff = 0 := rfl
@[simp] theorem scrub_encK : (scrub s).encK = 0 := rfl
@[simp] theorem scrub_jctr : (scrub s).jctr = 0 := rfl
@[simp] theorem scrub_mac : (scrub s).mac = .clear := rfl
@[simp] theorem scrub_seq : (scrub s).seq = s.seq := rfl
@[simp] theorem scrub_dataLatch : (scrub s).dataLatch = s.dataLatch := rfl
@[simp] theorem scrub_okBit : (scrub s).okBit = s.okBit := rfl
@[simp] theorem scrub_mem : (scrub s).mem = s.mem := rfl
@[simp] theorem scrub_rdFail : (scrub s).rdFail = s.rdFail := rfl
@[simp] theorem scrub_wrFail : (scrub s).wrFail = s.wrFail := rfl
@[simp] theorem scrub_special : (scrub s).special = s.special := rfl
@[simp] theorem scrub_coherent : (scrub s).coherent = s.coherent := rfl
@[simp] theorem scrub_blockStale : (scrub s).blockStale = s.blockStale := rfl
@[simp] theorem scrub_unwritten : (scrub s).unwritten = s.unwritten := rfl
@[simp] theorem scrub_hostStale : (scrub s).hostStale = s.hostStale := rfl
@[simp] theorem scrub_undo : (scrub s).undo = s.undo := rfl
@[simp] theorem scrub_draws : (scrub s).draws = s.draws := rfl
@[simp] theorem scrub_inputs : (scrub s).inputs = s.inputs := rfl
@[simp] theorem scrub_busData : (scrub s).busData = s.busData := rfl
@[simp] theorem scrub_memData : (scrub s).memData = s.memData := rfl

/-! ## finish (60_exceptions.md R142) -/

@[simp] theorem finish_done : (finish e s).done = true := rfl
@[simp] theorem finish_wign : (finish e s).wign = s.wign := rfl
@[simp] theorem finish_ctx : (finish e s).ctx = s.ctx := rfl
@[simp] theorem finish_errCode : (finish e s).errCode = e := rfl
@[simp] theorem finish_lastCmd : (finish e s).lastCmd = s.lastCmd := rfl
@[simp] theorem finish_doneIe : (finish e s).doneIe = s.doneIe := rfl
@[simp] theorem finish_present : (finish e s).present = s.present := rfl
@[simp] theorem finish_msgLen : (finish e s).msgLen = s.msgLen := rfl
@[simp] theorem finish_errAddr : (finish e s).errAddr = s.errAddr := rfl
@[simp] theorem finish_desc : (finish e s).desc = s.desc := rfl
@[simp] theorem finish_key : (finish e s).key = s.key := rfl
@[simp] theorem finish_nl : (finish e s).nl = s.nl := rfl
@[simp] theorem finish_cs : (finish e s).cs = s.cs := rfl
@[simp] theorem finish_ks : (finish e s).ks = s.ks := rfl
@[simp] theorem finish_otk : (finish e s).otk = s.otk := rfl
@[simp] theorem finish_etag : (finish e s).etag = s.etag := rfl
@[simp] theorem finish_stag : (finish e s).stag = s.stag := rfl
@[simp] theorem finish_diff : (finish e s).diff = s.diff := rfl
@[simp] theorem finish_encK : (finish e s).encK = s.encK := rfl
@[simp] theorem finish_jctr : (finish e s).jctr = s.jctr := rfl
@[simp] theorem finish_mac : (finish e s).mac = s.mac := rfl
@[simp] theorem finish_seq : (finish e s).seq = .idle := rfl
@[simp] theorem finish_dataLatch : (finish e s).dataLatch = 0 := rfl
@[simp] theorem finish_okBit : (finish e s).okBit = false := rfl
@[simp] theorem finish_mem : (finish e s).mem = s.mem := rfl
@[simp] theorem finish_rdFail : (finish e s).rdFail = s.rdFail := rfl
@[simp] theorem finish_wrFail : (finish e s).wrFail = s.wrFail := rfl
@[simp] theorem finish_special : (finish e s).special = s.special := rfl
@[simp] theorem finish_coherent : (finish e s).coherent = s.coherent := rfl
@[simp] theorem finish_blockStale : (finish e s).blockStale = if s.coherent then [] else awayFrom s.undo s.unwritten := rfl
@[simp] theorem finish_unwritten : (finish e s).unwritten = awayFrom s.undo s.unwritten := rfl
@[simp] theorem finish_hostStale : (finish e s).hostStale = if s.coherent then s.hostStale else s.undo ++ s.hostStale := rfl
@[simp] theorem finish_undo : (finish e s).undo = [] := rfl
@[simp] theorem finish_draws : (finish e s).draws = s.draws := rfl
@[simp] theorem finish_inputs : (finish e s).inputs = s.inputs := rfl
@[simp] theorem finish_busData : (finish e s).busData = s.busData := rfl
@[simp] theorem finish_memData : (finish e s).memData = s.memData := rfl

/-! ## Scrub and finish (60_exceptions.md R140) -/

@[simp] theorem conclude_done : (conclude e s).done = true := rfl
@[simp] theorem conclude_wign : (conclude e s).wign = s.wign := rfl
@[simp] theorem conclude_ctx : (conclude e s).ctx = s.ctx := rfl
@[simp] theorem conclude_errCode : (conclude e s).errCode = e := rfl
@[simp] theorem conclude_lastCmd : (conclude e s).lastCmd = s.lastCmd := rfl
@[simp] theorem conclude_doneIe : (conclude e s).doneIe = s.doneIe := rfl
@[simp] theorem conclude_present : (conclude e s).present = s.present := rfl
@[simp] theorem conclude_msgLen : (conclude e s).msgLen = s.msgLen := rfl
@[simp] theorem conclude_errAddr : (conclude e s).errAddr = s.errAddr := rfl
@[simp] theorem conclude_desc : (conclude e s).desc = s.desc := rfl
@[simp] theorem conclude_key : (conclude e s).key = s.key := rfl
@[simp] theorem conclude_nl : (conclude e s).nl = .replicate 12 0 := rfl
@[simp] theorem conclude_cs : (conclude e s).cs = .replicate 16 0 := rfl
@[simp] theorem conclude_ks : (conclude e s).ks = .replicate 64 0 := rfl
@[simp] theorem conclude_otk : (conclude e s).otk = .replicate 32 0 := rfl
@[simp] theorem conclude_etag : (conclude e s).etag = .replicate 16 0 := rfl
@[simp] theorem conclude_stag : (conclude e s).stag = .replicate 16 0 := rfl
@[simp] theorem conclude_diff : (conclude e s).diff = 0 := rfl
@[simp] theorem conclude_encK : (conclude e s).encK = 0 := rfl
@[simp] theorem conclude_jctr : (conclude e s).jctr = 0 := rfl
@[simp] theorem conclude_mac : (conclude e s).mac = .clear := rfl
@[simp] theorem conclude_seq : (conclude e s).seq = .idle := rfl
@[simp] theorem conclude_dataLatch : (conclude e s).dataLatch = 0 := rfl
@[simp] theorem conclude_okBit : (conclude e s).okBit = false := rfl
@[simp] theorem conclude_mem : (conclude e s).mem = s.mem := rfl
@[simp] theorem conclude_rdFail : (conclude e s).rdFail = s.rdFail := rfl
@[simp] theorem conclude_wrFail : (conclude e s).wrFail = s.wrFail := rfl
@[simp] theorem conclude_special : (conclude e s).special = s.special := rfl
@[simp] theorem conclude_coherent : (conclude e s).coherent = s.coherent := rfl
@[simp] theorem conclude_blockStale : (conclude e s).blockStale = if s.coherent then [] else awayFrom s.undo s.unwritten := rfl
@[simp] theorem conclude_unwritten : (conclude e s).unwritten = awayFrom s.undo s.unwritten := rfl
@[simp] theorem conclude_hostStale : (conclude e s).hostStale = if s.coherent then s.hostStale else s.undo ++ s.hostStale := rfl
@[simp] theorem conclude_undo : (conclude e s).undo = [] := rfl
@[simp] theorem conclude_draws : (conclude e s).draws = s.draws := rfl
@[simp] theorem conclude_inputs : (conclude e s).inputs = s.inputs := rfl
@[simp] theorem conclude_busData : (conclude e s).busData = s.busData := rfl
@[simp] theorem conclude_memData : (conclude e s).memData = s.memData := rfl

/-! ## A write refused while BUSY = 1 (10_state.md R26) -/

@[simp] theorem ignoreWrite_done : (ignoreWrite s).done = s.done := rfl
@[simp] theorem ignoreWrite_wign : (ignoreWrite s).wign = true := rfl
@[simp] theorem ignoreWrite_ctx : (ignoreWrite s).ctx = s.ctx := rfl
@[simp] theorem ignoreWrite_errCode : (ignoreWrite s).errCode = s.errCode := rfl
@[simp] theorem ignoreWrite_lastCmd : (ignoreWrite s).lastCmd = s.lastCmd := rfl
@[simp] theorem ignoreWrite_doneIe : (ignoreWrite s).doneIe = s.doneIe := rfl
@[simp] theorem ignoreWrite_present : (ignoreWrite s).present = s.present := rfl
@[simp] theorem ignoreWrite_msgLen : (ignoreWrite s).msgLen = s.msgLen := rfl
@[simp] theorem ignoreWrite_errAddr : (ignoreWrite s).errAddr = s.errAddr := rfl
@[simp] theorem ignoreWrite_desc : (ignoreWrite s).desc = s.desc := rfl
@[simp] theorem ignoreWrite_key : (ignoreWrite s).key = s.key := rfl
@[simp] theorem ignoreWrite_nl : (ignoreWrite s).nl = s.nl := rfl
@[simp] theorem ignoreWrite_cs : (ignoreWrite s).cs = s.cs := rfl
@[simp] theorem ignoreWrite_ks : (ignoreWrite s).ks = s.ks := rfl
@[simp] theorem ignoreWrite_otk : (ignoreWrite s).otk = s.otk := rfl
@[simp] theorem ignoreWrite_etag : (ignoreWrite s).etag = s.etag := rfl
@[simp] theorem ignoreWrite_stag : (ignoreWrite s).stag = s.stag := rfl
@[simp] theorem ignoreWrite_diff : (ignoreWrite s).diff = s.diff := rfl
@[simp] theorem ignoreWrite_encK : (ignoreWrite s).encK = s.encK := rfl
@[simp] theorem ignoreWrite_jctr : (ignoreWrite s).jctr = s.jctr := rfl
@[simp] theorem ignoreWrite_mac : (ignoreWrite s).mac = s.mac := rfl
@[simp] theorem ignoreWrite_seq : (ignoreWrite s).seq = s.seq := rfl
@[simp] theorem ignoreWrite_dataLatch : (ignoreWrite s).dataLatch = s.dataLatch := rfl
@[simp] theorem ignoreWrite_okBit : (ignoreWrite s).okBit = s.okBit := rfl
@[simp] theorem ignoreWrite_mem : (ignoreWrite s).mem = s.mem := rfl
@[simp] theorem ignoreWrite_rdFail : (ignoreWrite s).rdFail = s.rdFail := rfl
@[simp] theorem ignoreWrite_wrFail : (ignoreWrite s).wrFail = s.wrFail := rfl
@[simp] theorem ignoreWrite_special : (ignoreWrite s).special = s.special := rfl
@[simp] theorem ignoreWrite_coherent : (ignoreWrite s).coherent = s.coherent := rfl
@[simp] theorem ignoreWrite_blockStale : (ignoreWrite s).blockStale = s.blockStale := rfl
@[simp] theorem ignoreWrite_unwritten : (ignoreWrite s).unwritten = s.unwritten := rfl
@[simp] theorem ignoreWrite_hostStale : (ignoreWrite s).hostStale = s.hostStale := rfl
@[simp] theorem ignoreWrite_undo : (ignoreWrite s).undo = s.undo := rfl
@[simp] theorem ignoreWrite_draws : (ignoreWrite s).draws = s.draws := rfl
@[simp] theorem ignoreWrite_inputs : (ignoreWrite s).inputs = s.inputs := rfl
@[simp] theorem ignoreWrite_busData : (ignoreWrite s).busData = s.busData := rfl
@[simp] theorem ignoreWrite_memData : (ignoreWrite s).memData = s.memData := rfl

/-! ## Bus error (20_memory.md R54) -/

@[simp] theorem busErrorAt_errAddr : (busErrorAt a s).errAddr = a := by unfold busErrorAt; split <;> rfl

theorem busErrorAt_key :
    (busErrorAt a s).key = if running s = some .loadkey then .replicate 32 0 else s.key := by
  unfold busErrorAt; split <;> rfl

/-- A bus error changes nothing but ERRADDR and, in LOADKEY, KEY. -/
theorem busErrorAt_frame : busErrorAt a s = { s with errAddr := a, key := (busErrorAt a s).key } := by
  unfold busErrorAt; split <;> rfl


@[simp] theorem busErrorAt_done : (busErrorAt a s).done = s.done := by rw [busErrorAt_frame]
@[simp] theorem busErrorAt_wign : (busErrorAt a s).wign = s.wign := by rw [busErrorAt_frame]
@[simp] theorem busErrorAt_ctx : (busErrorAt a s).ctx = s.ctx := by rw [busErrorAt_frame]
@[simp] theorem busErrorAt_errCode : (busErrorAt a s).errCode = s.errCode := by rw [busErrorAt_frame]
@[simp] theorem busErrorAt_lastCmd : (busErrorAt a s).lastCmd = s.lastCmd := by rw [busErrorAt_frame]
@[simp] theorem busErrorAt_doneIe : (busErrorAt a s).doneIe = s.doneIe := by rw [busErrorAt_frame]
@[simp] theorem busErrorAt_present : (busErrorAt a s).present = s.present := by rw [busErrorAt_frame]
@[simp] theorem busErrorAt_msgLen : (busErrorAt a s).msgLen = s.msgLen := by rw [busErrorAt_frame]
@[simp] theorem busErrorAt_desc : (busErrorAt a s).desc = s.desc := by rw [busErrorAt_frame]
@[simp] theorem busErrorAt_nl : (busErrorAt a s).nl = s.nl := by rw [busErrorAt_frame]
@[simp] theorem busErrorAt_cs : (busErrorAt a s).cs = s.cs := by rw [busErrorAt_frame]
@[simp] theorem busErrorAt_ks : (busErrorAt a s).ks = s.ks := by rw [busErrorAt_frame]
@[simp] theorem busErrorAt_otk : (busErrorAt a s).otk = s.otk := by rw [busErrorAt_frame]
@[simp] theorem busErrorAt_etag : (busErrorAt a s).etag = s.etag := by rw [busErrorAt_frame]
@[simp] theorem busErrorAt_stag : (busErrorAt a s).stag = s.stag := by rw [busErrorAt_frame]
@[simp] theorem busErrorAt_diff : (busErrorAt a s).diff = s.diff := by rw [busErrorAt_frame]
@[simp] theorem busErrorAt_encK : (busErrorAt a s).encK = s.encK := by rw [busErrorAt_frame]
@[simp] theorem busErrorAt_jctr : (busErrorAt a s).jctr = s.jctr := by rw [busErrorAt_frame]
@[simp] theorem busErrorAt_mac : (busErrorAt a s).mac = s.mac := by rw [busErrorAt_frame]
@[simp] theorem busErrorAt_seq : (busErrorAt a s).seq = s.seq := by rw [busErrorAt_frame]
@[simp] theorem busErrorAt_dataLatch : (busErrorAt a s).dataLatch = s.dataLatch := by rw [busErrorAt_frame]
@[simp] theorem busErrorAt_okBit : (busErrorAt a s).okBit = s.okBit := by rw [busErrorAt_frame]
@[simp] theorem busErrorAt_mem : (busErrorAt a s).mem = s.mem := by rw [busErrorAt_frame]
@[simp] theorem busErrorAt_rdFail : (busErrorAt a s).rdFail = s.rdFail := by rw [busErrorAt_frame]
@[simp] theorem busErrorAt_wrFail : (busErrorAt a s).wrFail = s.wrFail := by rw [busErrorAt_frame]
@[simp] theorem busErrorAt_special : (busErrorAt a s).special = s.special := by rw [busErrorAt_frame]
@[simp] theorem busErrorAt_coherent : (busErrorAt a s).coherent = s.coherent := by rw [busErrorAt_frame]
@[simp] theorem busErrorAt_blockStale : (busErrorAt a s).blockStale = s.blockStale := by rw [busErrorAt_frame]
@[simp] theorem busErrorAt_unwritten : (busErrorAt a s).unwritten = s.unwritten := by rw [busErrorAt_frame]
@[simp] theorem busErrorAt_hostStale : (busErrorAt a s).hostStale = s.hostStale := by rw [busErrorAt_frame]
@[simp] theorem busErrorAt_undo : (busErrorAt a s).undo = s.undo := by rw [busErrorAt_frame]
@[simp] theorem busErrorAt_draws : (busErrorAt a s).draws = s.draws := by rw [busErrorAt_frame]
@[simp] theorem busErrorAt_inputs : (busErrorAt a s).inputs = s.inputs := by rw [busErrorAt_frame]
@[simp] theorem busErrorAt_busData : (busErrorAt a s).busData = s.busData := by rw [busErrorAt_frame]
@[simp] theorem busErrorAt_memData : (busErrorAt a s).memData = s.memData := by rw [busErrorAt_frame]

/-! ## The computed flags -/

@[simp] theorem busy_accept : busy (accept w tr s) = true := rfl
@[simp] theorem busy_finish : busy (finish e s) = false := rfl
@[simp] theorem busy_conclude : busy (conclude e s) = false := rfl
@[simp] theorem running_accept : running (accept w tr s) = decodeCommand w := rfl
@[simp] theorem workingZero_conclude : workingZero (conclude e s) = true := by simp [workingZero]

end Sys2Proof.Machine
end

