-- ==== Sys2Proof/Laws/Trace.lean ====
section
/-! SUPPORT. What the elements of an access trace do: sequences of them, DMA accesses that complete, what no element changes, and which
bytes of memory a sequence can change (00_scope.md R11, 20_memory.md R52 to R54). -/

namespace Sys2Proof.Machine

/-! ## Sequences -/

@[simp] theorem performAll_nil (s : State) : performAll [] s = .ok s := rfl

@[simp] theorem performAll_reg (r : RegOp) (t : List Act) (s : State) :
    performAll (.reg r :: t) s = performAll t (performReg r s) := rfl

theorem performAll_append (l r : List Act) (s : State) :
    performAll (l ++ r) s = (match performAll l s with | .ok t => performAll r t | .error t => .error t) := by
  induction l generalizing s with
  | nil => rfl
  | cons a l ih =>
    simp only [List.cons_append, performAll]
    cases perform a s with
    | ok t => exact ih t
    | error t => rfl

/-- A sequence whose first part completes goes on with the second. -/
theorem performAll_append_ok {l r : List Act} {s t : State} (h : performAll l s = .ok t) :
    performAll (l ++ r) s = performAll r t := by
  rw [performAll_append, h]

/-- The step of an induction over a loop: the first n rounds, then round n. -/
theorem performAll_range_succ {f : Nat → List Act} {n : Nat} {s t : State}
    (h : performAll ((List.range n).flatMap f) s = .ok t) :
    performAll ((List.range (n + 1)).flatMap f) s = performAll (f n) t := by
  rw [List.range_succ, List.flatMap_append, performAll_append_ok h]
  simp

/-- `Scrub()` element by element comes to `scrub` (10_state.md R43). -/
theorem performAll_scrubOps (s : State) : performAll (scrubOps.map Act.reg) s = .ok (scrub s) := by
  simp [scrubOps, performReg, scrub]

/-! ## Accesses that complete -/

theorem dmaRead_ok {a : Addr} {s : State} (hr : rdOk s a = true) (ho : ordinary s a = true) (hb : s.blockStale = []) :
    dmaRead a s = .ok { s with dataLatch := memRead s.mem a.toNat } := by
  simp [dmaRead, hr, ho, hb]

/-- A granted read of a byte of which nothing stale is kept returns the byte memory holds (20_memory.md R52). -/
theorem dmaRead_fresh {a : Addr} {s : State} (hr : rdOk s a = true) (ho : ordinary s a = true)
    (h : staleAt s.blockStale a = []) : dmaRead a s = .ok { s with dataLatch := memRead s.mem a.toNat } := by
  simp [dmaRead, hr, ho, h]

theorem dmaWrite_ok {a : Addr} {v : Byte} {s : State} (hw : wrOk s a = true) (ho : ordinary s a = true) :
    dmaWrite a v s = .ok { s with
      mem := memWrite s.mem a.toNat v
      undo := (a.toNat, memRead s.mem a.toNat) :: s.undo
      blockStale := memErase s.blockStale a.toNat } := by
  simp [dmaWrite, hw, ho]

/-- A read that completes, at the head of a sequence. -/
theorem performAll_rd {a : Addr} {t : List Act} {s : State} (hr : rdOk s a = true) (ho : ordinary s a = true)
    (hb : s.blockStale = []) :
    performAll (.rd a :: t) s = performAll t { s with dataLatch := memRead s.mem a.toNat } := by
  simp only [performAll, perform, dmaRead_ok hr ho hb]

/-- A write that completes, at the head of a sequence. -/
theorem performAll_wr {a : Addr} {v : Val} {t : List Act} {s : State} (hw : wrOk s a = true) (ho : ordinary s a = true)
    (hb : s.blockStale = []) :
    performAll (.wr a v :: t) s = performAll t { s with
      mem := memWrite s.mem a.toNat (valOf s v)
      undo := (a.toNat, memRead s.mem a.toNat) :: s.undo } := by
  simp only [performAll, perform, dmaWrite_ok hw ho, hb, memErase_nil]

/-- A read the platform answers with a bus error has no effect but ERRADDR, and KEY in LOADKEY (20_memory.md R54). -/
theorem dmaRead_error {a : Addr} {s : State} (hr : rdOk s a = false) : dmaRead a s = .error (busErrorAt a s) := by
  simp [dmaRead, hr]

theorem dmaWrite_error {a : Addr} {v : Byte} {s : State} (hw : wrOk s a = false) :
    dmaWrite a v s = .error (busErrorAt a s) := by
  simp [dmaWrite, hw]

/-- Everything a read can do. -/
theorem dmaRead_cases (a : Addr) (s : State) :
    (∃ b d, dmaRead a s = .ok { s with dataLatch := b, draws := d }) ∨ dmaRead a s = .error (busErrorAt a s) := by
  unfold dmaRead
  split
  · split
    · exact .inl ⟨_, _, rfl⟩
    · exact .inl ⟨_, _, rfl⟩
  · exact .inr rfl

/-- Everything a write can do. -/
theorem dmaWrite_cases (a : Addr) (v : Byte) (s : State) :
    dmaWrite a v s = .ok { s with
      mem := memWrite s.mem a.toNat v
      undo := (a.toNat, memRead s.mem a.toNat) :: s.undo
      blockStale := memErase s.blockStale a.toNat } ∨
    dmaWrite a v s = .ok s ∨ dmaWrite a v s = .error (busErrorAt a s) := by
  unfold dmaWrite
  split
  · split
    · exact .inl rfl
    · exact .inr (.inl rfl)
  · exact .inr (.inr rfl)

/-! ## What no element changes -/

/-- The part of the state that no element of a trace changes: the host-visible control registers, the sequencer's position, the
platform, and what hosts do. -/
structure SameControl (s t : State) : Prop where
  done : t.done = s.done
  wign : t.wign = s.wign
  errCode : t.errCode = s.errCode
  lastCmd : t.lastCmd = s.lastCmd
  doneIe : t.doneIe = s.doneIe
  present : t.present = s.present
  desc : t.desc = s.desc
  seq : t.seq = s.seq
  rdFail : t.rdFail = s.rdFail
  wrFail : t.wrFail = s.wrFail
  special : t.special = s.special
  coherent : t.coherent = s.coherent
  hostStale : t.hostStale = s.hostStale
  inputs : t.inputs = s.inputs
  busData : t.busData = s.busData
  memData : t.memData = s.memData

theorem SameControl.rfl' (s : State) : SameControl s s := by constructor <;> rfl

theorem SameControl.trans' {s t u : State} (h : SameControl s t) (k : SameControl t u) : SameControl s u := by
  constructor
  · exact k.done.trans h.done
  · exact k.wign.trans h.wign
  · exact k.errCode.trans h.errCode
  · exact k.lastCmd.trans h.lastCmd
  · exact k.doneIe.trans h.doneIe
  · exact k.present.trans h.present
  · exact k.desc.trans h.desc
  · exact k.seq.trans h.seq
  · exact k.rdFail.trans h.rdFail
  · exact k.wrFail.trans h.wrFail
  · exact k.special.trans h.special
  · exact k.coherent.trans h.coherent
  · exact k.hostStale.trans h.hostStale
  · exact k.inputs.trans h.inputs
  · exact k.busData.trans h.busData
  · exact k.memData.trans h.memData

theorem performReg_control (r : RegOp) (s : State) : SameControl s (performReg r s) := by
  cases r <;> simp only [performReg] <;> constructor <;> rfl

@[simp] theorem performReg_mem (r : RegOp) (s : State) : (performReg r s).mem = s.mem := by cases r <;> simp only [performReg]
@[simp] theorem performReg_undo (r : RegOp) (s : State) : (performReg r s).undo = s.undo := by cases r <;> simp only [performReg]
@[simp] theorem performReg_unwritten (r : RegOp) (s : State) : (performReg r s).unwritten = s.unwritten := by cases r <;> simp only [performReg]
@[simp] theorem performReg_blockStale (r : RegOp) (s : State) : (performReg r s).blockStale = s.blockStale := by cases r <;> simp only [performReg]
@[simp] theorem performReg_draws (r : RegOp) (s : State) : (performReg r s).draws = s.draws := by cases r <;> simp only [performReg]
@[simp] theorem performReg_errAddr (r : RegOp) (s : State) : (performReg r s).errAddr = s.errAddr := by cases r <;> simp only [performReg]

/-- The state an element leaves, whether it completes or ends in a bus error. -/
def outcomeState (r : Except State State) : State :=
  match r with
  | .ok t => t
  | .error t => t

@[simp] theorem outcomeState_ok (t : State) : outcomeState (.ok t) = t := rfl
@[simp] theorem outcomeState_error (t : State) : outcomeState (.error t) = t := rfl

theorem perform_control (a : Act) (s : State) : SameControl s (outcomeState (perform a s)) := by
  cases a with
  | reg r => exact performReg_control r s
  | rd a =>
    rcases dmaRead_cases a s with ⟨b, d, h⟩ | h <;> (simp only [perform, h]; constructor <;> simp)
  | wr a v =>
    rcases dmaWrite_cases a (valOf s v) s with h | h | h <;> (simp only [perform, h]; constructor <;> simp)

/-- What a property kept by every element gives of a whole sequence. -/
theorem performAll_induct {P : State → State → Prop} (hrefl : ∀ s, P s s) (htrans : ∀ s t u, P s t → P t u → P s u)
    {l : List Act} (h : ∀ a ∈ l, ∀ s, P s (outcomeState (perform a s))) (s : State) :
    P s (outcomeState (performAll l s)) := by
  induction l generalizing s with
  | nil => exact hrefl s
  | cons a t ih =>
    have ha := h a (by simp) s
    simp only [performAll]
    cases hp : perform a s with
    | ok u =>
      rw [hp] at ha
      exact htrans _ _ _ ha (ih (fun b hb => h b (by simp [hb])) u)
    | error u =>
      rw [hp] at ha
      exact ha

theorem performAll_control (l : List Act) (s : State) : SameControl s (outcomeState (performAll l s)) :=
  performAll_induct SameControl.rfl' (fun _ _ _ h k => h.trans' k) (fun a _ s => perform_control a s) s

theorem performAll_control_ok {l : List Act} {s t : State} (h : performAll l s = .ok t) : SameControl s t := by
  have := performAll_control l s
  rwa [h] at this

theorem performAll_control_error {l : List Act} {s t : State} (h : performAll l s = .error t) : SameControl s t := by
  have := performAll_control l s
  rwa [h] at this

/-! ## The context and the key -/

/-- An element that writes neither KEY nor CTX. -/
def keepsKey : Act → Bool
  | .reg .clearKey => false
  | .reg (.latchKey _) => false
  | .reg (.setCtx _) => false
  | .reg _ => true
  | .rd _ => true
  | .wr _ _ => true

theorem perform_key {a : Act} (h : keepsKey a = true) {s : State} (hr : running s ≠ some .loadkey) :
    (outcomeState (perform a s)).key = s.key ∧ (outcomeState (perform a s)).ctx = s.ctx := by
  cases a with
  | reg r => cases r <;> simp_all [keepsKey, perform, performReg]
  | rd a => rcases dmaRead_cases a s with ⟨b, d, h⟩ | h <;> simp [perform, h, busErrorAt_key, hr]
  | wr a v => rcases dmaWrite_cases a (valOf s v) s with h | h | h <;> simp [perform, h, busErrorAt_key, hr]

/-- Outside LOADKEY, elements that write neither KEY nor CTX leave both as they were, also when one ends in a bus error. -/
theorem performAll_key {l : List Act} (h : ∀ a ∈ l, keepsKey a = true) {s : State} (hr : running s ≠ some .loadkey) :
    (outcomeState (performAll l s)).key = s.key ∧ (outcomeState (performAll l s)).ctx = s.ctx := by
  have := performAll_induct
    (P := fun s t => running t = running s ∧ (running s ≠ some .loadkey → t.key = s.key ∧ t.ctx = s.ctx))
    (fun s => ⟨rfl, fun _ => ⟨rfl, rfl⟩⟩)
    (fun s t u h k => ⟨k.1.trans h.1, fun hs =>
      ⟨(k.2 (h.1 ▸ hs)).1.trans (h.2 hs).1, (k.2 (h.1 ▸ hs)).2.trans (h.2 hs).2⟩⟩)
    (l := l)
    (fun a ha s => ⟨by simp only [running, (perform_control a s).seq], fun hs => perform_key (h a ha) hs⟩) s
  exact this.2 hr

/-! ## Memory -/

/-- The addresses the elements store to. -/
def storeAddrs : List Act → List Nat
  | [] => []
  | .wr a _ :: t => a.toNat :: storeAddrs t
  | .rd _ :: t => storeAddrs t
  | .reg _ :: t => storeAddrs t

@[simp] theorem storeAddrs_append (l r : List Act) : storeAddrs (l ++ r) = storeAddrs l ++ storeAddrs r := by
  induction l with
  | nil => rfl
  | cons a t ih => cases a <;> simp [storeAddrs, ih]

theorem storeAddrs_flatMap (l : List Nat) (f : Nat → List Act) :
    storeAddrs (l.flatMap f) = l.flatMap fun i => storeAddrs (f i) := by
  induction l with
  | nil => rfl
  | cons a t ih => simp [ih]

theorem perform_mem_other {a : Act} {x : Nat} (h : ∀ b v, a = .wr b v → x ≠ b.toNat) (s : State) :
    memRead (outcomeState (perform a s)).mem x = memRead s.mem x := by
  cases a with
  | reg r => simp [perform]
  | rd a => rcases dmaRead_cases a s with ⟨b, d, h⟩ | h <;> simp [perform, h]
  | wr a v =>
    rcases dmaWrite_cases a (valOf s v) s with h' | h' | h'
    · simp only [perform, h', outcomeState_ok]
      exact memRead_write_other _ _ (h a v rfl)
    · simp [perform, h']
    · simp [perform, h']

/-- A sequence of elements changes no byte of memory but those it stores to, also when one ends in a bus error. -/
theorem performAll_mem_other {l : List Act} {x : Nat} (h : x ∉ storeAddrs l) (s : State) :
    memRead (outcomeState (performAll l s)).mem x = memRead s.mem x := by
  induction l generalizing s with
  | nil => rfl
  | cons a t ih =>
    have hx : ∀ b v, a = .wr b v → x ≠ b.toNat := by
      rintro b v rfl hb
      exact h (by simp [storeAddrs, hb])
    have ht : x ∉ storeAddrs t := by
      cases a <;> simp_all [storeAddrs]
    have ha := perform_mem_other hx s
    simp only [performAll]
    cases hp : perform a s with
    | ok u => rw [hp] at ha; exact (ih ht u).trans ha
    | error u => rw [hp] at ha; exact ha

/-- A sequence with no store leaves memory as it was, also when a bus error ends it. -/
theorem performAll_mem_eq {l : List Act} (h : ∀ a v, Act.wr a v ∉ l) (s : State) :
    (outcomeState (performAll l s)).mem = s.mem := by
  refine performAll_induct (P := fun s t => t.mem = s.mem) (fun _ => rfl) (fun _ _ _ h k => k.trans h) (fun a ha s => ?_) s
  cases a with
  | reg r => simp [perform]
  | rd a => rcases dmaRead_cases a s with ⟨b, d, h'⟩ | h' <;> simp [perform, h']
  | wr a v => exact absurd ha (h a v)

/-- A read the platform answers with a bus error, at the head of a sequence. -/
theorem performAll_rd_error {a : Addr} {t : List Act} {s : State} (h : rdOk s a = false) :
    performAll (.rd a :: t) s = .error (busErrorAt a s) := by
  simp only [performAll, perform, dmaRead_error h]

theorem performAll_wr_error {a : Addr} {v : Val} {t : List Act} {s : State} (h : wrOk s a = false) :
    performAll (.wr a v :: t) s = .error (busErrorAt a s) := by
  simp only [performAll, perform, dmaWrite_error h]

theorem perform_wf (a : Act) {s : State} (h : Memory.wf s.mem ∧ ∀ c ∈ s.undo, c.1 < 2 ^ 64) :
    Memory.wf (outcomeState (perform a s)).mem ∧ ∀ c ∈ (outcomeState (perform a s)).undo, c.1 < 2 ^ 64 := by
  cases a with
  | reg r => simpa [perform] using h
  | rd a => rcases dmaRead_cases a s with ⟨b, d, h'⟩ | h' <;> simpa [perform, h'] using h
  | wr a v =>
    rcases dmaWrite_cases a (valOf s v) s with h' | h' | h'
    · simp only [perform, h', outcomeState_ok]
      refine ⟨memWrite_wf h.1 a.isLt _, fun c hc => ?_⟩
      rcases List.mem_cons.mp hc with rfl | hc
      · exact a.isLt
      · exact h.2 c hc
    · simpa [perform, h'] using h
    · simpa [perform, h'] using h

/-- A sequence of elements keeps memory canonical. -/
theorem performAll_wf (l : List Act) {s : State} (h : Memory.wf s.mem ∧ ∀ c ∈ s.undo, c.1 < 2 ^ 64) :
    Memory.wf (outcomeState (performAll l s)).mem ∧ ∀ c ∈ (outcomeState (performAll l s)).undo, c.1 < 2 ^ 64 :=
  performAll_induct
    (P := fun s t => (Memory.wf s.mem ∧ ∀ c ∈ s.undo, c.1 < 2 ^ 64) → Memory.wf t.mem ∧ ∀ c ∈ t.undo, c.1 < 2 ^ 64)
    (fun _ h => h) (fun _ _ _ h k hs => k (h hs)) (fun a _ _ h => perform_wf a h) s h

theorem perform_errAddr {a : Act} {s t : State} (h : perform a s = .ok t) : t.errAddr = s.errAddr := by
  cases a with
  | reg r =>
    cases h
    exact performReg_errAddr r s
  | rd a =>
    rcases dmaRead_cases a s with ⟨b, d, h'⟩ | h'
    · simp only [perform, h', Except.ok.injEq] at h
      rw [← h]
    · simp [perform, h'] at h
  | wr a v =>
    rcases dmaWrite_cases a (valOf s v) s with h' | h' | h'
    · simp only [perform, h', Except.ok.injEq] at h
      rw [← h]
    · simp only [perform, h', Except.ok.injEq] at h
      rw [← h]
    · simp [perform, h'] at h

/-- ERRADDR after a sequence that completes is as before (20_memory.md R54). -/
theorem performAll_errAddr {l : List Act} {s t : State} (h : performAll l s = .ok t) : t.errAddr = s.errAddr := by
  induction l generalizing s with
  | nil => cases h; rfl
  | cons a l ih =>
    simp only [performAll] at h
    cases hp : perform a s with
    | ok u =>
      rw [hp] at h
      exact (ih h).trans (perform_errAddr hp)
    | error u => simp [hp] at h

end Sys2Proof.Machine
end

