-- ==== Sys2Proof/Laws/Loops.lean ====
section
/-! SUPPORT. One lemma per subroutine of the commands, saying everything it does when its accesses complete: the key, nonce and tag reads,
DeriveOTK (41_encrypt.md R101), XorPass (R100), the tag write, the zero-fill (43_decrypt.md R129) and the comparator (R126). -/

namespace Sys2Proof.Machine

/-! ## Filling a byte register -/

theorem byteAt_setByte {n : Nat} (v : Vector Byte n) (i j : Nat) (b : Byte) (hi : i < n) :
    byteAt (setByte v i b) j = if j = i then b else byteAt v j := by
  unfold byteAt setByte
  simp only [Vector.getElem?_setIfInBounds]
  by_cases h : i = j
  · subst h
    simp [hi]
  · simp [h, Ne.symm h]

/-- Bytes 0 to k-1 of a register written in order. -/
def fillBytes {n : Nat} (v : Vector Byte n) (k : Nat) (f : Nat → Byte) : Vector Byte n :=
  (List.range k).foldl (fun v i => setByte v i (f i)) v

theorem fillBytes_succ {n : Nat} (v : Vector Byte n) (k : Nat) (f : Nat → Byte) :
    fillBytes v (k + 1) f = setByte (fillBytes v k f) k (f k) := by
  simp [fillBytes, List.range_succ, List.foldl_append]

theorem byteAt_fillBytes {n : Nat} (v : Vector Byte n) (k : Nat) (f : Nat → Byte) (hk : k ≤ n) (j : Nat) :
    byteAt (fillBytes v k f) j = if j < k then f j else byteAt v j := by
  induction k with
  | zero => simp [fillBytes]
  | succ k ih =>
    rw [fillBytes_succ, byteAt_setByte _ _ _ _ (by omega), ih (by omega)]
    by_cases h : j = k
    · simp [h]
    · have : j < k + 1 ↔ j < k := by omega
      simp [h, this]

theorem byteAt_eq_getElem {n : Nat} (v : Vector Byte n) (i : Nat) (h : i < n) : byteAt v i = v[i] := by
  simp [byteAt, h]

theorem byteAt_ofFn {n : Nat} (f : Fin n → Byte) (i : Nat) (h : i < n) : byteAt (Vector.ofFn f) i = f ⟨i, h⟩ := by
  simp [byteAt_eq_getElem _ _ h]

theorem vector_ext_byteAt {n : Nat} {v w : Vector Byte n} (h : ∀ i < n, byteAt v i = byteAt w i) : v = w := by
  apply Vector.ext
  intro i hi
  rw [← byteAt_eq_getElem v i hi, ← byteAt_eq_getElem w i hi, h i hi]

theorem byteAt_loadBytes (n : Nat) (m : List Host.Cell) (a : Addr) (i : Nat) (h : i < n) :
    byteAt (loadBytes n m a) i = memRead m (addrAdd a i).toNat := byteAt_ofFn _ i h

/-- A register filled with the bytes of a region holds that region. -/
theorem fillBytes_load {n : Nat} (v : Vector Byte n) (m : List Host.Cell) (a : Addr) :
    fillBytes v n (fun i => memRead m (addrAdd a i).toNat) = loadBytes n m a :=
  vector_ext_byteAt fun i hi => by rw [byteAt_fillBytes _ _ _ (le_refl n), if_pos hi, byteAt_loadBytes _ _ _ _ hi]

/-! ## Reading a region into a register -/

theorem readNonce_prefix {a : Addr} {s : State} {k : Nat} (h : Readable s a k) (hb : s.blockStale = []) :
    ∃ d, performAll ((List.range k).flatMap (readNonceByte a)) s =
      .ok { s with nl := fillBytes s.nl k fun i => memRead s.mem (addrAdd a i).toNat, dataLatch := d } := by
  induction k with
  | zero => exact ⟨s.dataLatch, rfl⟩
  | succ k ih =>
    obtain ⟨d, hd⟩ := ih fun i hi => h i (by omega)
    refine ⟨memRead s.mem (addrAdd a k).toNat, ?_⟩
    rw [performAll_range_succ hd, fillBytes_succ]
    rw [readNonceByte, performAll_rd ?_ ?_ ?_]
    · rfl
    · exact (h k (by omega)).1
    · exact (h k (by omega)).2
    · exact hb

/-- The nonce latch after the 12 nonce reads (10_state.md R33). -/
theorem readNonce_spec {a : Addr} {s : State} (h : Readable s a 12) (hb : s.blockStale = []) :
    ∃ d, performAll (readNonce a) s = .ok { s with nl := loadBytes 12 s.mem a, dataLatch := d } := by
  obtain ⟨d, hd⟩ := readNonce_prefix h hb
  exact ⟨d, by rw [readNonce, hd, fillBytes_load]⟩

theorem readKey_prefix {a : Addr} {s : State} {k : Nat} (h : Readable s a k) (hb : s.blockStale = []) :
    ∃ d, performAll ((List.range k).flatMap (readKeyByte a)) s =
      .ok { s with key := fillBytes s.key k fun i => memRead s.mem (addrAdd a i).toNat, dataLatch := d } := by
  induction k with
  | zero => exact ⟨s.dataLatch, rfl⟩
  | succ k ih =>
    obtain ⟨d, hd⟩ := ih fun i hi => h i (by omega)
    refine ⟨memRead s.mem (addrAdd a k).toNat, ?_⟩
    rw [performAll_range_succ hd, fillBytes_succ]
    rw [readKeyByte, performAll_rd ?_ ?_ ?_]
    · rfl
    · exact (h k (by omega)).1
    · exact (h k (by omega)).2
    · exact hb

theorem readTag_prefix {a : Addr} {s : State} {k : Nat} (h : Readable s a k) (hb : s.blockStale = []) :
    ∃ d, performAll ((List.range k).flatMap (readTagByte a)) s =
      .ok { s with stag := fillBytes s.stag k fun i => memRead s.mem (addrAdd a i).toNat, dataLatch := d } := by
  induction k with
  | zero => exact ⟨s.dataLatch, rfl⟩
  | succ k ih =>
    obtain ⟨d, hd⟩ := ih fun i hi => h i (by omega)
    refine ⟨memRead s.mem (addrAdd a k).toNat, ?_⟩
    rw [performAll_range_succ hd, fillBytes_succ]
    rw [readTagByte, performAll_rd ?_ ?_ ?_]
    · rfl
    · exact (h k (by omega)).1
    · exact (h k (by omega)).2
    · exact hb

/-- The supplied tag after its 16 reads (10_state.md R36). -/
theorem readTag_spec {a : Addr} {s : State} (h : Readable s a 16) (hb : s.blockStale = []) :
    ∃ d, performAll (readTag a) s = .ok { s with stag := loadBytes 16 s.mem a, dataLatch := d } := by
  obtain ⟨d, hd⟩ := readTag_prefix h hb
  exact ⟨d, by rw [readTag, hd, fillBytes_load]⟩

/-- LOADKEY's elements when every key byte is read (40_context.md R96). -/
theorem loadkeyActs_spec {s : State} (h : Readable s (addrOf s .key) 32) (hb : s.blockStale = []) :
    ∃ d, performAll (loadkeyActs s) s =
      .ok { s with key := loadBytes 32 s.mem (addrOf s .key), ctx := .keyed, dataLatch := d } := by
  obtain ⟨d, hd⟩ := readKey_prefix (s := { s with key := .replicate 32 0, ctx := .empty }) h hb
  refine ⟨d, ?_⟩
  rw [fillBytes_load] at hd
  rw [loadkeyActs, List.append_assoc]
  simp only [List.cons_append, List.nil_append, performAll_reg, performReg]
  rw [performAll_append_ok hd]
  rfl

/-! ## The keystream -/

/-- DeriveOTK (41_encrypt.md R101). -/
theorem deriveOtk_spec (s : State) :
    performAll deriveOtk s = .ok { s with
      jctr := 0
      cs := .replicate 16 0
      ks := .replicate 64 0
      otk := oneTimeKey s.key s.nl } := by
  simp only [deriveOtk, performAll_reg, performReg, performAll_nil, oneTimeKey]

/-- What the bytes of XorPass do to memory (41_encrypt.md R100): b xor KS[i], for each byte before it is overwritten. -/
theorem xorBytes_prefix {src dst : Addr} {s : State} {base k : Nat}
    (hr : ∀ i < k, rdOk s (addrAdd src (base + i)) = true ∧ ordinary s (addrAdd src (base + i)) = true)
    (hw : ∀ i < k, wrOk s (addrAdd dst (base + i)) = true ∧ ordinary s (addrAdd dst (base + i)) = true)
    (hb : s.blockStale = [])
    (hsep : ∀ i < k, ∀ j < i, (addrAdd src (base + i)).toNat ≠ (addrAdd dst (base + j)).toNat) :
    ∃ d u, performAll ((List.range k).flatMap fun i => xorByte src dst (base + i) i) s =
      .ok { s with
        mem := writeBytes s.mem (addrAdd dst base) k
          fun i => memRead s.mem (addrAdd src (base + i)).toNat ^^^ byteAt s.ks i
        undo := u
        dataLatch := d } := by
  induction k with
  | zero => exact ⟨s.dataLatch, s.undo, rfl⟩
  | succ k ih =>
    obtain ⟨d, u, hd⟩ := ih (fun i hi => hr i (by omega)) (fun i hi => hw i (by omega))
      fun i hi j hj => hsep i (by omega) j hj
    have hsame : memRead (writeBytes s.mem (addrAdd dst base) k
        fun i => memRead s.mem (addrAdd src (base + i)).toNat ^^^ byteAt s.ks i) (addrAdd src (base + k)).toNat =
        memRead s.mem (addrAdd src (base + k)).toNat :=
      memRead_writeBytes_other _ fun j hj => by rw [addrAdd_addrAdd]; exact hsep k (by omega) j hj
    refine ⟨memRead s.mem (addrAdd src (base + k)).toNat, ?_, ?_⟩
    rotate_left
    · rw [performAll_range_succ hd, writeBytes_succ, addrAdd_addrAdd, xorByte, performAll_rd ?_ ?_ ?_, performAll_wr ?_ ?_ ?_]
      · simp only [hsame, valOf]
        rfl
      · exact (hw k (by omega)).1
      · exact (hw k (by omega)).2
      · exact hb
      · exact (hr k (by omega)).1
      · exact (hr k (by omega)).2
      · exact hb

/-- The byte XorPass writes at text index i (41_encrypt.md R100). -/
def xorByteAt (s : State) (src : Addr) (i : Nat) : Byte :=
  memRead s.mem (addrAdd src i).toNat ^^^ textKeystream s.key s.nl i

/-- Each text byte is read before any write to it: what makes XorPass right in place and apart (41_encrypt.md R100). -/
abbrev ReadsFirst (src dst : Addr) (n : Nat) : Prop :=
  ∀ i < n, ∀ j < i, (addrAdd src i).toNat ≠ (addrAdd dst j).toNat

theorem xorBlock_spec {src dst : Addr} {s : State} {n j : Nat} (hr : Readable s src (64 * j + min 64 (n - 64 * j)))
    (hw : Writable s dst (64 * j + min 64 (n - 64 * j))) (hb : s.blockStale = [])
    (hsep : ReadsFirst src dst (64 * j + min 64 (n - 64 * j))) (m0 : List Host.Cell)
    (hm : s.mem = writeBytes m0 dst (64 * j) (xorByteAt { s with mem := m0 } src)) :
    ∃ d u, performAll (xorBlock src dst n j) s =
      .ok { s with
        mem := writeBytes m0 dst (64 * j + min 64 (n - 64 * j)) (xorByteAt { s with mem := m0 } src)
        undo := u
        dataLatch := d
        jctr := BitVec.ofNat 32 (1 + j)
        cs := .replicate 16 0
        ks := .replicate 64 0 } := by
  have hlen : ∀ i < min 64 (n - 64 * j), 64 * j + i < 64 * j + min 64 (n - 64 * j) := fun i hi => by omega
  obtain ⟨d, u, hd⟩ := xorBytes_prefix (src := src) (dst := dst) (base := 64 * j) (k := min 64 (n - 64 * j))
    (s := { s with
      jctr := BitVec.ofNat 32 (1 + j)
      cs := .replicate 16 0
      ks := Config.chachaBlock (Config.chachaInit s.key (BitVec.ofNat 32 (1 + j)) s.nl) })
    (fun i hi => hr _ (hlen i hi)) (fun i hi => hw _ (hlen i hi)) hb
    (fun i hi k hk => hsep _ (hlen i hi) _ (by omega))
  refine ⟨d, u, ?_⟩
  rw [xorBlock, List.append_assoc]
  simp only [List.cons_append, List.nil_append, performAll_reg, performReg]
  rw [performAll_append_ok hd]
  simp only [performAll_reg, performReg, performAll_nil]
  congr 2
  rw [← writeBytes_append, ← hm]
  refine writeBytes_congr fun i hi => ?_
  have hread : memRead s.mem (addrAdd src (64 * j + i)).toNat = memRead m0 (addrAdd src (64 * j + i)).toNat := by
    rw [hm]
    exact memRead_writeBytes_other _ fun k hk => hsep _ (hlen i hi) _ (by omega)
  have h1 : (64 * j + i) / 64 = j := by omega
  have h2 : (64 * j + i) % 64 = i := by omega
  simp only [xorByteAt, textKeystream, hread, h1, h2]

theorem xorBlocks_prefix {src dst : Addr} {s : State} {n k : Nat} (hk : k ≤ blocksOf n) (hr : Readable s src (min n (64 * k)))
    (hw : Writable s dst (min n (64 * k))) (hb : s.blockStale = []) (hsep : ReadsFirst src dst (min n (64 * k))) :
    ∃ d u c x w, performAll ((List.range k).flatMap (xorBlock src dst n)) s =
      .ok { s with
        mem := writeBytes s.mem dst (min n (64 * k)) (xorByteAt s src)
        undo := u
        dataLatch := d
        jctr := c
        cs := x
        ks := w } := by
  induction k with
  | zero => exact ⟨s.dataLatch, s.undo, s.jctr, s.cs, s.ks, by simp⟩
  | succ k ih =>
    obtain ⟨d, u, c, x, w, hd⟩ := ih (by omega) (fun i hi => hr i (by omega)) (fun i hi => hw i (by omega))
      fun i hi j hj => hsep i (by omega) j hj
    have hlt : 64 * k < n := by unfold blocksOf at hk; omega
    have hend : 64 * k + min 64 (n - 64 * k) = min n (64 * (k + 1)) := by omega
    rw [← hend] at hr hw hsep
    obtain ⟨d', u', hd'⟩ := xorBlock_spec (src := src) (dst := dst) (n := n) (j := k)
      (s := { s with
        mem := writeBytes s.mem dst (min n (64 * k)) (xorByteAt s src)
        undo := u
        dataLatch := d
        jctr := c
        cs := x
        ks := w }) hr hw hb hsep s.mem (by rw [Nat.min_eq_right (by omega)]; rfl)
    refine ⟨d', u', BitVec.ofNat 32 (1 + k), .replicate 16 0, .replicate 64 0, ?_⟩
    rw [performAll_range_succ hd, hd', hend]
    rfl

/-- XorPass when every access completes (41_encrypt.md R100): OUT holds the text XORed with the keystream, JCTR is 0. -/
theorem xorPass_spec {src dst : Addr} {s : State} {n : Nat} (hr : Readable s src n) (hw : Writable s dst n)
    (hb : s.blockStale = []) (hsep : ReadsFirst src dst n) :
    ∃ d u x w, performAll (xorPass src dst n) s =
      .ok { s with
        mem := writeBytes s.mem dst n (xorByteAt s src)
        undo := u
        dataLatch := d
        jctr := 0
        cs := x
        ks := w } := by
  have hn : min n (64 * blocksOf n) = n := by unfold blocksOf; omega
  obtain ⟨d, u, c, x, w, hd⟩ := xorBlocks_prefix (n := n) (k := blocksOf n) (src := src) (dst := dst) (s := s) (le_refl _)
    (by rw [hn]; exact hr) (by rw [hn]; exact hw) hb (by rw [hn]; exact hsep)
  refine ⟨d, u, x, w, ?_⟩
  rw [xorPass, performAll_append_ok hd]
  simp only [performAll_reg, performReg, performAll_nil, hn]

/-- A loop of more than n rounds, from round n on. -/
theorem flatMap_range_split {f : Nat → List Act} {n m : Nat} (h : n < m) :
    ∃ rest, (List.range m).flatMap f = (List.range n).flatMap f ++ (f n ++ rest) := by
  obtain ⟨r, rfl⟩ : ∃ r, m = n + (r + 1) := ⟨m - n - 1, by omega⟩
  refine ⟨((List.range r).map fun i => n + (i + 1)).flatMap f, ?_⟩
  rw [List.range_add, List.flatMap_append, List.range_succ_eq_map]
  simp
  rfl

/-- XorPass up to text byte j, whose accesses come next (41_encrypt.md R110). -/
theorem xorPass_stop {src dst : Addr} {s : State} {n j : Nat} (hj : j < n) (hr : Readable s src j) (hw : Writable s dst j)
    (hb : s.blockStale = []) (hsep : ReadsFirst src dst j) :
    ∃ rest d u c x w, performAll (xorPass src dst n) s = performAll (xorByte src dst j (j % 64) ++ rest) { s with
        mem := writeBytes s.mem dst j (xorByteAt s src)
        undo := u
        dataLatch := d
        jctr := c
        cs := x
        ks := w } := by
  have hdm : 64 * (j / 64) + j % 64 = j := Nat.div_add_mod j 64
  have hblk : j / 64 < blocksOf n := by unfold blocksOf; omega
  have hmin : min n (64 * (j / 64)) = 64 * (j / 64) := by omega
  obtain ⟨rest1, h1⟩ := flatMap_range_split (f := xorBlock src dst n) hblk
  obtain ⟨rest2, h2⟩ := flatMap_range_split (f := fun i => xorByte src dst (64 * (j / 64) + i) i)
    (show j % 64 < min 64 (n - 64 * (j / 64)) by omega)
  obtain ⟨d, u, c, x, w, hd⟩ := xorBlocks_prefix (n := n) (k := j / 64) (src := src) (dst := dst) (s := s) (by omega)
    (fun i hi => hr i (by omega)) (fun i hi => hw i (by omega)) hb fun i hi k hk => hsep i (by omega) k hk
  rw [hmin] at hd
  obtain ⟨d', u', hd'⟩ := xorBytes_prefix (src := src) (dst := dst) (base := 64 * (j / 64)) (k := j % 64)
    (s := { s with
      mem := writeBytes s.mem dst (64 * (j / 64)) (xorByteAt s src)
      undo := u
      dataLatch := d
      jctr := BitVec.ofNat 32 (1 + j / 64)
      cs := .replicate 16 0
      ks := Config.chachaBlock (Config.chachaInit s.key (BitVec.ofNat 32 (1 + j / 64)) s.nl) })
    (fun i hi => hr _ (by omega)) (fun i hi => hw _ (by omega)) hb (fun i hi k hk => hsep _ (by omega) _ (by omega))
  refine ⟨rest2 ++ [.reg .clearKs] ++ rest1 ++ [.reg (.setJctr 0)], d', u',
    BitVec.ofNat 32 (1 + j / 64), .replicate 16 0,
    Config.chachaBlock (Config.chachaInit s.key (BitVec.ofNat 32 (1 + j / 64)) s.nl), ?_⟩
  · rw [xorPass, h1, List.append_assoc, performAll_append_ok hd, xorBlock]
    simp only [List.cons_append, List.nil_append, List.append_assoc, performAll_reg, performReg]
    rw [h2, List.append_assoc, performAll_append_ok hd']
    simp only [List.append_assoc, hdm]
    congr 2
    rw [← hdm, ← writeBytes_append, hdm]
    refine writeBytes_congr fun i hi => ?_
    have hread : memRead (writeBytes s.mem dst (64 * (j / 64)) (xorByteAt s src)) (addrAdd src (64 * (j / 64) + i)).toNat =
        memRead s.mem (addrAdd src (64 * (j / 64) + i)).toNat :=
      memRead_writeBytes_other _ fun k hk => hsep _ (by omega) _ (by omega)
    have e1 : (64 * (j / 64) + i) / 64 = j / 64 := by omega
    have e2 : (64 * (j / 64) + i) % 64 = i := by omega
    simp only [xorByteAt, textKeystream, hread, e1, e2]
/-! ## Writing bytes -/

theorem writeTag_prefix {a : Addr} {s : State} {k : Nat} (h : Writable s a k) (hb : s.blockStale = []) :
    ∃ u, performAll ((List.range k).map fun i => Act.wr (addrAdd a i) (.etag i)) s =
      .ok { s with mem := writeBytes s.mem a k (byteAt s.etag), undo := u } := by
  induction k with
  | zero => exact ⟨s.undo, rfl⟩
  | succ k ih =>
    obtain ⟨u, hd⟩ := ih fun i hi => h i (by omega)
    refine ⟨((addrAdd a k).toNat, memRead (writeBytes s.mem a k (byteAt s.etag)) (addrAdd a k).toNat) :: u, ?_⟩
    rw [List.range_succ, List.map_append, performAll_append_ok hd, writeBytes_succ, List.map_singleton, performAll_wr ?_ ?_ ?_]
    · rfl
    · exact (h k (by omega)).1
    · exact (h k (by omega)).2
    · exact hb

/-- The tag write (41_encrypt.md R102). -/
theorem writeTag_spec {a : Addr} {s : State} (h : Writable s a 16) (hb : s.blockStale = []) :
    ∃ u, performAll (writeTag a) s = .ok { s with mem := writeBytes s.mem a 16 (byteAt s.etag), undo := u } :=
  writeTag_prefix h hb

/-- The zero-fill (43_decrypt.md R129). -/
theorem zeroFill_spec {a : Addr} {s : State} {n : Nat} (h : Writable s a n) (hb : s.blockStale = []) :
    ∃ u, performAll (zeroFill a n) s = .ok { s with mem := writeBytes s.mem a n (fun _ => 0), undo := u } := by
  induction n with
  | zero => exact ⟨s.undo, rfl⟩
  | succ n ih =>
    obtain ⟨u, hd⟩ := ih fun i hi => h i (by omega)
    rw [zeroFill] at hd
    refine ⟨((addrAdd a n).toNat, memRead (writeBytes s.mem a n (fun _ => 0)) (addrAdd a n).toNat) :: u, ?_⟩
    rw [zeroFill, List.range_succ, List.map_append, performAll_append_ok hd, writeBytes_succ, List.map_singleton,
      performAll_wr ?_ ?_ ?_]
    · rfl
    · exact (h n (by omega)).1
    · exact (h n (by omega)).2
    · exact hb

/-- A loop of more than n one-element rounds, from round n on. -/
theorem map_range_split {f : Nat → Act} {n m : Nat} (h : n < m) :
    ∃ rest, (List.range m).map f = (List.range n).map f ++ f n :: rest := by
  obtain ⟨rest, hr⟩ := flatMap_range_split (f := fun i => [f i]) h
  exact ⟨rest, by simpa [← List.map_eq_flatMap] using hr⟩

/-- The tag write up to byte i, whose write comes next (41_encrypt.md R110). -/
theorem writeTag_stop {a : Addr} {s : State} {i : Nat} (hi : i < 16) (h : Writable s a i) (hb : s.blockStale = []) :
    ∃ rest u, performAll (writeTag a) s =
      performAll (.wr (addrAdd a i) (.etag i) :: rest) { s with mem := writeBytes s.mem a i (byteAt s.etag), undo := u } := by
  obtain ⟨rest, hr⟩ := map_range_split (f := fun i => Act.wr (addrAdd a i) (.etag i)) hi
  obtain ⟨u, hd⟩ := writeTag_prefix (a := a) (s := s) (k := i) h hb
  exact ⟨rest, u, by rw [writeTag, hr, performAll_append_ok hd]⟩

/-- The zero-fill up to byte i, whose write comes next (43_decrypt.md R135). -/
theorem zeroFill_stop {a : Addr} {s : State} {n i : Nat} (hi : i < n) (h : Writable s a i) (hb : s.blockStale = []) :
    ∃ rest u, performAll (zeroFill a n) s =
      performAll (.wr (addrAdd a i) (.lit 0) :: rest) { s with mem := writeBytes s.mem a i (fun _ => 0), undo := u } := by
  obtain ⟨rest, hr⟩ := map_range_split (f := fun i => Act.wr (addrAdd a i) (.lit 0)) hi
  obtain ⟨u, hd⟩ := zeroFill_spec (a := a) (s := s) (n := i) h hb
  rw [zeroFill] at hd
  exact ⟨rest, u, by rw [zeroFill, hr, performAll_append_ok hd]⟩

/-! ## The comparator -/

theorem diffSteps_prefix (s : State) (k : Nat) :
    ∃ x, performAll ((List.range k).map fun i => Act.reg (.diffStep i)) s = .ok { s with diff := x } ∧
      (x = 0 ↔ s.diff = 0 ∧ ∀ i < k, byteAt s.etag i = byteAt s.stag i) := by
  induction k with
  | zero => exact ⟨s.diff, rfl, by simp⟩
  | succ k ih =>
    obtain ⟨x, hx, hz⟩ := ih
    refine ⟨x ||| (byteAt s.etag k ^^^ byteAt s.stag k), ?_, ?_⟩
    · rw [List.range_succ, List.map_append, performAll_append_ok hx]
      rfl
    · refine BitVec.or_eq_zero_iff.trans ((and_congr hz BitVec.xor_eq_zero_iff).trans ?_)
      constructor
      · rintro ⟨⟨h0, h⟩, hk⟩
        refine ⟨h0, fun i hi => ?_⟩
        rcases Nat.lt_succ_iff_lt_or_eq.mp hi with hi | rfl
        · exact h i hi
        · exact hk
      · rintro ⟨h0, h⟩
        exact ⟨⟨h0, fun i hi => h i (by omega)⟩, h k (by omega)⟩

/-- CtEqual (43_decrypt.md R126): ok is 1 exactly when the tags are equal, and DIFF, ETAG and STAG are zero afterwards. -/
theorem ctEqual_spec (s : State) :
    performAll ctEqual s = .ok { s with
      okBit := decide (s.etag = s.stag)
      diff := 0
      etag := .replicate 16 0
      stag := .replicate 16 0 } := by
  obtain ⟨x, hx, hz⟩ := diffSteps_prefix { s with diff := 0 } 16
  have hbit : (x == 0) = decide (s.etag = s.stag) := by
    rw [Bool.eq_iff_iff, beq_iff_eq, hz, decide_eq_true_iff]
    exact ⟨fun h => vector_ext_byteAt h.2, fun h => ⟨rfl, fun i _ => by rw [h]⟩⟩
  rw [ctEqual, List.append_assoc]
  simp only [List.cons_append, List.nil_append, performAll_reg, performReg]
  rw [performAll_append_ok hx]
  simp only [performAll_reg, performReg, performAll_nil, hbit]

end Sys2Proof.Machine
end

