-- ==== Sys2Proof/Laws/TagInput.lean ====
section
/-! SUPPORT. The Tag-Input Builder (42_tag_input.md): padding and lengths (R111, R113), the bytes of the message (R114, R116), the encoder
(R115), MacOver (R117, R118) and the elements of TAGIN (R121). -/

namespace Sys2Proof.Machine

/-! ## Lengths -/

/-- L + padlen(L) is a multiple of 16 (42_tag_input.md R111). -/
theorem add_padLen_mod (l : Nat) : (l + padLen l) % 16 = 0 := by unfold padLen; omega

@[simp] theorem regionBytes_length (m : List Host.Cell) (a : Addr) (n : Nat) : (regionBytes m a n).length = n := by
  simp [regionBytes]

theorem regionBytes_getElem? (m : List Host.Cell) (a : Addr) (n i : Nat) :
    (regionBytes m a n)[i]? = if i < n then some (memRead m (addrAdd a i).toNat) else none := by
  unfold regionBytes
  by_cases h : i < n <;> simp [h]

theorem regionBytes_congr {m m' : List Host.Cell} {a : Addr} {n : Nat}
    (h : ∀ i < n, memRead m (addrAdd a i).toNat = memRead m' (addrAdd a i).toNat) : regionBytes m a n = regionBytes m' a n := by
  unfold regionBytes
  exact List.map_congr_left fun i hi => h i (List.mem_range.mp hi)

@[simp] theorem le64_length (v : Nat) : (le64 v).length = 8 := by simp [le64]

theorem le64_getElem? (v i : Nat) (h : i < 8) : (le64 v)[i]? = some (le64Byte v i) := by simp [le64, h]

@[simp] theorem pad16_length (x : List Byte) : (pad16 x).length = padLen x.length := by simp [pad16]

/-- len(TagInput(A, C)) = MsgLen(len(A), len(C)) (42_tag_input.md R114). -/
theorem tagInput_length_eq (a c : List Byte) : (tagInput a c).length = messageLen a.length c.length := by
  simp only [tagInput, List.length_append, pad16_length, le64_length, messageLen]

/-! ## The bytes of the message, segment by segment (42_tag_input.md R116) -/

theorem tagInput_ad {x y : List Byte} {k : Nat} (h : k < x.length) : (tagInput x y)[k]? = x[k]? := by
  simp only [tagInput, List.append_assoc]
  rw [List.getElem?_append_left h]

theorem tagInput_padAd {x y : List Byte} {k : Nat} (h : x.length ≤ k) (h' : k < x.length + padLen x.length) :
    (tagInput x y)[k]? = some 0 := by
  simp only [tagInput, List.append_assoc]
  rw [List.getElem?_append_right h, List.getElem?_append_left (by rw [pad16_length]; omega), pad16,
    List.getElem?_replicate, if_pos (by omega)]

theorem tagInput_ct {x y : List Byte} {k : Nat} (h : x.length + padLen x.length ≤ k)
    (h' : k < x.length + padLen x.length + y.length) :
    (tagInput x y)[k]? = y[k - (x.length + padLen x.length)]? := by
  simp only [tagInput, List.append_assoc]
  rw [List.getElem?_append_right (by omega), List.getElem?_append_right (by rw [pad16_length]; omega), pad16_length,
    List.getElem?_append_left (by omega), Nat.sub_sub]

theorem tagInput_padCt {x y : List Byte} {k : Nat} (h : x.length + padLen x.length + y.length ≤ k)
    (h' : k < x.length + padLen x.length + (y.length + padLen y.length)) : (tagInput x y)[k]? = some 0 := by
  simp only [tagInput, List.append_assoc]
  rw [List.getElem?_append_right (by omega), List.getElem?_append_right (by rw [pad16_length]; omega), pad16_length,
    List.getElem?_append_right (by omega), List.getElem?_append_left (by rw [pad16_length]; omega), pad16,
    List.getElem?_replicate, if_pos (by omega)]

theorem tagInput_lenAd {x y : List Byte} {k : Nat} (h : x.length + padLen x.length + (y.length + padLen y.length) ≤ k)
    (h' : k < x.length + padLen x.length + (y.length + padLen y.length) + 8) :
    (tagInput x y)[k]? =
      some (le64Byte x.length (k - (x.length + padLen x.length) - (y.length + padLen y.length))) := by
  simp only [tagInput, List.append_assoc]
  rw [List.getElem?_append_right (by omega), List.getElem?_append_right (by rw [pad16_length]; omega), pad16_length,
    List.getElem?_append_right (by omega), List.getElem?_append_right (by rw [pad16_length]; omega), pad16_length,
    List.getElem?_append_left (by rw [le64_length]; omega), le64_getElem? _ _ (by omega)]
  congr 2
  omega

theorem tagInput_lenCt {x y : List Byte} {k : Nat} (h : x.length + padLen x.length + (y.length + padLen y.length) + 8 ≤ k)
    (h' : k < messageLen x.length y.length) :
    (tagInput x y)[k]? =
      some (le64Byte y.length (k - (x.length + padLen x.length) - (y.length + padLen y.length) - 8)) := by
  unfold messageLen at h'
  simp only [tagInput, List.append_assoc]
  rw [List.getElem?_append_right (by omega), List.getElem?_append_right (by rw [pad16_length]; omega), pad16_length,
    List.getElem?_append_right (by omega), List.getElem?_append_right (by rw [pad16_length]; omega), pad16_length,
    List.getElem?_append_right (by rw [le64_length]; omega), le64_length, le64_getElem? _ _ (by omega)]
  congr 2
  omega

/-! ## The encoder -/

/-- Everything `emit` can do (42_tag_input.md R115): a constant byte of the message, or one read of the AD or the ciphertext whose byte
is the message's. -/
theorem emit_spec (m : List Host.Cell) (k a : Nat) (adAddr : Addr) (c : Nat) (ctAddr : Addr) (hk : k < messageLen a c) :
    (∃ b, emit k a adAddr c ctAddr = ([], .lit b) ∧
      (tagInput (regionBytes m adAddr a) (regionBytes m ctAddr c))[k]? = some b) ∨
    (∃ x, emit k a adAddr c ctAddr = ([.rd x], .data) ∧
      (tagInput (regionBytes m adAddr a) (regionBytes m ctAddr c))[k]? = some (memRead m x.toNat) ∧
      ((∃ i < a, x = addrAdd adAddr i) ∨ ∃ i < c, x = addrAdd ctAddr i)) := by
  unfold emit
  simp only
  split
  · next h =>
    refine .inr ⟨_, rfl, ?_, .inl ⟨k, h, rfl⟩⟩
    rw [tagInput_ad (x := regionBytes m adAddr a) (y := regionBytes m ctAddr c) (by simpa using h), regionBytes_getElem?, if_pos h]
  · split
    · next h h' =>
      exact .inl ⟨_, rfl, tagInput_padAd (x := regionBytes m adAddr a) (y := regionBytes m ctAddr c) (by simpa using h) (by simpa using h')⟩
    · split
      · next h h' h'' =>
        refine .inr ⟨_, rfl, ?_, .inr ⟨_, by omega, rfl⟩⟩
        rw [tagInput_ct (x := regionBytes m adAddr a) (y := regionBytes m ctAddr c) (by simpa using h') (by simpa using h''), regionBytes_length, regionBytes_getElem?,
          if_pos (by omega)]
      · split
        · next h h' h'' h3 =>
          exact .inl ⟨_, rfl, tagInput_padCt (x := regionBytes m adAddr a) (y := regionBytes m ctAddr c) (by simpa using h'') (by simpa using h3)⟩
        · split
          · next h h' h'' h3 h4 =>
            refine .inl ⟨_, rfl, ?_⟩
            rw [tagInput_lenAd (x := regionBytes m adAddr a) (y := regionBytes m ctAddr c) (by simpa using h3) (by simpa using h4)]
            simp only [regionBytes_length]
          · next h h' h'' h3 h4 =>
            refine .inl ⟨_, rfl, ?_⟩
            rw [tagInput_lenCt (x := regionBytes m adAddr a) (y := regionBytes m ctAddr c) (by simpa using h4) (by simpa using hk)]
            simp only [regionBytes_length]

/-- The reads `emit` makes are those of the address message byte k comes from. -/
theorem emit_source (k a : Nat) (adAddr : Addr) (c : Nat) (ctAddr : Addr) :
    (emit k a adAddr c ctAddr).1 = (messageSource a adAddr c ctAddr k).toList.map Act.rd := by
  unfold emit messageSource
  simp only
  split
  · rfl
  · split
    · next h => rw [if_neg (by omega)]; rfl
    · split
      · next h h' => rw [if_pos (by omega)]; rfl
      · next h h' =>
        have hn : ¬(a + padLen a ≤ k ∧ k < a + padLen a + c) := fun hk => h' hk.2
        simp only [hn, if_false]
        split
        · rfl
        · split <;> rfl

/-- The sources of a message are bytes of its AD and its ciphertext. -/
theorem messageSource_mem {a c k : Nat} {adAddr ctAddr x : Addr} (h : messageSource a adAddr c ctAddr k = some x) :
    (∃ i < a, x = addrAdd adAddr i) ∨ ∃ i < c, x = addrAdd ctAddr i := by
  unfold messageSource at h
  split at h
  · next hk => cases h; exact .inl ⟨k, hk, rfl⟩
  · split at h
    · next hk => cases h; exact .inr ⟨_, by omega, rfl⟩
    · cases h

/-! ## MacOver -/

theorem macSteps_prefix {a c : Nat} {adAddr ctAddr : Addr} {s : State} {k : Nat} (hk : k ≤ messageLen a c)
    (ha : Readable s adAddr a) (hc : Readable s ctAddr c) (hb : s.blockStale = []) :
    ∃ d e, performAll ((List.range k).flatMap (macStep a adAddr c ctAddr)) s =
      .ok { s with
        mac := { s.mac with
          msg := s.mac.msg ++ (tagInput (regionBytes s.mem adAddr a) (regionBytes s.mem ctAddr c)).take k }
        encK := e
        dataLatch := d } := by
  induction k with
  | zero => exact ⟨s.dataLatch, s.encK, by simp⟩
  | succ k ih =>
    obtain ⟨d, e, hd⟩ := ih (by omega)
    rcases emit_spec s.mem k a adAddr c ctAddr (by omega) with ⟨b, he, hm⟩ | ⟨x, he, hm, hx⟩
    · refine ⟨d, BitVec.ofNat 64 k, ?_⟩
      rw [performAll_range_succ hd, macStep, he, List.take_add_one, hm]
      simp only [List.cons_append, List.nil_append, performAll_reg, performReg, performAll_nil, valOf,
        Option.toList_some, List.append_assoc]
    · have hr : rdOk s x = true ∧ ordinary s x = true := by
        rcases hx with ⟨i, hi, rfl⟩ | ⟨i, hi, rfl⟩
        · exact ha i hi
        · exact hc i hi
      refine ⟨memRead s.mem x.toNat, BitVec.ofNat 64 k, ?_⟩
      rw [performAll_range_succ hd, macStep, he, List.take_add_one, hm]
      simp only [List.cons_append, List.nil_append, performAll_reg, performReg]
      rw [performAll_rd ?_ ?_ ?_]
      · simp only [performAll_reg, performReg, performAll_nil, valOf, Option.toList_some, List.append_assoc]
      · exact hr.1
      · exact hr.2
      · exact hb

/-- MacOver when every access completes (42_tag_input.md R118): ETAG holds the tag, under OTK, of the tag-input message; OTK is zero. -/
theorem macOver_spec {a c : Nat} {adAddr ctAddr : Addr} {s : State} (ha : Readable s adAddr a) (hc : Readable s ctAddr c)
    (hb : s.blockStale = []) :
    ∃ d u, performAll (macOver a adAddr c ctAddr) s =
      .ok { s with
        mac := u
        otk := .replicate 32 0
        encK := 0
        etag := Config.poly1305Tag s.otk (tagInput (regionBytes s.mem adAddr a) (regionBytes s.mem ctAddr c))
        dataLatch := d } := by
  obtain ⟨d, e, hd⟩ := macSteps_prefix (s := { s with mac := { key := s.otk, msg := [], tag := .replicate 16 0 } })
    (le_refl (messageLen a c)) ha hc hb
  have hfull : (tagInput (regionBytes s.mem adAddr a) (regionBytes s.mem ctAddr c)).take (messageLen a c) =
      tagInput (regionBytes s.mem adAddr a) (regionBytes s.mem ctAddr c) :=
    List.take_of_length_le (by rw [tagInput_length_eq]; simp)
  simp only [List.nil_append, hfull] at hd
  refine ⟨d, ⟨s.otk, tagInput (regionBytes s.mem adAddr a) (regionBytes s.mem ctAddr c),
    Config.poly1305Tag s.otk (tagInput (regionBytes s.mem adAddr a) (regionBytes s.mem ctAddr c))⟩, ?_⟩
  · rw [macOver, List.append_assoc]
    simp only [List.cons_append, List.nil_append, performAll_reg, performReg]
    rw [performAll_append_ok hd]
    simp only [performAll_reg, performReg, performAll_nil]

/-! ## TAGIN -/

/-- Byte k of a message, 0 past its end. -/
def messageByte (l : List Byte) (k : Nat) : Byte := l[k]?.getD 0

/-- The first k bytes of a message written to OUT, when their reads and writes complete (42_tag_input.md R121). -/
theorem taginSteps_prefix {a c : Nat} {adAddr ctAddr outAddr : Addr} {s : State} {k : Nat} (hk : k ≤ messageLen a c)
    (hr : ∀ k' < k, ∀ x, messageSource a adAddr c ctAddr k' = some x → rdOk s x = true ∧ ordinary s x = true)
    (hw : Writable s outAddr k) (hb : s.blockStale = [])
    (hsa : ∀ i < a, ∀ j < messageLen a c, (addrAdd adAddr i).toNat ≠ (addrAdd outAddr j).toNat)
    (hsc : ∀ i < c, ∀ j < messageLen a c, (addrAdd ctAddr i).toNat ≠ (addrAdd outAddr j).toNat) :
    ∃ d e u, performAll ((List.range k).flatMap (taginStep a adAddr c ctAddr outAddr)) s =
      .ok { s with
        mem := writeBytes s.mem outAddr k
          (messageByte (tagInput (regionBytes s.mem adAddr a) (regionBytes s.mem ctAddr c)))
        undo := u
        encK := e
        dataLatch := d } := by
  induction k with
  | zero => exact ⟨s.dataLatch, s.encK, s.undo, rfl⟩
  | succ k ih =>
    obtain ⟨d, e, u, hd⟩ := ih (by omega) (fun k' hk' => hr k' (by omega)) fun k' hk' => hw k' (by omega)
    rcases emit_spec s.mem k a adAddr c ctAddr (by omega) with ⟨b, he, hm⟩ | ⟨x, he, hm, hx⟩
    · refine ⟨d, BitVec.ofNat 64 k, ?_, ?_⟩
      rotate_left
      · rw [performAll_range_succ hd, taginStep, he, writeBytes_succ]
        simp only [List.cons_append, List.nil_append, performAll_reg, performReg]
        rw [performAll_wr ?_ ?_ ?_]
        · simp only [performAll_nil, valOf, messageByte, hm, Option.getD_some]
          rfl
        · exact (hw k (by omega)).1
        · exact (hw k (by omega)).2
        · exact hb
    · have hrx : rdOk s x = true ∧ ordinary s x = true ∧ ∀ j < k, x.toNat ≠ (addrAdd outAddr j).toNat := by
        have hsrc : messageSource a adAddr c ctAddr k = some x := by
          have h := emit_source k a adAddr c ctAddr
          rw [he] at h
          cases hq : messageSource a adAddr c ctAddr k <;> rw [hq] at h <;> simp_all
        obtain ⟨h1, h2⟩ := hr k (by omega) x hsrc
        rcases hx with ⟨i, hi, rfl⟩ | ⟨i, hi, rfl⟩
        · exact ⟨h1, h2, fun j hj => hsa i hi j (by omega)⟩
        · exact ⟨h1, h2, fun j hj => hsc i hi j (by omega)⟩
      refine ⟨memRead s.mem x.toNat, BitVec.ofNat 64 k, ?_, ?_⟩
      rotate_left
      · rw [performAll_range_succ hd, taginStep, he, writeBytes_succ]
        simp only [List.cons_append, List.nil_append, performAll_reg, performReg]
        rw [performAll_rd ?_ ?_ ?_]
        · rw [performAll_wr ?_ ?_ ?_]
          · simp only [performAll_nil, valOf, messageByte, hm, Option.getD_some, memRead_writeBytes_other _ hrx.2.2]
            rfl
          · exact (hw k (by omega)).1
          · exact (hw k (by omega)).2
          · exact hb
        · exact hrx.1
        · exact hrx.2.1
        · exact hb

end Sys2Proof.Machine
end

