-- ==== Sys2Proof/Laws/Validation.lean ====
section
/-! SUPPORT. Validate (40_context.md R85): when it passes, what it reads, and what a passing validation says of the regions. -/

namespace Sys2Proof.Machine

/-- Validate passes exactly when no check fails (40_context.md R85). -/
theorem validate_eq_none {i : Instr} {s : State} : validate i s = none ↔
    failsContext i s = false ∧ failsKey i s = false ∧ failsMissing i s = false ∧ failsMismatch i s = false ∧
      failsNonce i s = false ∧ failsTag i s = false ∧ failsOverflow i s = false ∧ failsRange i s = false ∧
      failsOverlap i s = false := by
  unfold validate checks
  cases failsContext i s <;> cases failsKey i s <;> cases failsMissing i s <;> cases failsMismatch i s <;>
    cases failsNonce i s <;> cases failsTag i s <;> cases failsOverflow i s <;> cases failsRange i s <;>
    cases failsOverlap i s <;> simp [firstFailure]

theorem firstFailure_cons (b : Bool) (e : ErrCode) (t : List (Bool × ErrCode)) :
    firstFailure ((b, e) :: t) = if b then some e else firstFailure t := by cases b <;> rfl

/-! ## When Validate raises each code: that check fails and the earlier ones pass (40_context.md R85) -/

theorem validate_eq_contextUnusable {i : Instr} {s : State} : validate i s = some .contextUnusable ↔ failsContext i s = true := by
  simp only [validate, checks, firstFailure_cons, firstFailure]
  split_ifs <;> simp_all

theorem validate_eq_invalidKey {i : Instr} {s : State} : validate i s = some .invalidKey ↔
    failsContext i s = false ∧ failsKey i s = true := by
  simp only [validate, checks, firstFailure_cons, firstFailure]
  split_ifs <;> simp_all

theorem validate_eq_missingArgument {i : Instr} {s : State} : validate i s = some .missingArgument ↔
    failsContext i s = false ∧ failsKey i s = false ∧ failsMissing i s = true := by
  simp only [validate, checks, firstFailure_cons, firstFailure]
  split_ifs <;> simp_all

theorem validate_eq_lengthMismatch {i : Instr} {s : State} : validate i s = some .lengthMismatch ↔
    failsContext i s = false ∧ failsKey i s = false ∧ failsMissing i s = false ∧ failsMismatch i s = true := by
  simp only [validate, checks, firstFailure_cons, firstFailure]
  split_ifs <;> simp_all

theorem validate_eq_invalidNonceLength {i : Instr} {s : State} : validate i s = some .invalidNonceLength ↔
    failsContext i s = false ∧ failsKey i s = false ∧ failsMissing i s = false ∧ failsMismatch i s = false ∧ failsNonce i s
    = true := by
  simp only [validate, checks, firstFailure_cons, firstFailure]
  split_ifs <;> simp_all

theorem validate_eq_invalidTagLength {i : Instr} {s : State} : validate i s = some .invalidTagLength ↔
    failsContext i s = false ∧ failsKey i s = false ∧ failsMissing i s = false ∧ failsMismatch i s = false ∧ failsNonce i s
    = false ∧ failsTag i s = true := by
  simp only [validate, checks, firstFailure_cons, firstFailure]
  split_ifs <;> simp_all

theorem validate_eq_lengthOverflow {i : Instr} {s : State} : validate i s = some .lengthOverflow ↔
    failsContext i s = false ∧ failsKey i s = false ∧ failsMissing i s = false ∧ failsMismatch i s = false ∧ failsNonce i s
    = false ∧ failsTag i s = false ∧ failsOverflow i s = true := by
  simp only [validate, checks, firstFailure_cons, firstFailure]
  split_ifs <;> simp_all

theorem validate_eq_addressRange {i : Instr} {s : State} : validate i s = some .addressRange ↔
    failsContext i s = false ∧ failsKey i s = false ∧ failsMissing i s = false ∧ failsMismatch i s = false ∧ failsNonce i s
    = false ∧ failsTag i s = false ∧ failsOverflow i s = false ∧ failsRange i s = true := by
  simp only [validate, checks, firstFailure_cons, firstFailure]
  split_ifs <;> simp_all

theorem validate_eq_bufferOverlap {i : Instr} {s : State} : validate i s = some .bufferOverlap ↔
    failsContext i s = false ∧ failsKey i s = false ∧ failsMissing i s = false ∧ failsMismatch i s = false ∧ failsNonce i s
    = false ∧ failsTag i s = false ∧ failsOverflow i s = false ∧ failsRange i s = false ∧ failsOverlap i s = true := by
  simp only [validate, checks, firstFailure_cons, firstFailure]
  split_ifs <;> simp_all

/-- The codes Validate can raise (40_context.md R85): never OK, TagMismatch, IllegalCommand or BusError. -/
theorem validate_codes {i : Instr} {s : State} {e : ErrCode} (h : validate i s = some e) :
    e ≠ .ok ∧ e ≠ .tagMismatch ∧ e ≠ .illegalCommand ∧ e ≠ .busError := by
  simp only [validate, checks, firstFailure_cons, firstFailure] at h
  split_ifs at h <;> (cases h; decide)

/-! ## What an operand reads -/

theorem isPresent_congr {s t : State} (hp : t.present = s.present) (b : Buf) : isPresent t b = isPresent s b := by
  rw [isPresent, isPresent, hp]

theorem addrOf_congr {s t : State} (hd : t.desc = s.desc) (b : Buf) : addrOf t b = addrOf s b := by rw [addrOf, addrOf, hd]

theorem lenOf_congr {s t : State} (hd : t.desc = s.desc) (b : Buf) : lenOf t b = lenOf s b := by rw [lenOf, lenOf, hd]

theorem adLen_congr {s t : State} (hd : t.desc = s.desc) (hp : t.present = s.present) : adLen t = adLen s := by
  rw [adLen, adLen, isPresent_congr hp, lenOf_congr hd]

theorem textLen_congr {s t : State} (hd : t.desc = s.desc) (i : Instr) : textLen i t = textLen i s := by
  cases i <;> simp only [textLen, lenOf_congr hd]

/-- Validate reads only the descriptors, PRESENT and CTX (40_context.md R82). -/
theorem validate_congr {s t : State} (hd : t.desc = s.desc) (hp : t.present = s.present) (hc : t.ctx = s.ctx) (i : Instr) :
    validate i t = validate i s := by
  cases i <;> simp only [validate, checks, failsContext, failsKey, failsMissing, failsMismatch, failsNonce, failsTag,
    failsOverflow, failsRange, failsOverlap, outputRegions, usedRegions, inPlacePair, regionOf, textLen_congr hd,
    adLen_congr hd hp, lenOf_congr hd, addrOf_congr hd, isPresent_congr hp, requiredBufs, hc]

@[simp] theorem validate_accept (i : Instr) (w : Word) (tr : List Elem) (s : State) :
    validate i (accept w tr s) = validate i s := validate_congr rfl rfl rfl i

/-- A region in range does not pass 2^64 (20_memory.md R56). -/
theorem inRange_le {r : Range} (h : inRange r = true) (hpos : 0 < r.size) : r.base + r.size ≤ 2 ^ 64 := by
  simp only [inRange, Bool.or_eq_true, beq_iff_eq, decide_eq_true_eq] at h
  omega

/-- Two regions in range that do not overlap have no byte in common (20_memory.md R57). -/
theorem apart_of_not_overlaps {a b : Addr} {l l' : Nat} (hr : inRange ⟨a.toNat, l⟩ = true) (hq : inRange ⟨b.toNat, l'⟩ = true)
    (h : overlaps ⟨a.toNat, l⟩ ⟨b.toNat, l'⟩ = false) :
    ∀ i < l, ∀ j < l', (addrAdd a i).toNat ≠ (addrAdd b j).toNat := by
  intro i hi j hj
  have h1 := inRange_le hr (by simp only; omega)
  have h2 := inRange_le hq (by simp only; omega)
  simp only at h1 h2
  rw [addrAdd_toNat (by omega), addrAdd_toNat (by omega)]
  intro he
  have : overlaps ⟨a.toNat, l⟩ ⟨b.toNat, l'⟩ = true := by
    simp only [overlaps, Bool.and_eq_true, decide_eq_true_eq]
    omega
  rw [this] at h
  cases h

/-- No check of the range or the overlap fails, said of two used regions. -/
theorem used_inRange {i : Instr} {s : State} (h : failsRange i s = false) {u : Buf × Range} (hu : u ∈ usedRegions i s) :
    inRange u.2 = true := by
  rw [failsRange, List.any_eq_false] at h
  simpa using h u hu

theorem used_not_overlaps {i : Instr} {s : State} (h : failsOverlap i s = false) {o u : Buf × Range}
    (ho : o ∈ usedRegions i s) (hout : (outputBufs i).contains o.1 = true) (hu : u ∈ usedRegions i s) (hne : u.1 ≠ o.1) :
    overlaps o.2 u.2 = false ∨ inPlacePair i s o.1 u.1 = true := by
  rw [failsOverlap, List.any_eq_false] at h
  have h1 := h o (List.mem_filter.mpr ⟨ho, hout⟩)
  rw [Bool.not_eq_true, List.any_eq_false] at h1
  have h2 := h1 u hu
  by_cases hv : overlaps o.2 u.2 = true
  · refine .inr ?_
    have hn : (u.1 != o.1) = true := bne_iff_ne.mpr hne
    simpa [hn, hv] using h2
  · exact .inl (by simpa using hv)

/-- In place or apart, XorPass reads each byte before it is overwritten (41_encrypt.md R100). -/
theorem readsFirst_of_eq {a : Addr} {n : Nat} (h : inRange ⟨a.toNat, n⟩ = true) : ReadsFirst a a n := by
  intro i hi j hj
  have h1 := inRange_le h (by simp only; omega)
  simp only at h1
  rw [addrAdd_toNat (by omega), addrAdd_toNat (by omega)]
  omega

/-- What validation says of the text of a cipher command: every region in range, OUT apart from AD, and IN read before it is
overwritten. -/
structure CipherFacts (i : Instr) (s : State) (outLen : Nat) : Prop where
  keyed : s.ctx = .keyed
  out_le : outLen = 0 ∨ (addrOf s .out).toNat + outLen ≤ 2 ^ 64
  message_le : messageLen (adLen s) (textLen i s) ≤ 2 ^ 64 - 1
  out_ad : ∀ k < adLen s, ∀ j < outLen, (addrAdd (addrOf s .ad) k).toNat ≠ (addrAdd (addrOf s .out) j).toNat
  out_inp : ReadsFirst (addrOf s .inp) (addrOf s .out) (textLen i s)

theorem out_le_of_inRange {a : Addr} {n : Nat} (h : inRange ⟨a.toNat, n⟩ = true) : n = 0 ∨ a.toNat + n ≤ 2 ^ 64 := by
  simpa [inRange] using h

theorem apart_symm {a b : Addr} {l l' : Nat} (h : ∀ i < l, ∀ j < l', (addrAdd a i).toNat ≠ (addrAdd b j).toNat) :
    ∀ i < l', ∀ j < l, (addrAdd b i).toNat ≠ (addrAdd a j).toNat := fun i hi j hj => (h j hj i hi).symm

/-- OUT against IN in a cipher command: apart, or at the same address. -/
theorem readsFirst_of_pair {s : State} {n inLen outLen : Nat} (hn : n ≤ inLen) (hm : n ≤ outLen)
    (hi : inRange (regionOf s .inp inLen) = true) (ho : inRange (regionOf s .out outLen) = true)
    (h : overlaps (regionOf s .out outLen) (regionOf s .inp inLen) = false ∨ addrOf s .out = addrOf s .inp) :
    ReadsFirst (addrOf s .inp) (addrOf s .out) n := by
  rcases h with h | h
  · intro i hi' j hj
    exact (apart_of_not_overlaps ho hi h j (by omega) i (by omega)).symm
  · rw [h]
    intro i hi' j hj
    exact readsFirst_of_eq hi i (by omega) j hj

theorem cipherFacts {i : Instr} {s : State} {inLen outLen : Nat} (hi : i = .enc ∨ i = .encc ∨ i = .dec ∨ i = .decc)
    (hv : validate i s = none) (had : (Buf.ad, regionOf s .ad (adLen s)) ∈ usedRegions i s)
    (hinp : (Buf.inp, regionOf s .inp inLen) ∈ usedRegions i s) (hout : (Buf.out, regionOf s .out outLen) ∈ usedRegions i s)
    (h1 : textLen i s ≤ inLen) (h2 : textLen i s ≤ outLen) : CipherFacts i s outLen := by
  obtain ⟨hctx, -, -, -, -, -, hov, hrange, hover⟩ := validate_eq_none.mp hv
  have hob : (outputBufs i).contains .out = true := by rcases hi with rfl | rfl | rfl | rfl <;> rfl
  have hpair : ∀ b, inPlacePair i s .out b = true → b = .inp ∧ addrOf s .out = addrOf s .inp := by
    intro b hb
    rcases hi with rfl | rfl | rfl | rfl <;> simpa [inPlacePair] using hb
  have hkeyed : s.ctx = .keyed := by
    rcases hi with rfl | rfl | rfl | rfl <;> simpa [failsContext] using hctx
  have hmsg : messageLen (adLen s) (textLen i s) ≤ 2 ^ 64 - 1 := by
    rcases hi with rfl | rfl | rfl | rfl <;>
      (simp only [failsOverflow, Bool.or_eq_false_iff, decide_eq_false_iff_not, Nat.not_lt] at hov; exact hov.2)
  refine ⟨hkeyed, out_le_of_inRange (used_inRange hrange hout), hmsg, ?_, ?_⟩
  · rcases used_not_overlaps hover hout hob had (fun hc => nomatch hc) with h | h
    · exact apart_symm (apart_of_not_overlaps (used_inRange hrange hout) (used_inRange hrange had) h)
    · exact absurd (hpair _ h).1 (fun hc => nomatch hc)
  · refine readsFirst_of_pair h1 h2 (used_inRange hrange hinp) (used_inRange hrange hout) ?_
    rcases used_not_overlaps hover hout hob hinp (fun hc => nomatch hc) with h | h
    · exact .inl h
    · exact .inr (hpair _ h).2

/-- What validation says of each cipher command, with the number of bytes it stores at OUT (40_context.md R93, R94). -/
theorem encFacts {s : State} (hv : validate .enc s = none) : CipherFacts .enc s (textLen .enc s) :=
  cipherFacts (by simp) hv (by simp [usedRegions]) (inLen := textLen .enc s) (by simp [usedRegions]) (by simp [usedRegions])
    (le_refl _) (le_refl _)

theorem decFacts {s : State} (hv : validate .dec s = none) : CipherFacts .dec s (textLen .dec s) :=
  cipherFacts (by simp) hv (by simp [usedRegions]) (inLen := textLen .dec s) (by simp [usedRegions]) (by simp [usedRegions])
    (le_refl _) (le_refl _)

theorem enccFacts {s : State} (hv : validate .encc s = none) : CipherFacts .encc s (textLen .encc s + 16) :=
  cipherFacts (by simp) hv (by simp [usedRegions]) (inLen := textLen .encc s) (by simp [usedRegions]) (by simp [usedRegions])
    (le_refl _) (by omega)

theorem deccFacts {s : State} (hv : validate .decc s = none) : CipherFacts .decc s (textLen .decc s) :=
  cipherFacts (by simp) hv (by simp [usedRegions]) (inLen := textLen .decc s + 16) (by simp [usedRegions])
    (by simp [usedRegions]) (by omega) (le_refl _)

/-- OUT and TAG of ENC have no byte in common. -/
theorem encTag_apart {s : State} (hv : validate .enc s = none) :
    (addrOf s .tag).toNat + 16 ≤ 2 ^ 64 ∧
    ∀ i < textLen .enc s, ∀ j < 16, (addrAdd (addrOf s .out) i).toNat ≠ (addrAdd (addrOf s .tag) j).toNat := by
  obtain ⟨-, -, -, -, -, -, -, hr, ho⟩ := validate_eq_none.mp hv
  have h1 : (Buf.out, regionOf s .out (textLen .enc s)) ∈ usedRegions .enc s := by simp [usedRegions]
  have h2 : (Buf.tag, regionOf s .tag 16) ∈ usedRegions .enc s := by simp [usedRegions]
  have hin := used_inRange hr h2
  refine ⟨inRange_le hin (by simp [regionOf]), ?_⟩
  rcases used_not_overlaps ho h1 rfl h2 (fun h => nomatch h) with h | h
  · exact apart_of_not_overlaps (used_inRange hr h1) hin h
  · simp [inPlacePair] at h

/-- What validation says of TAGIN: OUT in range and apart from AD and IN (40_context.md R93, R94). -/
theorem taginFacts {s : State} (hv : validate .tagin s = none) :
    (addrOf s .out).toNat + messageLen (adLen s) (lenOf s .inp) ≤ 2 ^ 64 ∧
    (∀ i < adLen s, ∀ j < messageLen (adLen s) (lenOf s .inp),
      (addrAdd (addrOf s .ad) i).toNat ≠ (addrAdd (addrOf s .out) j).toNat) ∧
    ∀ i < lenOf s .inp, ∀ j < messageLen (adLen s) (lenOf s .inp),
      (addrAdd (addrOf s .inp) i).toNat ≠ (addrAdd (addrOf s .out) j).toNat := by
  obtain ⟨-, -, -, -, -, -, -, hr, ho⟩ := validate_eq_none.mp hv
  have h1 : (Buf.out, regionOf s .out (messageLen (adLen s) (lenOf s .inp))) ∈ usedRegions .tagin s := by
    simp [usedRegions, textLen]
  have h2 : (Buf.ad, regionOf s .ad (adLen s)) ∈ usedRegions .tagin s := by simp [usedRegions]
  have h3 : (Buf.inp, regionOf s .inp (lenOf s .inp)) ∈ usedRegions .tagin s := by simp [usedRegions, textLen]
  refine ⟨inRange_le (used_inRange hr h1) (by simp only [regionOf, messageLen]; omega), ?_, ?_⟩
  · rcases used_not_overlaps ho h1 rfl h2 (fun h => nomatch h) with h | h
    · exact apart_symm (apart_of_not_overlaps (used_inRange hr h1) (used_inRange hr h2) h)
    · simp [inPlacePair] at h
  · rcases used_not_overlaps ho h1 rfl h3 (fun h => nomatch h) with h | h
    · exact apart_symm (apart_of_not_overlaps (used_inRange hr h1) (used_inRange hr h3) h)
    · simp [inPlacePair] at h

end Sys2Proof.Machine
end

