-- ==== Sys2Proof/Laws/Commands.lean ====
section
/-! SUPPORT. What a whole command does: the access traces it can perform after Validate, everything exec can answer, and the elements of
each command when its accesses complete (41_encrypt.md, 42_tag_input.md R121, 43_decrypt.md, 40_context.md). -/

namespace Sys2Proof.Machine

/-! ## Everything exec can answer -/

/-- The elements a command can perform between Validate and Scrub, each list with the code it ends with when no access fails
(43_decrypt.md R127: DEC and DECC have one list for each value of ok). -/
def bodies (i : Instr) (s : State) : List (List Act × ErrCode) :=
  match i with
  | .loadkey => [(loadkeyActs s, .ok)]
  | .enc => [(encActs s, .ok)]
  | .encc => [(enccActs s, .ok)]
  | .dec => [(decVerifyActs s ++ acceptActs .dec s, .ok), (decVerifyActs s ++ rejectActs .dec s, .tagMismatch)]
  | .decc => [(deccVerifyActs s ++ acceptActs .decc s, .ok), (deccVerifyActs s ++ rejectActs .decc s, .tagMismatch)]
  | .tagin => [(taginActs s, .ok)]
  | .release => [(releaseActs, .ok)]

/-- The state a command starts on: accepted, with its trace (60_exceptions.md R141). -/
def begun (i : Instr) (s : State) : State := accept (encode i) (startTrace (some i)) s

@[simp] theorem decodeCommand_encode (i : Instr) : decodeCommand (encode i) = some i := by cases i <;> rfl

@[simp] theorem running_begun (i : Instr) (s : State) : running (begun i s) = some i := by
  rw [begun, running_accept, decodeCommand_encode]

theorem exec_busy {i : Instr} {s : State} (h : busy s = true) : exec i s = .next (ignoreWrite s) := by
  cases i <;> simp only [exec, execLoadkey, execEnc, execDec, execEncc, execDecc, execRelease, execTagin, issue, h, if_true]

/-- What a command does to the state it starts on. -/
def command (i : Instr) (t : State) : State :=
  match i with
  | .loadkey => validated .loadkey (fun t => runActs (loadkeyActs t) (conclude .ok) t) t
  | .enc => validated .enc (fun t => runActs (encActs t) (conclude .ok) t) t
  | .encc => validated .encc (fun t => runActs (enccActs t) (conclude .ok) t) t
  | .dec => validated .dec (fun t => runActs (decVerifyActs t) (verdict .dec) t) t
  | .decc => validated .decc (fun t => runActs (deccVerifyActs t) (verdict .decc) t) t
  | .tagin => validated .tagin (fun t => runActs (taginActs t) (conclude .ok) t) t
  | .release => runActs releaseActs (conclude .ok) t

theorem exec_idle {i : Instr} {s : State} (h : busy s = false) : exec i s = .next (command i (begun i s)) := by
  cases i <;>
    simp only [exec, execLoadkey, execEnc, execDec, execEncc, execDecc, execRelease, execTagin, issue, h, command, begun,
      startTrace] <;> rfl

theorem runActs_ok {l : List Act} {k : State → State} {s t : State} (h : performAll l s = .ok t) : runActs l k s = k t := by
  rw [runActs, h]

theorem runActs_error {l : List Act} {k : State → State} {s t : State} (h : performAll l s = .error t) :
    runActs l k s = conclude .busError t := by
  rw [runActs, h]

/-! ## The verdict of DEC and DECC -/

theorem acceptActs_congr {s t : State} (hd : t.desc = s.desc) (i : Instr) : acceptActs i t = acceptActs i s := by
  simp only [acceptActs, textLen_congr hd, addrOf_congr hd]

theorem rejectActs_congr {s t : State} (hd : t.desc = s.desc) (i : Instr) : rejectActs i t = rejectActs i s := by
  simp only [rejectActs, textLen_congr hd, addrOf_congr hd]

/-- A body with its code ends the command: it completes with the code, or stops at a bus error. -/
theorem verdict_cases (i : Instr) {l : List Act} {s t : State} (h : performAll l s = .ok t) :
    ∃ p ∈ [(l ++ acceptActs i s, ErrCode.ok), (l ++ rejectActs i s, ErrCode.tagMismatch)],
      verdict i t = runActs p.1 (conclude p.2) s := by
  have hd := (performAll_control_ok h).desc
  have key : ∀ r k, runActs r k t = runActs (l ++ r) k s := fun r k => by simp only [runActs, performAll_append_ok h]
  unfold verdict
  split
  · exact ⟨_, List.mem_cons_self .., by rw [acceptActs_congr hd, key]⟩
  · exact ⟨_, List.mem_cons_of_mem _ (List.mem_cons_self ..), by rw [rejectActs_congr hd, key]⟩

/-- A bus error in the first part of a body is one in the whole. -/
theorem performAll_append_error {l r : List Act} {s t : State} (h : performAll l s = .error t) :
    performAll (l ++ r) s = .error t := by
  rw [performAll_append, h]

theorem decrypt_cases (i : Instr) (l : List Act) (s : State) :
    ∃ p ∈ [(l ++ acceptActs i s, ErrCode.ok), (l ++ rejectActs i s, ErrCode.tagMismatch)],
      runActs l (verdict i) s = runActs p.1 (conclude p.2) s := by
  cases h : performAll l s with
  | ok t =>
    rw [runActs_ok h]
    exact verdict_cases i h
  | error t =>
    rw [runActs_error h]
    exact ⟨_, List.mem_cons_self .., by rw [runActs_error (performAll_append_error h)]⟩

/-- Everything a command can do, from the state it starts on: Validate fails and raises its code; or it performs one of its bodies, to
its end and with its code, or up to a bus error. -/
theorem command_cases (i : Instr) (t : State) :
    (∃ e, i ≠ .release ∧ validate i t = some e ∧ command i t = conclude e t) ∨
    ((i = .release ∨ validate i t = none) ∧ ∃ p ∈ bodies i t, command i t = runActs p.1 (conclude p.2) t) := by
  have of_body : ∀ (j : Instr) (body : State → State), j ≠ .release → command j t = validated j body t →
      (∃ p ∈ bodies j t, body t = runActs p.1 (conclude p.2) t) →
      (∃ e, j ≠ .release ∧ validate j t = some e ∧ command j t = conclude e t) ∨
      ((j = .release ∨ validate j t = none) ∧ ∃ p ∈ bodies j t, command j t = runActs p.1 (conclude p.2) t) := by
    intro j body hj hc hb
    rw [hc]
    unfold validated
    cases h : validate j t with
    | some e => exact .inl ⟨e, hj, rfl, rfl⟩
    | none => exact .inr ⟨.inr rfl, hb⟩
  cases i with
  | release => exact .inr ⟨.inl rfl, _, List.mem_cons_self .., rfl⟩
  | loadkey => exact of_body _ _ (by decide) rfl ⟨_, List.mem_cons_self .., rfl⟩
  | enc => exact of_body _ _ (by decide) rfl ⟨_, List.mem_cons_self .., rfl⟩
  | encc => exact of_body _ _ (by decide) rfl ⟨_, List.mem_cons_self .., rfl⟩
  | tagin => exact of_body _ _ (by decide) rfl ⟨_, List.mem_cons_self .., rfl⟩
  | dec => exact of_body _ _ (by decide) rfl (decrypt_cases .dec _ t)
  | decc => exact of_body _ _ (by decide) rfl (decrypt_cases .decc _ t)

/-- Everything exec can answer while no command runs. -/
theorem exec_cases {i : Instr} {s : State} (h : busy s = false) :
    (∃ e, i ≠ .release ∧ validate i s = some e ∧ exec i s = .next (conclude e (begun i s))) ∨
    ((i = .release ∨ validate i s = none) ∧ ∃ p ∈ bodies i (begun i s),
      (∃ u, performAll p.1 (begun i s) = .ok u ∧ exec i s = .next (conclude p.2 u)) ∨
      (∃ u, performAll p.1 (begun i s) = .error u ∧ exec i s = .next (conclude .busError u))) := by
  rw [exec_idle h]
  have hv : validate i (begun i s) = validate i s := validate_accept ..
  rcases command_cases i (begun i s) with ⟨e, h1, h2, h3⟩ | ⟨h1, p, hp, h2⟩
  · exact .inl ⟨e, h1, hv ▸ h2, by rw [h3]⟩
  · refine .inr ⟨hv ▸ h1, p, hp, ?_⟩
    cases hq : performAll p.1 (begun i s) with
    | ok u => exact .inl ⟨u, rfl, by rw [h2, runActs_ok hq]⟩
    | error u => exact .inr ⟨u, rfl, by rw [h2, runActs_error hq]⟩

/-- A command that passes Validate and whose only body completes. -/
theorem exec_completes {i : Instr} {s u : State} {l : List Act} {e : ErrCode} (h : busy s = false)
    (hv : i = .release ∨ validate i s = none) (hb : bodies i (begun i s) = [(l, e)])
    (hl : performAll l (begun i s) = .ok u) : exec i s = .next (conclude e u) := by
  rcases exec_cases (i := i) h with ⟨e', h1, h2, -⟩ | ⟨-, p, hp, h2⟩
  · rcases hv with hv | hv
    · exact absurd hv h1
    · rw [hv] at h2; cases h2
  · rw [hb, List.mem_singleton] at hp
    subst hp
    rcases h2 with ⟨u', hu, h3⟩ | ⟨u', hu, h3⟩
    · rw [hl, Except.ok.injEq] at hu
      rw [h3, hu]
    · rw [hl] at hu; cases hu

/-- A command that passes Validate and whose only body stops at a bus error (20_memory.md R54). -/
theorem exec_stops {i : Instr} {s u : State} {l : List Act} {e : ErrCode} (h : busy s = false)
    (hv : i = .release ∨ validate i s = none) (hb : bodies i (begun i s) = [(l, e)])
    (hl : performAll l (begun i s) = .error u) : exec i s = .next (conclude .busError u) := by
  rcases exec_cases (i := i) h with ⟨e', h1, h2, -⟩ | ⟨-, p, hp, h2⟩
  · rcases hv with hv | hv
    · exact absurd hv h1
    · rw [hv] at h2; cases h2
  · rw [hb, List.mem_singleton] at hp
    subst hp
    rcases h2 with ⟨u', hu, h3⟩ | ⟨u', hu, h3⟩
    · rw [hl] at hu; cases hu
    · rw [hl, Except.error.injEq] at hu
      rw [h3, hu]

/-- A command whose Validate fails (40_context.md R82, R85). -/
theorem exec_failed {i : Instr} {s : State} {e : ErrCode} (h : busy s = false) (hi : i ≠ .release)
    (hv : validate i s = some e) : exec i s = .next (conclude e (begun i s)) := by
  rcases exec_cases (i := i) h with ⟨e', -, h2, h3⟩ | ⟨h1, -⟩
  · rw [hv, Option.some.injEq] at h2
    rw [h3, h2]
  · rcases h1 with h1 | h1
    · exact absurd h1 hi
    · rw [hv] at h1; cases h1

end Sys2Proof.Machine
end

