-- ==== Sys2Proof/Laws/Results.lean ====
section
/-! SUPPORT. What memory, and the bit ok, hold after the elements of each command when every access completes: ENC and ENCC (41_encrypt.md
R104), DEC and DECC (43_decrypt.md R127, R128) and TAGIN (42_tag_input.md R121). -/

namespace Sys2Proof.Machine

/-! ## The text -/

@[simp] theorem xorText_length (key : Vector Byte 32) (nonce : Vector Byte 12) (p : List Byte) :
    (xorText key nonce p).length = p.length := by simp [xorText]

theorem xorText_getElem? (key : Vector Byte 32) (nonce : Vector Byte 12) (p : List Byte) (i : Nat) :
    (xorText key nonce p)[i]? = p[i]?.map fun b => b ^^^ textKeystream key nonce i := by simp [xorText]

/-- XOR with the same keystream is its own inverse (43_decrypt.md R136). -/
theorem xorText_xorText (key : Vector Byte 32) (nonce : Vector Byte 12) (p : List Byte) :
    xorText key nonce (xorText key nonce p) = p := by
  apply List.ext_getElem?
  intro i
  rw [xorText_getElem?, xorText_getElem?]
  cases p[i]? <;> simp

/-- What OUT holds after XorPass (41_encrypt.md R104). -/
theorem regionBytes_xorText {s : State} {src dst : Addr} {n : Nat} (h : n = 0 ∨ dst.toNat + n ≤ 2 ^ 64) :
    regionBytes (writeBytes s.mem dst n (xorByteAt s src)) dst n = xorText s.key s.nl (regionBytes s.mem src n) := by
  apply List.ext_getElem?
  intro i
  rw [xorText_getElem?, regionBytes_getElem?, regionBytes_getElem?]
  by_cases hi : i < n
  · simp only [hi, if_true, Option.map_some]
    rw [memRead_writeBytes_at _ (by omega) hi, xorByteAt]
  · simp only [hi, if_false, Option.map_none]

theorem regionBytes_writeBytes_other {m : List Host.Cell} {a b : Addr} {n k : Nat} {f : Nat → Byte}
    (h : ∀ i < k, ∀ j < n, (addrAdd b i).toNat ≠ (addrAdd a j).toNat) :
    regionBytes (writeBytes m a n f) b k = regionBytes m b k :=
  regionBytes_congr fun i hi => memRead_writeBytes_other _ (h i hi)

/-- The bytes of an n-byte register written at a are that register read back. -/
theorem loadBytes_writeBytes {m : List Host.Cell} {a : Addr} {n : Nat} (x : Vector Byte n) (h : a.toNat + n ≤ 2 ^ 64) :
    loadBytes n (writeBytes m a n (byteAt x)) a = x :=
  vector_ext_byteAt fun i hi => by rw [byteAt_loadBytes _ _ _ _ hi, memRead_writeBytes_at _ h hi]

theorem regionBytes_writeBytes_message {m : List Host.Cell} {a : Addr} {n : Nat} {l : List Byte} (hl : l.length = n)
    (h : n = 0 ∨ a.toNat + n ≤ 2 ^ 64) : regionBytes (writeBytes m a n (messageByte l)) a n = l := by
  apply List.ext_getElem?
  intro i
  rw [regionBytes_getElem?]
  by_cases hi : i < n
  · rw [if_pos hi, memRead_writeBytes_at _ (by omega) hi, messageByte, List.getElem?_eq_getElem (by omega)]
    rfl
  · rw [if_neg hi, List.getElem?_eq_none (by omega)]

/-! ## ENC and ENCC -/

/-- The elements of ENC and ENCC up to the tag write. -/
def sealActs (s : State) (n : Nat) : List Act :=
  setMessageLen (adLen s) n ++ readNonce (addrOf s .nonce) ++ xorPass (addrOf s .inp) (addrOf s .out) n ++ deriveOtk ++
    macOver (adLen s) (addrOf s .ad) n (addrOf s .out)

theorem encActs_eq (s : State) : encActs s = sealActs s (textLen .enc s) ++ writeTag (addrOf s .tag) := rfl

theorem enccActs_eq (s : State) :
    enccActs s = sealActs s (textLen .encc s) ++ writeTag (addrAdd (addrOf s .out) (textLen .encc s)) := rfl

/-- ENC and ENCC up to the tag write: OUT holds the ciphertext, ETAG the tag over AD and ciphertext. -/
theorem sealActs_spec {s : State} {n : Nat} (hn : Readable s (addrOf s .nonce) 12) (hi : Readable s (addrOf s .inp) n)
    (ha : Readable s (addrOf s .ad) (adLen s)) (ho : Readable s (addrOf s .out) n) (hw : Writable s (addrOf s .out) n)
    (hb : s.blockStale = []) (hsep : ReadsFirst (addrOf s .inp) (addrOf s .out) n)
    (hle : n = 0 ∨ (addrOf s .out).toNat + n ≤ 2 ^ 64)
    (had : ∀ k < adLen s, ∀ j < n, (addrAdd (addrOf s .ad) k).toNat ≠ (addrAdd (addrOf s .out) j).toNat) :
    ∃ t, performAll (sealActs s n) s = .ok t ∧
      t.mem = writeBytes s.mem (addrOf s .out) n (xorByteAt { s with nl := nonceOf s } (addrOf s .inp)) ∧
      t.etag = tagFor s.key (nonceOf s) (adBytes s)
        (xorText s.key (nonceOf s) (regionBytes s.mem (addrOf s .inp) n)) ∧
      t.blockStale = [] := by
  obtain ⟨d1, h1⟩ := readNonce_spec (s := { s with msgLen := BitVec.ofNat 64 (messageLen (adLen s) n) }) hn hb
  have hnonce : nonceOf s = loadBytes 12 s.mem (addrOf s .nonce) := rfl
  rw [← hnonce] at h1
  obtain ⟨d2, u2, x2, w2, h2⟩ := xorPass_spec (src := addrOf s .inp) (dst := addrOf s .out) (n := n)
    (s := { s with msgLen := BitVec.ofNat 64 (messageLen (adLen s) n), nl := nonceOf s, dataLatch := d1 }) hi hw hb hsep
  obtain ⟨d3, u3, h3⟩ := macOver_spec (a := adLen s) (c := n) (adAddr := addrOf s .ad) (ctAddr := addrOf s .out)
    (s := { s with
      msgLen := BitVec.ofNat 64 (messageLen (adLen s) n)
      nl := nonceOf s
      mem := writeBytes s.mem (addrOf s .out) n (xorByteAt { s with nl := nonceOf s } (addrOf s .inp))
      undo := u2
      dataLatch := d2
      jctr := 0
      cs := .replicate 16 0
      ks := .replicate 64 0
      otk := oneTimeKey s.key (nonceOf s) }) ha ho hb
  refine ⟨_, Eq.trans ?_ h3, rfl, ?_, hb⟩
  · rw [sealActs, setMessageLen, List.append_assoc, List.append_assoc, List.append_assoc, List.cons_append, performAll_reg,
      List.nil_append]
    simp only [performReg]
    rw [performAll_append_ok h1, performAll_append_ok h2, performAll_append_ok (deriveOtk_spec _)]
    rfl
  · have hx := regionBytes_xorText (s := { s with nl := nonceOf s }) (src := addrOf s .inp) hle
    simp only at hx ⊢
    rw [tagFor, regionBytes_writeBytes_other had, hx, adBytes]

/-- ENC's and ENCC's elements when every access completes, with the tag written at `ta`. -/
theorem sealed_spec {s : State} {n : Nat} {ta : Addr} (hn : Readable s (addrOf s .nonce) 12)
    (hi : Readable s (addrOf s .inp) n) (ha : Readable s (addrOf s .ad) (adLen s)) (ho : Readable s (addrOf s .out) n)
    (hw : Writable s (addrOf s .out) n) (ht : Writable s ta 16) (hb : s.blockStale = [])
    (hsep : ReadsFirst (addrOf s .inp) (addrOf s .out) n) (hle : n = 0 ∨ (addrOf s .out).toNat + n ≤ 2 ^ 64)
    (had : ∀ k < adLen s, ∀ j < n, (addrAdd (addrOf s .ad) k).toNat ≠ (addrAdd (addrOf s .out) j).toNat) :
    ∃ t, performAll (sealActs s n ++ writeTag ta) s = .ok t ∧
      t.mem = writeBytes (writeBytes s.mem (addrOf s .out) n (xorByteAt { s with nl := nonceOf s } (addrOf s .inp))) ta 16
        (byteAt (tagFor s.key (nonceOf s) (adBytes s)
          (xorText s.key (nonceOf s) (regionBytes s.mem (addrOf s .inp) n)))) := by
  obtain ⟨t, h1, hm, he, hbt⟩ := sealActs_spec hn hi ha ho hw hb hsep hle had
  have hc := performAll_control_ok h1
  obtain ⟨u, h2⟩ := writeTag_spec (s := t) (a := ta)
    (fun k hk => by simp only [wrOk, ordinary, hc.wrFail, hc.special]; exact ht k hk) hbt
  exact ⟨_, Eq.trans (performAll_append_ok h1) h2, by simp only [hm, he]⟩

/-! ## DEC and DECC -/

/-- The elements of DEC and DECC up to the choice on ok. -/
def openActs (s : State) (n : Nat) (ta : Addr) : List Act :=
  setMessageLen (adLen s) n ++ readNonce (addrOf s .nonce) ++ deriveOtk ++
    macOver (adLen s) (addrOf s .ad) n (addrOf s .inp) ++ readTag ta ++ ctEqual

theorem decVerifyActs_eq (s : State) : decVerifyActs s = openActs s (textLen .dec s) (addrOf s .tag) := rfl

theorem deccVerifyActs_eq (s : State) :
    deccVerifyActs s = openActs s (textLen .decc s) (addrAdd (addrOf s .inp) (textLen .decc s)) := rfl

/-- DEC and DECC up to the choice: memory is unchanged, the nonce is latched, and ok says whether the tags are equal
(43_decrypt.md R126, R127). -/
theorem openActs_spec {s : State} {n : Nat} {ta : Addr} (hn : Readable s (addrOf s .nonce) 12)
    (hi : Readable s (addrOf s .inp) n) (ha : Readable s (addrOf s .ad) (adLen s)) (ht : Readable s ta 16)
    (hb : s.blockStale = []) :
    ∃ t, performAll (openActs s n ta) s = .ok t ∧ t.mem = s.mem ∧ t.key = s.key ∧ t.nl = nonceOf s ∧ t.blockStale = [] ∧
      t.okBit = decide (tagFor s.key (nonceOf s) (adBytes s) (regionBytes s.mem (addrOf s .inp) n) =
        loadBytes 16 s.mem ta) := by
  obtain ⟨d1, h1⟩ := readNonce_spec (s := { s with msgLen := BitVec.ofNat 64 (messageLen (adLen s) n) }) hn hb
  have hnonce : nonceOf s = loadBytes 12 s.mem (addrOf s .nonce) := rfl
  rw [← hnonce] at h1
  obtain ⟨d2, u2, h2⟩ := macOver_spec (a := adLen s) (c := n) (adAddr := addrOf s .ad) (ctAddr := addrOf s .inp)
    (s := { s with
      msgLen := BitVec.ofNat 64 (messageLen (adLen s) n)
      nl := nonceOf s
      dataLatch := d1
      jctr := 0
      cs := .replicate 16 0
      ks := .replicate 64 0
      otk := oneTimeKey s.key (nonceOf s) }) ha hi hb
  obtain ⟨d3, h3⟩ := readTag_spec (a := ta)
    (s := { s with
      msgLen := BitVec.ofNat 64 (messageLen (adLen s) n)
      nl := nonceOf s
      jctr := 0
      cs := .replicate 16 0
      ks := .replicate 64 0
      mac := u2
      otk := .replicate 32 0
      encK := 0
      etag := tagFor s.key (nonceOf s) (adBytes s) (regionBytes s.mem (addrOf s .inp) n)
      dataLatch := d2 }) ht hb
  refine ⟨_, Eq.trans ?_ (Eq.trans (performAll_append_ok h3) (ctEqual_spec _)), rfl, rfl, rfl, hb, rfl⟩
  rw [openActs, setMessageLen, List.append_assoc, List.append_assoc, List.append_assoc, List.append_assoc, List.cons_append,
    performAll_reg, List.nil_append]
  simp only [performReg]
  rw [performAll_append_ok h1, performAll_append_ok (deriveOtk_spec _), performAll_append_ok h2]
  rfl

/-! ## TAGIN -/

/-- TAGIN's elements when every access completes (42_tag_input.md R121): OUT holds the tag-input message. -/
theorem taginActs_spec {s : State} (ha : Readable s (addrOf s .ad) (adLen s))
    (hi : Readable s (addrOf s .inp) (lenOf s .inp)) (hw : Writable s (addrOf s .out) (messageLen (adLen s) (lenOf s .inp)))
    (hb : s.blockStale = [])
    (hsa : ∀ i < adLen s, ∀ j < messageLen (adLen s) (lenOf s .inp),
      (addrAdd (addrOf s .ad) i).toNat ≠ (addrAdd (addrOf s .out) j).toNat)
    (hsi : ∀ i < lenOf s .inp, ∀ j < messageLen (adLen s) (lenOf s .inp),
      (addrAdd (addrOf s .inp) i).toNat ≠ (addrAdd (addrOf s .out) j).toNat) :
    ∃ t, performAll (taginActs s) s = .ok t ∧
      t.mem = writeBytes s.mem (addrOf s .out) (messageLen (adLen s) (lenOf s .inp))
        (messageByte (tagInput (adBytes s) (textBytes .tagin s))) := by
  obtain ⟨d, e, u, h⟩ := taginSteps_prefix (adAddr := addrOf s .ad) (ctAddr := addrOf s .inp) (outAddr := addrOf s .out)
    (s := { s with msgLen := BitVec.ofNat 64 (messageLen (adLen s) (lenOf s .inp)) })
    (le_refl (messageLen (adLen s) (lenOf s .inp)))
    (fun k _ x hx => by
      rcases messageSource_mem hx with ⟨i, h, rfl⟩ | ⟨i, h, rfl⟩
      · exact ha i h
      · exact hi i h) hw hb hsa hsi
  refine ⟨_, Eq.trans ?_ (Eq.trans (performAll_append_ok (r := [.reg (.setEncK 0)]) h) rfl), rfl⟩
  show performAll ([.reg (.setMsgLen _)] ++ _ ++ [.reg (.setEncK 0)]) s = _
  rw [List.append_assoc, List.cons_append, performAll_reg, List.nil_append]
  rfl

end Sys2Proof.Machine
end

