-- ==== Sys2Proof/Laws/Frames.lean ====
section
/-! SUPPORT. What the elements of each command never touch: bytes outside its output regions (41_encrypt.md R105), KEY and CTX
(40_context.md R95), MSGLEN once set (42_tag_input.md R124); and where a bus error can come from (20_memory.md R54). -/

namespace Sys2Proof.Machine

/-! ## What holds of every element of a subroutine -/

/-- Every element satisfies P. -/
abbrev AllActs (P : Act → Prop) (l : List Act) : Prop := ∀ a ∈ l, P a

theorem allActs_append {P : Act → Prop} {l r : List Act} (h : AllActs P l) (k : AllActs P r) : AllActs P (l ++ r) := by
  intro a ha
  rcases List.mem_append.mp ha with ha | ha
  · exact h a ha
  · exact k a ha

theorem allActs_flatMap {P : Act → Prop} {f : Nat → List Act} {n : Nat} (h : ∀ i < n, AllActs P (f i)) :
    AllActs P ((List.range n).flatMap f) := by
  intro a ha
  obtain ⟨i, hi, ha⟩ := List.mem_flatMap.mp ha
  exact h i (List.mem_range.mp hi) a ha

theorem allActs_map {P : Act → Prop} {f : Nat → Act} {n : Nat} (h : ∀ i < n, P (f i)) :
    AllActs P ((List.range n).map f) := by
  intro a ha
  obtain ⟨i, hi, rfl⟩ := List.mem_map.mp ha
  exact h i (List.mem_range.mp hi)

theorem allActs_nil {P : Act → Prop} : AllActs P [] := fun _ h => nomatch h

theorem allActs_cons {P : Act → Prop} {a : Act} {l : List Act} (h : P a) (k : AllActs P l) : AllActs P (a :: l) := by
  intro b hb
  rcases List.mem_cons.mp hb with rfl | hb
  · exact h
  · exact k b hb

/-- A property of the elements the subroutines are made of: every register element but those on KEY, CTX and MSGLEN; the reads of the
addresses R; and the writes of the addresses W. -/
structure Admits (P : Act → Prop) (R W : Addr → Prop) : Prop where
  reg : ∀ r, keepsKey (.reg r) = true → (∀ v, r ≠ .setMsgLen v) → P (.reg r)
  rd : ∀ a, R a → P (.rd a)
  wr : ∀ a v, W a → P (.wr a v)

variable {P : Act → Prop} {R W : Addr → Prop}

theorem Admits.regs (h : Admits P R W) {l : List RegOp} (hl : ∀ r ∈ l, keepsKey (.reg r) = true ∧ ∀ v, r ≠ .setMsgLen v) :
    AllActs P (l.map Act.reg) := by
  intro a ha
  obtain ⟨r, hr, rfl⟩ := List.mem_map.mp ha
  exact h.reg r (hl r hr).1 (hl r hr).2

theorem Admits.readNonce (h : Admits P R W) {a : Addr} (hr : ∀ k < 12, R (addrAdd a k)) : AllActs P (readNonce a) :=
  allActs_flatMap fun _ hk => allActs_cons (h.rd _ (hr _ hk)) (allActs_cons (h.reg _ rfl (by simp)) allActs_nil)

theorem Admits.readTag (h : Admits P R W) {a : Addr} (hr : ∀ k < 16, R (addrAdd a k)) : AllActs P (readTag a) :=
  allActs_flatMap fun _ hk => allActs_cons (h.rd _ (hr _ hk)) (allActs_cons (h.reg _ rfl (by simp)) allActs_nil)

theorem Admits.deriveOtk (h : Admits P R W) : AllActs P deriveOtk :=
  h.regs (l := [.setJctr 0, .csInit, .ksBlock, .clearCs, .latchOtk, .clearKs]) (by simp [keepsKey])

theorem Admits.ctEqual (h : Admits P R W) : AllActs P ctEqual :=
  allActs_append (allActs_append (allActs_cons (h.reg _ rfl (by simp)) allActs_nil)
    (allActs_map fun _ _ => h.reg _ rfl (by simp)))
    (h.regs (l := [.latchOk, .clearDiff, .clearEtag, .clearStag]) (by simp [keepsKey]))

theorem Admits.emit (h : Admits P R W) {k a : Nat} {x : Addr} {c : Nat} {y : Addr} (ha : ∀ i < a, R (addrAdd x i))
    (hc : ∀ i < c, R (addrAdd y i)) : AllActs P (emit k a x c y).1 := by
  unfold Machine.emit
  simp only
  split
  · next hk => exact allActs_cons (h.rd _ (ha _ hk)) allActs_nil
  · split
    · exact allActs_nil
    · split
      · exact allActs_cons (h.rd _ (hc _ (by omega))) allActs_nil
      · split
        · exact allActs_nil
        · split <;> exact allActs_nil

theorem Admits.macOver (h : Admits P R W) {a : Nat} {x : Addr} {c : Nat} {y : Addr} (ha : ∀ i < a, R (addrAdd x i))
    (hc : ∀ i < c, R (addrAdd y i)) : AllActs P (macOver a x c y) :=
  allActs_append (allActs_append (allActs_cons (h.reg _ rfl (by simp)) allActs_nil)
    (allActs_flatMap fun _ _ => allActs_append (allActs_append (allActs_cons (h.reg _ rfl (by simp)) allActs_nil)
      (h.emit ha hc)) (allActs_cons (h.reg _ rfl (by simp)) allActs_nil)))
    (h.regs (l := [.macEnd, .clearOtk, .setEncK 0, .latchEtag]) (by simp [keepsKey]))

theorem Admits.xorPass (h : Admits P R W) {src dst : Addr} {n : Nat} (hr : ∀ k < n, R (addrAdd src k))
    (hw : ∀ k < n, W (addrAdd dst k)) : AllActs P (xorPass src dst n) := by
  refine allActs_append (allActs_flatMap fun j hj => ?_) (allActs_cons (h.reg _ rfl (by simp)) allActs_nil)
  refine allActs_append (allActs_append (h.regs (l := [.setJctr _, .csInit, .ksBlock, .clearCs]) (by simp [keepsKey]))
    (allActs_flatMap fun i hi => allActs_cons (h.rd _ (hr _ ?_)) (allActs_cons (h.wr _ _ (hw _ ?_)) allActs_nil)))
    (allActs_cons (h.reg _ rfl (by simp)) allActs_nil) <;>
  omega

theorem Admits.writeTag (h : Admits P R W) {a : Addr} (hw : ∀ k < 16, W (addrAdd a k)) : AllActs P (writeTag a) :=
  allActs_map fun i hi => h.wr _ _ (hw i hi)

theorem Admits.zeroFill (h : Admits P R W) {a : Addr} {n : Nat} (hw : ∀ k < n, W (addrAdd a k)) : AllActs P (zeroFill a n) :=
  allActs_map fun i hi => h.wr _ _ (hw i hi)

theorem Admits.sealActs (h : Admits P R W) {s : State} {n : Nat}
    (hm : P (.reg (.setMsgLen (BitVec.ofNat 64 (messageLen (adLen s) n)))))
    (hn : ∀ k < 12, R (addrAdd (addrOf s .nonce) k)) (hi : ∀ k < n, R (addrAdd (addrOf s .inp) k))
    (ha : ∀ k < adLen s, R (addrAdd (addrOf s .ad) k)) (ho : ∀ k < n, R (addrAdd (addrOf s .out) k))
    (hw : ∀ k < n, W (addrAdd (addrOf s .out) k)) : AllActs P (sealActs s n) :=
  allActs_append (allActs_append (allActs_append (allActs_append (allActs_cons hm allActs_nil) (h.readNonce hn))
    (h.xorPass hi hw)) h.deriveOtk) (h.macOver ha ho)

theorem Admits.openActs (h : Admits P R W) {s : State} {n : Nat} {ta : Addr}
    (hm : P (.reg (.setMsgLen (BitVec.ofNat 64 (messageLen (adLen s) n)))))
    (hn : ∀ k < 12, R (addrAdd (addrOf s .nonce) k)) (hi : ∀ k < n, R (addrAdd (addrOf s .inp) k))
    (ha : ∀ k < adLen s, R (addrAdd (addrOf s .ad) k)) (ht : ∀ k < 16, R (addrAdd ta k)) : AllActs P (openActs s n ta) :=
  allActs_append (allActs_append (allActs_append (allActs_append (allActs_append (allActs_cons hm allActs_nil)
    (h.readNonce hn)) h.deriveOtk) (h.macOver ha hi)) (h.readTag ht)) h.ctEqual

/-- An address a command reads (30_encoding.md R76). -/
def ReadsAt (i : Instr) (s : State) (x : Addr) : Prop := ∃ r ∈ readsOf i s, ∃ k < r.2, x = addrAdd r.1 k

/-- An address a command may write (30_encoding.md R76). -/
def WritesAt (i : Instr) (s : State) (x : Addr) : Prop := ∃ w ∈ writesOf i s, ∃ k < w.2, x = addrAdd w.1 k

theorem readsAt_of {i : Instr} {s : State} {a : Addr} {n : Nat} (h : (a, n) ∈ readsOf i s) :
    ∀ k < n, ReadsAt i s (addrAdd a k) := fun k hk => ⟨_, h, k, hk, rfl⟩

theorem writesAt_of {i : Instr} {s : State} {a : Addr} {n : Nat} (h : (a, n) ∈ writesOf i s) :
    ∀ k < n, WritesAt i s (addrAdd a k) := fun k hk => ⟨_, h, k, hk, rfl⟩

/-- LOADKEY's elements, for a property that also holds of its writes of KEY and CTX. -/
theorem Admits.loadkey {s : State} (h : Admits P (ReadsAt .loadkey s) W) (hk : ∀ r, keepsKey (.reg r) = false → P (.reg r)) :
    AllActs P (loadkeyActs s) :=
  allActs_append (allActs_append (allActs_cons (hk _ rfl) (allActs_cons (hk _ rfl) allActs_nil))
    (allActs_flatMap fun _ hi => allActs_cons (h.rd _ (readsAt_of (by simp [readsOf]) _ hi))
      (allActs_cons (hk _ rfl) allActs_nil))) (allActs_cons (hk _ rfl) allActs_nil)

/-- A property of every element of every body of a command that is neither LOADKEY nor RELEASE. -/
theorem Admits.bodies {i : Instr} {s : State} (h : Admits P (ReadsAt i s) (WritesAt i s))
    (hm : P (.reg (.setMsgLen (BitVec.ofNat 64 (messageLen (adLen s) (textLen i s))))))
    (h1 : i ≠ .loadkey) (h2 : i ≠ .release) : ∀ p ∈ bodies i s, AllActs P p.1 := by
  have r : ∀ a n, (a, n) ∈ readsOf i s → ∀ k < n, ReadsAt i s (addrAdd a k) := fun _ _ hm => readsAt_of hm
  have w : ∀ a n, (a, n) ∈ writesOf i s → ∀ k < n, WritesAt i s (addrAdd a k) := fun _ _ hm => writesAt_of hm
  cases i with
  | loadkey => exact absurd rfl h1
  | release => exact absurd rfl h2
  | enc =>
    intro p hp
    rw [Machine.bodies, List.mem_singleton] at hp
    subst hp
    exact allActs_append (h.sealActs hm (r _ _ (by simp [readsOf])) (r _ _ (by simp [readsOf])) (r _ _ (by simp [readsOf]))
      (r _ _ (by simp [readsOf])) (w _ _ (by simp [writesOf]))) (h.writeTag (w _ _ (by simp [writesOf])))
  | encc =>
    intro p hp
    rw [Machine.bodies, List.mem_singleton] at hp
    subst hp
    have ho := w (addrOf s .out) (textLen .encc s + 16) (by simp [writesOf])
    refine allActs_append (h.sealActs hm (r _ _ (by simp [readsOf])) (r _ _ (by simp [readsOf])) (r _ _ (by simp [readsOf]))
      (r _ _ (by simp [readsOf])) fun k hk => ho k (by omega)) (h.writeTag fun k hk => ?_)
    rw [addrAdd_addrAdd]
    exact ho _ (by omega)
  | dec =>
    have ho := w (addrOf s .out) (textLen .dec s) (by simp [writesOf])
    have hi := r (addrOf s .inp) (textLen .dec s) (by simp [readsOf])
    have hv := h.openActs hm (r _ _ (by simp [readsOf])) hi (r _ _ (by simp [readsOf]))
      (r (addrOf s .tag) 16 (by simp [readsOf]))
    intro p hp
    rw [Machine.bodies, List.mem_cons, List.mem_singleton] at hp
    rcases hp with rfl | rfl
    · exact allActs_append hv (h.xorPass hi ho)
    · exact allActs_append hv (h.zeroFill ho)
  | decc =>
    have ho := w (addrOf s .out) (textLen .decc s) (by simp [writesOf])
    have hi := r (addrOf s .inp) (textLen .decc s + 16) (by simp [readsOf])
    have hi' : ∀ k < textLen .decc s, ReadsAt .decc s (addrAdd (addrOf s .inp) k) := fun k hk => hi k (by omega)
    have hv := h.openActs hm (r _ _ (by simp [readsOf])) hi' (r _ _ (by simp [readsOf]))
      (ta := addrAdd (addrOf s .inp) (textLen .decc s)) fun k hk => by rw [addrAdd_addrAdd]; exact hi _ (by omega)
    intro p hp
    rw [Machine.bodies, List.mem_cons, List.mem_singleton] at hp
    rcases hp with rfl | rfl
    · exact allActs_append hv (h.xorPass hi' ho)
    · exact allActs_append hv (h.zeroFill ho)
  | tagin =>
    have ho := w (addrOf s .out) (messageLen (adLen s) (textLen .tagin s)) (by simp [writesOf])
    intro p hp
    rw [Machine.bodies, List.mem_singleton] at hp
    subst hp
    refine allActs_append (allActs_append (allActs_cons hm allActs_nil) (allActs_flatMap fun k hk => ?_))
      (allActs_cons (h.reg _ rfl (by simp)) allActs_nil)
    exact allActs_append (allActs_append (allActs_cons (h.reg _ rfl (by simp)) allActs_nil)
      (h.emit (r _ _ (by simp [readsOf])) (r _ _ (by simp [readsOf])))) (allActs_cons (h.wr _ _ (ho k hk)) allActs_nil)

/-! ## The consequences -/

/-- An element that stores to none of the addresses but those a command may write. -/
theorem storeAddrs_mem {l : List Act} {x : Nat} (h : x ∈ storeAddrs l) : ∃ a v, Act.wr a v ∈ l ∧ x = a.toNat := by
  induction l with
  | nil => exact nomatch h
  | cons b t ih =>
    cases b with
    | wr a v =>
      rcases List.mem_cons.mp h with rfl | h
      · exact ⟨a, v, List.mem_cons_self .., rfl⟩
      · obtain ⟨a', v', hm, hx⟩ := ih h
        exact ⟨a', v', List.mem_cons_of_mem _ hm, hx⟩
    | rd a =>
      obtain ⟨a', v', hm, hx⟩ := ih h
      exact ⟨a', v', List.mem_cons_of_mem _ hm, hx⟩
    | reg r =>
      obtain ⟨a', v', hm, hx⟩ := ih h
      exact ⟨a', v', List.mem_cons_of_mem _ hm, hx⟩

/-- LOADKEY and RELEASE store to no byte of memory (30_encoding.md R76). -/
theorem storeAddrs_loadkey (s : State) : storeAddrs (loadkeyActs s) = [] := by
  rw [loadkeyActs, storeAddrs_append, storeAddrs_append, storeAddrs_flatMap]
  simp [storeAddrs, readKeyByte]

/-- No body stores outside the regions the command writes (30_encoding.md R76; 41_encrypt.md R105). -/
theorem bodies_stores {i : Instr} {s : State} {x : Nat} (hx : OutsideWrites i s x) :
    ∀ p ∈ bodies i s, x ∉ storeAddrs p.1 := by
  by_cases h1 : i = .loadkey
  · subst h1
    intro p hp
    rw [bodies, List.mem_singleton] at hp
    subst hp
    simp [storeAddrs_loadkey]
  · by_cases h2 : i = .release
    · subst h2
      intro p hp
      rw [bodies, List.mem_singleton] at hp
      subst hp
      simp [releaseActs, storeAddrs]
    · intro p hp hmem
      obtain ⟨a, v, ha, rfl⟩ := storeAddrs_mem hmem
      have hA : Admits (fun b => ∀ a v, b = .wr a v → WritesAt i s a) (ReadsAt i s) (WritesAt i s) :=
        { reg := fun _ _ _ _ _ h => nomatch h
          rd := fun _ _ _ _ h => nomatch h
          wr := by
            intro a v hw b u h
            cases h
            exact hw }
      obtain ⟨w, hw, k, hk, rfl⟩ := hA.bodies (fun _ _ h => nomatch h) h1 h2 p hp _ ha a v rfl
      exact hx w hw k hk rfl

/-- The bodies of a command that is neither LOADKEY nor RELEASE write neither KEY nor CTX (40_context.md R95). -/
theorem bodies_keepsKey {i : Instr} {s : State} (h1 : i ≠ .loadkey) (h2 : i ≠ .release) :
    ∀ p ∈ bodies i s, ∀ a ∈ p.1, keepsKey a = true := by
  have hA : Admits (fun a => keepsKey a = true) (ReadsAt i s) (WritesAt i s) :=
    ⟨fun _ h _ => h, fun _ _ => rfl, fun _ _ _ => rfl⟩
  exact hA.bodies rfl h1 h2

/-! ## MSGLEN -/

theorem perform_msgLen {a : Act} {v : Addr} (h : ∀ x, a = .reg (.setMsgLen x) → x = v) {s : State} (hs : s.msgLen = v) :
    (outcomeState (perform a s)).msgLen = v := by
  cases a with
  | reg r => cases r <;> simp_all [perform, performReg]
  | rd a => rcases dmaRead_cases a s with ⟨b, d, h'⟩ | h' <;> simp [perform, h', hs]
  | wr a x => rcases dmaWrite_cases a (valOf s x) s with h' | h' | h' <;> simp [perform, h', hs]

/-- A command that uses the Tag-Input Builder leaves MSGLEN at its message length, also when a bus error ends it (42_tag_input.md R124). -/
theorem bodies_msgLen {i : Instr} {s : State} (h1 : i ≠ .loadkey) (h2 : i ≠ .release) {p : List Act × ErrCode}
    (hp : p ∈ bodies i s) :
    (outcomeState (performAll p.1 s)).msgLen = BitVec.ofNat 64 (messageLen (adLen s) (textLen i s)) := by
  have hA : Admits (fun a => ∀ x, a = .reg (.setMsgLen x) → x = BitVec.ofNat 64 (messageLen (adLen s) (textLen i s)))
      (ReadsAt i s) (WritesAt i s) :=
    { reg := fun r _ hr x hx => absurd (Act.reg.inj hx) (hr x)
      rd := fun _ _ _ h => nomatch h
      wr := fun _ _ _ _ h => nomatch h }
  have hall := hA.bodies (fun x hx => (RegOp.setMsgLen.inj (Act.reg.inj hx)).symm) h1 h2 p hp
  have hhead : ∃ rest, p.1 = .reg (.setMsgLen (BitVec.ofNat 64 (messageLen (adLen s) (textLen i s)))) :: rest := by
    cases i with
    | loadkey => exact absurd rfl h1
    | release => exact absurd rfl h2
    | enc => rw [bodies, List.mem_singleton] at hp; subst hp; exact ⟨_, rfl⟩
    | encc => rw [bodies, List.mem_singleton] at hp; subst hp; exact ⟨_, rfl⟩
    | tagin => rw [bodies, List.mem_singleton] at hp; subst hp; exact ⟨_, rfl⟩
    | dec => rw [bodies, List.mem_cons, List.mem_singleton] at hp; rcases hp with rfl | rfl <;> exact ⟨_, rfl⟩
    | decc => rw [bodies, List.mem_cons, List.mem_singleton] at hp; rcases hp with rfl | rfl <;> exact ⟨_, rfl⟩
  obtain ⟨rest, hr⟩ := hhead
  rw [hr] at hall ⊢
  rw [performAll_reg]
  exact performAll_induct (P := fun s t => s.msgLen = BitVec.ofNat 64 (messageLen (adLen _) (textLen i _)) →
      t.msgLen = BitVec.ofNat 64 (messageLen (adLen _) (textLen i _)))
    (fun _ h => h) (fun _ _ _ h k hs => k (h hs))
    (fun a ha _ hs => perform_msgLen (hall a (List.mem_cons_of_mem _ ha)) hs) _ rfl

/-! ## Bus errors (20_memory.md R54) -/

/-- The first address at which an access of the elements fails, if any does. -/
def failAddr (s : State) : List Act → Option Addr
  | [] => none
  | .reg _ :: t => failAddr s t
  | .rd a :: t => if rdOk s a then failAddr s t else some a
  | .wr a _ :: t => if wrOk s a then failAddr s t else some a

theorem failAddr_congr {s t : State} (hr : t.rdFail = s.rdFail) (hw : t.wrFail = s.wrFail) (l : List Act) :
    failAddr t l = failAddr s l := by
  induction l with
  | nil => rfl
  | cons a l ih =>
    have h1 : ∀ x, rdOk t x = rdOk s x := fun x => by rw [rdOk, rdOk, hr]
    have h2 : ∀ x, wrOk t x = wrOk s x := fun x => by rw [wrOk, wrOk, hw]
    cases a <;> simp only [failAddr, h1, h2, ih]

theorem failAddr_append (s : State) (l r : List Act) : failAddr s (l ++ r) = (failAddr s l).or (failAddr s r) := by
  induction l with
  | nil => rfl
  | cons a l ih =>
    cases a with
    | reg _ => exact ih
    | rd a =>
      simp only [List.cons_append, failAddr, ih]
      split <;> rfl
    | wr a v =>
      simp only [List.cons_append, failAddr, ih]
      split <;> rfl

/-- No access fails exactly when each is granted. -/
theorem failAddr_eq_none {s : State} {l : List Act} : failAddr s l = none ↔
    (∀ a, Act.rd a ∈ l → rdOk s a = true) ∧ ∀ a v, Act.wr a v ∈ l → wrOk s a = true := by
  induction l with
  | nil => simp [failAddr]
  | cons a l ih =>
    cases a with
    | reg r => simp [failAddr, ih]
    | rd a =>
      simp only [failAddr, List.mem_cons, Act.rd.injEq, reduceCtorEq, false_or, forall_eq_or_imp]
      split
      · next h => simp [ih, h]
      · next h => simp [h]
    | wr a v =>
      simp only [failAddr, List.mem_cons, Act.wr.injEq, reduceCtorEq, false_or]
      split
      · next h =>
        rw [ih]
        constructor
        · rintro ⟨hr, hw⟩
          refine ⟨hr, fun b u hb => ?_⟩
          rcases hb with ⟨rfl, -⟩ | hb
          · exact h
          · exact hw b u hb
        · rintro ⟨hr, hw⟩
          exact ⟨hr, fun b u hb => hw b u (.inr hb)⟩
      · next h =>
        simp only [reduceCtorEq, false_iff, not_and]
        intro _ hw
        exact h (hw a v (.inl ⟨rfl, rfl⟩))

/-- A failing access is one of the elements' accesses, and it is not granted. -/
theorem failAddr_eq_some {s : State} {l : List Act} {a : Addr} (h : failAddr s l = some a) :
    (Act.rd a ∈ l ∧ rdOk s a = false) ∨ ∃ v, Act.wr a v ∈ l ∧ wrOk s a = false := by
  induction l with
  | nil => exact nomatch h
  | cons b l ih =>
    have hrest : failAddr s l = some a → (Act.rd a ∈ b :: l ∧ rdOk s a = false) ∨ ∃ v, Act.wr a v ∈ b :: l ∧ wrOk s a = false := by
      intro h
      rcases ih h with ⟨h1, h2⟩ | ⟨v, h1, h2⟩
      · exact .inl ⟨List.mem_cons_of_mem _ h1, h2⟩
      · exact .inr ⟨v, List.mem_cons_of_mem _ h1, h2⟩
    cases b with
    | reg r => exact hrest h
    | rd x =>
      simp only [failAddr] at h
      split at h
      · exact hrest h
      · next hx =>
        cases h
        exact .inl ⟨List.mem_cons_self .., by simpa using hx⟩
    | wr x v =>
      simp only [failAddr] at h
      split at h
      · exact hrest h
      · next hx =>
        cases h
        exact .inr ⟨v, List.mem_cons_self .., by simpa using hx⟩

/-- Whether a sequence completes, and where it stops, depends only on which accesses the platform grants (60_exceptions.md R145). -/
theorem performAll_outcome (l : List Act) (s : State) :
    (failAddr s l = none ∧ ∃ t, performAll l s = .ok t) ∨
    ∃ a u, failAddr s l = some a ∧ performAll l s = .error (busErrorAt a u) ∧ SameControl s u ∧ u.errAddr = s.errAddr := by
  induction l generalizing s with
  | nil => exact .inl ⟨rfl, s, rfl⟩
  | cons b l ih =>
    have hrest : ∀ t, perform b s = .ok t → failAddr s (b :: l) = failAddr s l →
        (failAddr s (b :: l) = none ∧ ∃ t, performAll (b :: l) s = .ok t) ∨
        ∃ a u, failAddr s (b :: l) = some a ∧ performAll (b :: l) s = .error (busErrorAt a u) ∧ SameControl s u ∧
          u.errAddr = s.errAddr := by
      intro t ht hf
      have hc : SameControl s t := by
        have := perform_control b s
        rwa [ht] at this
      have hp : performAll (b :: l) s = performAll l t := by simp only [performAll, ht]
      rw [hf, hp, ← failAddr_congr hc.rdFail hc.wrFail]
      rcases ih t with h | ⟨a, u, h1, h2, h3, h4⟩
      · exact .inl h
      · exact .inr ⟨a, u, h1, h2, hc.trans' h3, h4.trans (perform_errAddr ht)⟩
    cases b with
    | reg r => exact hrest _ rfl rfl
    | rd x =>
      cases hx : rdOk s x with
      | true =>
        have hok : ∃ t, perform (.rd x) s = .ok t := by
          simp only [perform, dmaRead, hx, if_true]
          split <;> exact ⟨_, rfl⟩
        obtain ⟨t, ht⟩ := hok
        exact hrest t ht (by simp only [failAddr, hx, if_true])
      | false =>
        refine .inr ⟨x, s, ?_, ?_, SameControl.rfl' s, rfl⟩
        · simp [failAddr, hx]
        · simp only [performAll, perform, dmaRead_error hx]
    | wr x v =>
      cases hx : wrOk s x with
      | true =>
        have hok : ∃ t, perform (.wr x v) s = .ok t := by
          simp only [perform, dmaWrite, hx, if_true]
          split <;> exact ⟨_, rfl⟩
        obtain ⟨t, ht⟩ := hok
        exact hrest t ht (by simp only [failAddr, hx, if_true])
      | false =>
        refine .inr ⟨x, s, ?_, ?_, SameControl.rfl' s, rfl⟩
        · simp [failAddr, hx]
        · simp only [performAll, perform, dmaWrite_error hx]

/-- The accesses of a body are those the operand table gives the command (30_encoding.md R76). -/
theorem bodies_accesses {i : Instr} {s : State} {p : List Act × ErrCode} (hp : p ∈ bodies i s) :
    (∀ a, Act.rd a ∈ p.1 → ReadsAt i s a) ∧ ∀ a v, Act.wr a v ∈ p.1 → WritesAt i s a := by
  have hA : Admits (fun b => (∀ a, b = .rd a → ReadsAt i s a) ∧ ∀ a v, b = .wr a v → WritesAt i s a)
      (ReadsAt i s) (WritesAt i s) :=
    { reg := fun _ _ _ => ⟨fun _ h => (nomatch h), fun _ _ h => (nomatch h)⟩
      rd := by
        intro a hr
        refine ⟨fun b h => ?_, fun _ _ h => (nomatch h)⟩
        cases h
        exact hr
      wr := by
        intro a v hw
        refine ⟨fun _ h => (nomatch h), fun b u h => ?_⟩
        cases h
        exact hw }
  have hreg : ∀ r : RegOp, (∀ a, Act.reg r = .rd a → ReadsAt i s a) ∧ ∀ a v, Act.reg r = .wr a v → WritesAt i s a :=
    fun _ => ⟨fun _ h => (nomatch h), fun _ _ h => (nomatch h)⟩
  have hall : AllActs (fun b => (∀ a, b = .rd a → ReadsAt i s a) ∧ ∀ a v, b = .wr a v → WritesAt i s a) p.1 := by
    by_cases h1 : i = .loadkey
    · subst h1
      rw [bodies, List.mem_singleton] at hp
      subst hp
      exact hA.loadkey fun r _ => hreg r
    · by_cases h2 : i = .release
      · subst h2
        rw [bodies, List.mem_singleton] at hp
        subst hp
        exact allActs_cons (hreg _) (allActs_cons (hreg _) allActs_nil)
      · exact hA.bodies (hreg _) h1 h2 p hp
  exact ⟨fun a ha => (hall _ ha).1 a rfl, fun a v ha => (hall _ ha).2 a v rfl⟩

/-! ## What the traces depend on -/

/-- The bodies depend on the descriptors and PRESENT alone (43_decrypt.md R133, 70_reset_and_hazards.md R175). -/
theorem bodies_congr {s t : State} (hd : t.desc = s.desc) (hp : t.present = s.present) (i : Instr) :
    bodies i t = bodies i s := by
  cases i <;> simp only [bodies, loadkeyActs, encActs, enccActs, decVerifyActs, deccVerifyActs, acceptActs_congr hd,
    rejectActs_congr hd, taginActs, textLen_congr hd, adLen_congr hd hp, addrOf_congr hd]

/-! ## What every command leaves -/

/-- Nothing the block reads is stale once a command whose host stores were handed over is accepted (20_memory.md R63). -/
theorem begun_stale {i : Instr} {s : State} (h : HandedOver s) : (begun i s).blockStale = [] := by
  rw [begun, accept_blockStale]
  rcases h with h | h
  · rw [h]; rfl
  · rw [h, ite_self]

/-- What no command changes. -/
theorem sameSetup_conclude {i : Instr} {s u : State} (e : ErrCode) (h : SameControl (begun i s) u) : SameSetup s (conclude e u) := by
  constructor
  · exact h.desc
  · exact h.present
  · exact h.doneIe
  · exact h.wign
  · exact h.rdFail
  · exact h.wrFail
  · exact h.special
  · exact h.coherent
  · exact h.inputs
  · exact h.busData
  · exact h.memData

theorem lastCmd_conclude {i : Instr} {s u : State} (e : ErrCode) (h : SameControl (begun i s) u) :
    (conclude e u).lastCmd = (encode i).extractLsb' 0 4 := h.lastCmd

/-- How every command ends. -/
theorem finished_conclude (e : ErrCode) (u : State) : FinishedWith e (conclude e u) :=
  ⟨rfl, rfl, rfl, workingZero_conclude e u, rfl⟩

/-- KEY, CTX and MSGLEN after a body of a command that is neither LOADKEY nor RELEASE, completed or not. -/
theorem body_facts {i : Instr} {s u : State} {p : List Act × ErrCode} (hp : p ∈ bodies i (begun i s))
    (hu : outcomeState (performAll p.1 (begun i s)) = u) (e : ErrCode) (h1 : i ≠ .loadkey) (h2 : i ≠ .release) :
    (conclude e u).key = s.key ∧ (conclude e u).ctx = s.ctx ∧ (conclude e u).msgLen = BitVec.ofNat 64 (messageLen (adLen s) (textLen i s)) := by
  have hk := performAll_key (bodies_keepsKey h1 h2 p hp) (s := begun i s) (by rw [running_begun]; simpa using h1)
  have hm := bodies_msgLen h1 h2 hp
  rw [hu] at hk hm
  exact ⟨hk.1, hk.2, hm⟩

/-- The message length fits MSGLEN once validation has passed (42_tag_input.md R124). -/
theorem messageLen_toNat {i : Instr} {s : State} (h1 : i ≠ .loadkey) (h2 : i ≠ .release) (hv : validate i s = none) :
    (BitVec.ofNat 64 (messageLen (adLen s) (textLen i s)) : Addr).toNat = messageLen (adLen s) (textLen i s) := by
  obtain ⟨-, -, -, -, -, -, hov, -, -⟩ := validate_eq_none.mp hv
  have : messageLen (adLen s) (textLen i s) ≤ 2 ^ 64 - 1 := by
    cases i with
    | loadkey => exact absurd rfl h1
    | release => exact absurd rfl h2
    | tagin => simp only [failsOverflow, decide_eq_false_iff_not, Nat.not_lt] at hov; exact hov
    | _ => simp only [failsOverflow, Bool.or_eq_false_iff, decide_eq_false_iff_not, Nat.not_lt] at hov; exact hov.2
  rw [BitVec.toNat_ofNat]
  omega

/-- LOADKEY leaves MSGLEN at 0 (42_tag_input.md R124). -/
theorem loadkey_msgLen {s : State} {p : List Act × ErrCode} (hp : p ∈ bodies .loadkey (begun .loadkey s)) :
    (outcomeState (performAll p.1 (begun .loadkey s))).msgLen = 0 := by
  rw [bodies, List.mem_singleton] at hp
  subst hp
  have hA : Admits (fun a => ∀ x, a = .reg (.setMsgLen x) → x = 0) (ReadsAt .loadkey (begun .loadkey s))
      (WritesAt .loadkey (begun .loadkey s)) :=
    { reg := fun r _ hr x hx => absurd (Act.reg.inj hx) (hr x)
      rd := fun _ _ _ h => nomatch h
      wr := fun _ _ _ _ h => nomatch h }
  have hall := hA.loadkey fun r hr x hx => by rw [Act.reg.inj hx] at hr; cases hr
  exact performAll_induct (P := fun s t => s.msgLen = 0 → t.msgLen = 0) (fun _ h => h) (fun _ _ _ h k hs => k (h hs))
    (fun a ha _ hs => perform_msgLen (hall a ha) hs) _ rfl

/-- The code a body ends with when no access fails. -/
theorem bodies_codes {i : Instr} {s : State} {p : List Act × ErrCode} (hp : p ∈ bodies i s) :
    p.2 = .ok ∨ (p.2 = .tagMismatch ∧ (i = .dec ∨ i = .decc)) := by
  cases i <;> simp only [bodies, List.mem_cons, List.not_mem_nil, or_false] at hp
  case dec => rcases hp with rfl | rfl <;> simp
  case decc => rcases hp with rfl | rfl <;> simp
  all_goals (subst hp; exact .inl rfl)

/-! ## A command whose accesses complete -/

/-- The memory frame of a body, completed or not (30_encoding.md R76). -/
theorem memory_conclude {i : Instr} {s u : State} {e : ErrCode} {p : List Act × ErrCode} (hp : p ∈ bodies i (begun i s))
    (hu : outcomeState (performAll p.1 (begun i s)) = u) :
    ∀ x, OutsideWrites i s x → memRead (conclude e u).mem x = memRead s.mem x := by
  intro x hx
  have h1 : memRead (outcomeState (performAll p.1 (begun i s))).mem x = memRead s.mem x :=
    performAll_mem_other (bodies_stores (i := i) (s := begun i s) hx p hp) (begun i s)
  rw [hu] at h1
  exact h1

/-- Everything but the written bytes after a completed body of a command that is neither LOADKEY nor RELEASE. -/
theorem completed_conclude {i : Instr} {s u : State} {p : List Act × ErrCode} (e : ErrCode) (hv : validate i s = none)
    (hp : p ∈ bodies i (begun i s)) (hu : performAll p.1 (begun i s) = .ok u) (h1 : i ≠ .loadkey) (h2 : i ≠ .release) :
    (∀ x, OutsideWrites i s x → memRead (conclude e u).mem x = memRead s.mem x) ∧ (conclude e u).key = s.key ∧
      (conclude e u).ctx = s.ctx ∧ (conclude e u).msgLen.toNat = messageLen (adLen s) (textLen i s) ∧
      (conclude e u).errAddr = 0 ∧ (conclude e u).lastCmd = (encode i).extractLsb' 0 4 ∧ SameSetup s (conclude e u) := by
  have hb := body_facts hp (u := u) (by rw [hu]; rfl) e h1 h2
  refine ⟨memory_conclude hp (by rw [hu]; rfl), hb.1, hb.2.1, ?_, performAll_errAddr hu, ?_, ?_⟩
  · rw [hb.2.2, messageLen_toNat h1 h2 hv]
  · exact lastCmd_conclude _ (performAll_control_ok hu)
  · exact sameSetup_conclude _ (performAll_control_ok hu)

/-- Everything but memory and ERRADDR after a body of a command that is neither LOADKEY nor RELEASE has stopped at a bus error. -/
theorem stopped_conclude {i : Instr} {s u : State} {p : List Act × ErrCode} (hv : validate i s = none)
    (hp : p ∈ bodies i (begun i s)) (hu : performAll p.1 (begun i s) = .error u) (h1 : i ≠ .loadkey) (h2 : i ≠ .release) :
    (conclude .busError u).key = s.key ∧ (conclude .busError u).ctx = s.ctx ∧
      (conclude .busError u).msgLen.toNat = messageLen (adLen s) (textLen i s) ∧
      (conclude .busError u).lastCmd = (encode i).extractLsb' 0 4 ∧ SameSetup s (conclude .busError u) := by
  have hb := body_facts hp (u := u) (by rw [hu]; rfl) .busError h1 h2
  refine ⟨hb.1, hb.2.1, ?_, ?_, ?_⟩
  · rw [hb.2.2, messageLen_toNat h1 h2 hv]
  · exact lastCmd_conclude _ (performAll_control_error hu)
  · exact sameSetup_conclude _ (performAll_control_error hu)

/-- DEC and DECC once their elements up to the choice have completed. -/
theorem exec_decrypt {i : Instr} {s t : State} (hi : i = .dec ∨ i = .decc) (hb : busy s = false) (hv : validate i s = none)
    {l : List Act} (hl : l = if i = .dec then decVerifyActs (begun i s) else deccVerifyActs (begun i s))
    (h : performAll l (begun i s) = .ok t) : exec i s = .next (verdict i t) := by
  rw [exec_idle hb]
  have hv' : validate i (begun i s) = none := (validate_accept ..).trans hv
  subst hl
  rcases hi with hi | hi <;> subst hi <;> simp only [command, validated, hv'] <;>
    exact congrArg Host.Outcome.next (runActs_ok (k := verdict _) h)

/-- DEC and DECC up to the choice, when every access completes: memory is unchanged, the nonce is latched, and ok says whether the
supplied tag is the computed one; what follows is one of the two ends of the body (43_decrypt.md R127, R128). -/
theorem decrypt_opens {i : Instr} {s : State} (hi : i = .dec ∨ i = .decc) (hb : busy s = false) (hv : validate i s = none)
    (hg : Granted i s) (hh : HandedOver s) :
    ∃ l t, performAll l (begun i s) = .ok t ∧ exec i s = .next (verdict i t) ∧
      (l ++ acceptActs i (begun i s), ErrCode.ok) ∈ bodies i (begun i s) ∧
      (l ++ rejectActs i (begun i s), ErrCode.tagMismatch) ∈ bodies i (begun i s) ∧
      t.mem = s.mem ∧ t.key = s.key ∧ t.nl = nonceOf s ∧ t.blockStale = [] ∧
      t.okBit = decide (computedTag i s = suppliedTag i s) := by
  rcases hi with rfl | rfl
  · obtain ⟨t, h, h1, h2, h3, h4, h5⟩ := openActs_spec (s := begun .dec s) (n := textLen .dec s) (ta := addrOf s .tag)
      (hg.1 (addrOf s .nonce, 12) (by simp [readsOf])) (hg.1 (addrOf s .inp, textLen .dec s) (by simp [readsOf]))
      (hg.1 (addrOf s .ad, adLen s) (by simp [readsOf])) (hg.1 (addrOf s .tag, 16) (by simp [readsOf])) (begun_stale hh)
    exact ⟨_, t, h, exec_decrypt (.inl rfl) hb hv rfl h, List.mem_cons_self .., List.mem_cons_of_mem _ (List.mem_cons_self ..),
      h1, h2, h3, h4, h5⟩
  · have hR := hg.1 (addrOf s .inp, textLen .decc s + 16) (by simp [readsOf])
    obtain ⟨t, h, h1, h2, h3, h4, h5⟩ := openActs_spec (s := begun .decc s) (n := textLen .decc s)
      (ta := addrAdd (addrOf s .inp) (textLen .decc s)) (hg.1 (addrOf s .nonce, 12) (by simp [readsOf]))
      (fun k hk => hR k (by simp only; omega)) (hg.1 (addrOf s .ad, adLen s) (by simp [readsOf]))
      (fun k hk => by rw [addrAdd_addrAdd]; exact hR _ (by simp only; omega)) (begun_stale hh)
    exact ⟨_, t, h, exec_decrypt (.inr rfl) hb hv rfl h, List.mem_cons_self .., List.mem_cons_of_mem _ (List.mem_cons_self ..),
      h1, h2, h3, h4, h5⟩

/-- Which accesses a command makes and whether they are granted depends on the descriptors, PRESENT and the platform alone. -/
theorem granted_congr {s t : State} (hd : t.desc = s.desc) (hp : t.present = s.present) (hr : t.rdFail = s.rdFail)
    (hw : t.wrFail = s.wrFail) (hs : t.special = s.special) (i : Instr) : Granted i t ↔ Granted i s := by
  cases i <;> simp only [Granted, Readable, Writable, rdOk, wrOk, ordinary, readsOf, writesOf, textLen_congr hd, adLen_congr hd hp,
    addrOf_congr hd, hr, hw, hs]

end Sys2Proof.Machine
end

