-- ==== Sys2Proof/Laws/Invariant.lean ====
section
/-! SUPPORT. The parts of the invariant (Safety.lean): KEY is zero or CTX is KEYED wherever a command can end (10_state.md R44, R45), what is
left of a running trace after a sequencer step (R42), and the canonical form of memory. -/

namespace Sys2Proof.Machine

/-! ## KEY and CTX along a trace -/

theorem keySafe_mono (c : Option Instr) (l : List Act) {z z' kd kd' : Bool} (hz : z = true → z' = true)
    (hk : kd = true → kd' = true) (h : keySafe c l z kd = true) : keySafe c l z' kd' = true := by
  induction l generalizing z z' kd kd' with
  | nil => cases z <;> cases kd <;> simp_all [keySafe]
  | cons a l ih =>
    have hg : (c == some .loadkey || z || kd) = true → (c == some .loadkey || z' || kd') = true := by
      cases z <;> cases kd <;> simp_all
    cases a with
    | rd x =>
      simp only [keySafe, Bool.and_eq_true] at h ⊢
      exact ⟨hg h.1, ih hz hk h.2⟩
    | wr x v =>
      simp only [keySafe, Bool.and_eq_true] at h ⊢
      exact ⟨hg h.1, ih hz hk h.2⟩
    | reg r =>
      cases r with
      | clearKey => exact ih (fun _ => rfl) hk h
      | latchKey i => exact ih (fun h => h) hk h
      | setCtx x => exact ih hz (fun h => h) h
      | _ => exact ih hz hk h

theorem keySafe_of_keeps {c : Option Instr} {l : List Act} (h : ∀ a ∈ l, keepsKey a = true) {z kd : Bool}
    (hz : (z || kd) = true) : keySafe c l z kd = true := by
  induction l with
  | nil => exact hz
  | cons a l ih =>
    have ih := ih fun b hb => h b (List.mem_cons_of_mem _ hb)
    have ha := h a (List.mem_cons_self ..)
    have hg : (c == some .loadkey || z || kd) = true := by rw [Bool.or_assoc, hz, Bool.or_true]
    cases a with
    | rd x => simp only [keySafe, hg, ih, Bool.and_self]
    | wr x v => simp only [keySafe, hg, ih, Bool.and_self]
    | reg r => cases r <;> first | exact ih | exact nomatch ha

theorem keyHeld_iff {s : State} : KeyHeld s ↔ ((s.key == .replicate 32 0) || (s.ctx == .keyed)) = true := by
  rw [Bool.or_eq_true, beq_iff_eq, beq_iff_eq]
  exact or_comm

theorem keySafe_nil {c : Option Instr} {s : State} : KeySafe c [] s ↔ KeyHeld s := keyHeld_iff.symm

/-- The elements of a command with nothing on KEY or CTX are safe wherever KEY is. -/
theorem keySafe_keeps {c : Option Instr} {l : List Act} (h : ∀ a ∈ l, keepsKey a = true) {s : State} (hs : KeyHeld s) :
    KeySafe c l s := keySafe_of_keeps h (keyHeld_iff.mp hs)

theorem keySafe_readKey (a : Addr) (k : Nat) (rest : List Act) (z : Bool)
    (h : ∀ z, keySafe (some .loadkey) rest z false = true) :
    keySafe (some .loadkey) ((List.range k).flatMap (readKeyByte a) ++ rest) z false = true := by
  induction k generalizing rest z with
  | zero => exact h z
  | succ k ih =>
    rw [List.range_succ, List.flatMap_append, List.append_assoc]
    exact ih _ _ fun z => h false

/-- LOADKEY is safe whatever KEY and CTX are (40_context.md R96). -/
theorem keySafe_loadkey (s t : State) : KeySafe (some .loadkey) (loadkeyActs s) t := by
  rw [KeySafe, loadkeyActs, List.append_assoc]
  exact keySafe_readKey _ _ _ _ fun z => by cases z <;> rfl

/-- RELEASE is safe whatever KEY and CTX are (40_context.md R97). -/
theorem keySafe_release (c : Option Instr) (t : State) : KeySafe c releaseActs t := rfl

/-- Every body of a command is safe from a state in which KEY is held. -/
theorem keySafe_bodies {i : Instr} {s t : State} (ht : KeyHeld t) : ∀ p ∈ bodies i s, KeySafe (some i) p.1 t := by
  intro p hp
  by_cases h1 : i = .loadkey
  · subst h1
    rw [bodies, List.mem_singleton] at hp
    subst hp
    exact keySafe_loadkey s t
  · by_cases h2 : i = .release
    · subst h2
      rw [bodies, List.mem_singleton] at hp
      subst hp
      exact keySafe_release _ t
    · exact keySafe_keeps (bodies_keepsKey h1 h2 p hp) ht

/-- One element of a safe trace: what is left is safe, and a bus error leaves KEY held. -/
theorem keySafe_perform {c : Option Instr} {a : Act} {l : List Act} {s : State} (hc : running s = c)
    (h : KeySafe c (a :: l) s) :
    (∀ t, perform a s = .ok t → KeySafe c l t) ∧ ∀ t, perform a s = .error t → KeyHeld t := by
  have herr : ∀ x, (c == some .loadkey || (s.key == .replicate 32 0) || (s.ctx == .keyed)) = true → KeyHeld (busErrorAt x s) := by
    intro x hg
    rw [KeyHeld, busErrorAt_ctx, busErrorAt_key, hc]
    split
    · exact .inr rfl
    · next hne =>
      rw [Bool.or_eq_true, Bool.or_eq_true, beq_iff_eq, beq_iff_eq, beq_iff_eq] at hg
      rcases hg with (hg | hg) | hg
      · exact absurd hg hne
      · exact .inr hg
      · exact .inl hg
  cases a with
  | rd x =>
    rw [KeySafe, keySafe, Bool.and_eq_true] at h
    rcases dmaRead_cases x s with ⟨b, d, h'⟩ | h'
    · refine ⟨fun t ht => ?_, fun t ht => ?_⟩
      · rw [perform, h', Except.ok.injEq] at ht
        subst ht
        exact h.2
      · rw [perform, h'] at ht; cases ht
    · refine ⟨fun t ht => ?_, fun t ht => ?_⟩
      · rw [perform, h'] at ht; cases ht
      · rw [perform, h', Except.error.injEq] at ht
        subst ht
        exact herr x h.1
  | wr x v =>
    rw [KeySafe, keySafe, Bool.and_eq_true] at h
    rcases dmaWrite_cases x (valOf s v) s with h' | h' | h'
    · refine ⟨fun t ht => ?_, fun t ht => ?_⟩
      · rw [perform, h', Except.ok.injEq] at ht
        subst ht
        exact h.2
      · rw [perform, h'] at ht; cases ht
    · refine ⟨fun t ht => ?_, fun t ht => ?_⟩
      · rw [perform, h', Except.ok.injEq] at ht
        subst ht
        exact h.2
      · rw [perform, h'] at ht; cases ht
    · refine ⟨fun t ht => ?_, fun t ht => ?_⟩
      · rw [perform, h'] at ht; cases ht
      · rw [perform, h', Except.error.injEq] at ht
        subst ht
        exact herr x h.1
  | reg r =>
    refine ⟨fun t ht => ?_, fun t ht => nomatch ht⟩
    cases ht
    cases r with
    | clearKey => exact keySafe_mono c l (fun _ => by simp [performReg]) (fun h => h) h
    | latchKey i =>
      rw [KeySafe, keySafe] at h
      exact keySafe_mono c l (fun hf => absurd hf (by decide)) (fun h => h) h
    | setCtx x => exact h
    | _ => simp only [performReg]; exact h

/-- A whole safe trace ends with KEY held, also when a bus error ends it. -/
theorem keySafe_performAll {c : Option Instr} {l : List Act} {s : State} (hc : running s = c) (h : KeySafe c l s) :
    KeyHeld (outcomeState (performAll l s)) := by
  induction l generalizing s with
  | nil => exact keySafe_nil.mp h
  | cons a l ih =>
    obtain ⟨hok, herr⟩ := keySafe_perform hc h
    simp only [performAll]
    cases hp : perform a s with
    | ok t =>
      have hr : running t = running s := by
        have := perform_control a s
        rw [hp] at this
        have hs : t.seq = s.seq := this.seq
        rw [running, running, hs]
      exact ih (hr.trans hc) (hok t hp)
    | error t => exact herr t hp

/-! ## Scrub and idle (10_state.md R44, R45) -/

theorem scrubbed_conclude {e : ErrCode} {s : State} (h : KeyHeld s) : scrubbed (conclude e s) = true := by
  rw [scrubbed, workingZero_conclude, Bool.true_and, Bool.or_comm]
  exact keyHeld_iff.mp h

theorem keyHeld_of_scrubbed {s : State} (h : scrubbed s = true) : KeyHeld s := by
  rw [scrubbed, Bool.and_eq_true] at h
  rw [keyHeld_iff, Bool.or_comm]
  exact h.2

/-- A register that a write of Scrub has zeroed (10_state.md R43). -/
def zeroedBy (r : RegOp) (s : State) : Prop :=
  match r with
  | .clearNl => s.nl = .replicate 12 0
  | .clearCs => s.cs = .replicate 16 0
  | .clearKs => s.ks = .replicate 64 0
  | .clearOtk => s.otk = .replicate 32 0
  | .clearEtag => s.etag = .replicate 16 0
  | .clearStag => s.stag = .replicate 16 0
  | .clearDiff => s.diff = 0
  | .setEncK v => s.encK = v
  | .setJctr v => s.jctr = v
  | .macClear => s.mac = .clear
  | .clearKey | .latchKey _ | .setCtx _ | .setMsgLen _ | .latchNonce _ | .csInit | .ksBlock | .latchOtk | .latchStag _ | .diffStep _
  | .latchOk | .macBegin | .macByte _ | .macEnd | .latchEtag => False

theorem zeroedBy_self {r : RegOp} (h : r ∈ scrubOps) (s : State) : zeroedBy r (performReg r s) := by
  simp only [scrubOps, List.mem_cons, List.not_mem_nil, or_false] at h
  rcases h with h | h | h | h | h | h | h | h | h | h
  all_goals rw [h]
  all_goals simp only [zeroedBy, performReg]

theorem performReg_of_zeroedBy {r : RegOp} (h : r ∈ scrubOps) {s : State} (hz : zeroedBy r s) : performReg r s = s := by
  simp only [scrubOps, List.mem_cons, List.not_mem_nil, or_false] at h
  rcases h with h | h | h | h | h | h | h | h | h | h
  all_goals rw [h] at hz ⊢
  all_goals simp only [zeroedBy] at hz
  all_goals simp only [performReg, ← hz]

theorem performReg_eq_iff {r : RegOp} (h : r ∈ scrubOps) (s : State) : performReg r s = s ↔ zeroedBy r s :=
  ⟨fun hs => hs ▸ zeroedBy_self h s, performReg_of_zeroedBy h⟩

theorem zeroedBy_performReg {r q : RegOp} (h : r ∈ scrubOps) (k : q ∈ scrubOps) {s : State} (hs : zeroedBy r s) :
    zeroedBy r (performReg q s) := by
  by_cases hrq : r = q
  · exact hrq ▸ zeroedBy_self h s
  · simp only [scrubOps, List.mem_cons, List.not_mem_nil, or_false] at h k
    rcases h with h | h | h | h | h | h | h | h | h | h
    all_goals rw [h] at hs ⊢
    all_goals simp only [zeroedBy] at hs ⊢
    all_goals rcases k with k | k | k | k | k | k | k | k | k | k
    all_goals rw [k]
    all_goals first | exact absurd (h.trans k.symm) hrq | (simp only [performReg]; exact hs)

theorem keyHeld_scrubOp {q : RegOp} (k : q ∈ scrubOps) {s : State} (h : KeyHeld s) : KeyHeld (performReg q s) := by
  simp only [scrubOps, List.mem_cons, List.not_mem_nil, or_false] at k
  rcases k with rfl | rfl | rfl | rfl | rfl | rfl | rfl | rfl | rfl | rfl <;> (simp only [performReg, KeyHeld]; exact h)

/-- With every write of Scrub done, SCRUBBED is 1. -/
theorem scrubbed_of_zeroed {s : State} (h : ∀ r ∈ scrubOps, zeroedBy r s) (hk : KeyHeld s) : scrubbed s = true := by
  rw [scrubbed, Bool.and_eq_true, Bool.or_comm]
  refine ⟨?_, keyHeld_iff.mp hk⟩
  simp only [workingZero, Bool.and_eq_true, beq_iff_eq]
  simp only [scrubOps, List.mem_cons, List.not_mem_nil, or_false, forall_eq_or_imp, forall_eq] at h
  obtain ⟨h1, h2, h3, h4, h5, h6, h7, h8, h9, -⟩ := h
  exact ⟨⟨⟨⟨⟨⟨⟨⟨h1, h2⟩, h3⟩, h4⟩, h5⟩, h6⟩, h7⟩, h8⟩, h9⟩

end Sys2Proof.Machine
end

