-- ==== Sys2Proof/Laws/PerInstr.lean ====
section
/-! SUPPORT. Facts said once per command of the set (30_encoding.md R71, R72): its word is well-formed and decodes to it and to nothing
else. -/

namespace Sys2Proof.Laws.CommandWord

/-- The word of a command is well-formed, both decoders read the command from it, and no other command has that word
(30_encoding.md R71, R72). -/
def Statement (i : Instr) : Prop :=
  wellFormedWord (encode i) = true ∧ decode (encode i) = .ok i ∧ decodeTableWord 32 (encode i).toNat = some i ∧
    ∀ j, encode j = encode i → j = i

/-- The seven words are distinct (30_encoding.md R71). -/
theorem encode_injective {i j : Instr} (h : encode i = encode j) : i = j := by
  cases i <;> cases j <;> first | rfl | exact absurd h (by decide)

theorem loadkey : Statement .loadkey := ⟨rfl, rfl, rfl, fun _ h => encode_injective h⟩

theorem enc : Statement .enc := ⟨rfl, rfl, rfl, fun _ h => encode_injective h⟩

theorem dec : Statement .dec := ⟨rfl, rfl, rfl, fun _ h => encode_injective h⟩

theorem encc : Statement .encc := ⟨rfl, rfl, rfl, fun _ h => encode_injective h⟩

theorem decc : Statement .decc := ⟨rfl, rfl, rfl, fun _ h => encode_injective h⟩

theorem release : Statement .release := ⟨rfl, rfl, rfl, fun _ h => encode_injective h⟩

theorem tagin : Statement .tagin := ⟨rfl, rfl, rfl, fun _ h => encode_injective h⟩

end Sys2Proof.Laws.CommandWord
end

