-- ==== Sys2Proof/Laws/Registers.lean ====
section
/-! SUPPORT. The register window: which register stands at which offset (10_state.md R16), the fields of a STATUS read (R20), the halves
of a 64-bit register (R24 to R28), and the lines of a host program (30_encoding.md R78). -/

namespace Sys2Proof.Machine

/-! ## The map -/

theorem accessed_status : accessed 0x00C 4 = some .status := rfl
theorem accessed_cmd : accessed 0x008 4 = some .cmd := rfl
theorem accessed_present : accessed 0x014 4 = some .present := rfl
theorem accessed_irqEn : accessed 0x010 4 = some .irqEn := rfl

theorem accessed_desc (b : Buf) (w : DescWord) : accessed (descOffset b w) 4 = some (.desc b w) := by
  cases b <;> cases w <;> rfl

/-- Narrow, wide, misaligned and reserved accesses act on no register (10_state.md R15, 20_memory.md R51). -/
theorem accessed_none {off : Offset} {bytes : Nat} (h : bytes ≠ 4 ∨ off.toNat % 4 ≠ 0 ∨
    (0x018 ≤ off.toNat ∧ off.toNat < 0x020) ∨ (0x030 ≤ off.toNat ∧ off.toNat < 0x040) ∨ 0x0A0 ≤ off.toNat) : accessed off bytes = none := by
  unfold accessed
  split
  · next hb =>
    replace h := h.resolve_left (fun h => h hb)
    unfold regAt
    generalize off.toNat = n at h
    split
    · next hn => unfold lowReg; split <;> first | rfl | omega
    · next hn =>
      split
      · next h1 h2 =>
        exfalso
        have : (n - 64) / 16 < 6 := by
          unfold bufOf at h1
          split at h1 <;> first | omega | cases h1
        have : n % 16 % 4 = 0 := by
          unfold descWordOf at h2
          split at h2 <;> first | omega | cases h2
        omega
      · rfl
  · rfl

@[simp] theorem descOf_setDesc (d : DescBank) (b c : Buf) (x : Desc) :
    descOf (setDesc d b x) c = if c = b then x else descOf d c := by
  cases b <;> cases c <;> rfl

/-! ## STATUS -/

theorem portRead_status (s : State) : portRead 0x00C 4 s = statusWord s := rfl

theorem bit_getElem (b : Bool) : (bit b)[0] = b := by cases b <;> rfl

theorem statusWord_getLsbD (s : State) (i : Nat) : (statusWord s).getLsbD i =
    if i = 0 then busy s
    else if i = 1 then s.done
    else if i = 2 then errFlag s
    else if i = 3 then s.wign
    else if i < 6 then (ctxBits s.ctx).getLsbD (i - 4)
    else if i = 6 then scrubbed s
    else if i = 7 then false
    else if i < 12 then (codeOf s.errCode).getLsbD (i - 8)
    else if i < 16 then s.lastCmd.getLsbD (i - 12)
    else false := by
  by_cases h : i < 32
  · unfold statusWord
    simp only [BitVec.getLsbD_append]
    interval_cases i <;> simp [bit_getElem]
  · rw [BitVec.getLsbD_of_ge _ _ (by omega)]
    repeat rw [if_neg (by omega)]

theorem statusWord_busy (s : State) : (statusWord s).getLsbD 0 = busy s := by rw [statusWord_getLsbD]; rfl
theorem statusWord_done (s : State) : (statusWord s).getLsbD 1 = s.done := by rw [statusWord_getLsbD]; rfl
theorem statusWord_err (s : State) : (statusWord s).getLsbD 2 = errFlag s := by rw [statusWord_getLsbD]; rfl
theorem statusWord_wign (s : State) : (statusWord s).getLsbD 3 = s.wign := by rw [statusWord_getLsbD]; rfl
theorem statusWord_scrubbed (s : State) : (statusWord s).getLsbD 6 = scrubbed s := by rw [statusWord_getLsbD]; rfl
theorem statusWord_reserved (s : State) : (statusWord s).getLsbD 7 = false := by rw [statusWord_getLsbD]; rfl

/-- A field of STATUS, from its bits. -/
theorem statusWord_errCode (s : State) : (statusWord s).extractLsb' 8 4 = codeOf s.errCode := by
  apply BitVec.eq_of_getLsbD_eq
  intro i hi
  rw [BitVec.getLsbD_extractLsb', statusWord_getLsbD]
  interval_cases i <;> simp

theorem statusWord_lastCmd (s : State) : (statusWord s).extractLsb' 12 4 = s.lastCmd := by
  apply BitVec.eq_of_getLsbD_eq
  intro i hi
  rw [BitVec.getLsbD_extractLsb', statusWord_getLsbD]
  interval_cases i <;> simp

theorem statusWord_ctx (s : State) : (statusWord s).extractLsb' 4 2 = ctxBits s.ctx := by
  apply BitVec.eq_of_getLsbD_eq
  intro i hi
  rw [BitVec.getLsbD_extractLsb', statusWord_getLsbD]
  interval_cases i <;> simp

theorem statusWord_high (s : State) : (statusWord s).extractLsb' 16 16 = 0 := by
  apply BitVec.eq_of_getLsbD_eq
  intro i hi
  rw [BitVec.getLsbD_extractLsb', statusWord_getLsbD]
  interval_cases i <;> simp

/-! ## Halves of a 64-bit register (10_state.md R24 to R28) -/

theorem toNat_halves (v : Addr) : v.toNat = (hiHalf v).toNat * 2 ^ 32 + (loHalf v).toNat := by
  simp only [hiHalf, loHalf, BitVec.extractLsb'_toNat, Nat.shiftRight_eq_div_pow]
  omega

@[simp] theorem loHalf_withLo (v : Addr) (w : Word) : loHalf (withLo v w) = w := by
  apply BitVec.eq_of_getLsbD_eq
  intro i hi
  simp only [loHalf, withLo, BitVec.getLsbD_extractLsb', BitVec.getLsbD_append]
  simp [hi]

@[simp] theorem hiHalf_withLo (v : Addr) (w : Word) : hiHalf (withLo v w) = hiHalf v := by
  apply BitVec.eq_of_getLsbD_eq
  intro i hi
  simp only [hiHalf, withLo, BitVec.getLsbD_extractLsb', BitVec.getLsbD_append]
  simp [hi]

@[simp] theorem hiHalf_withHi (v : Addr) (w : Word) : hiHalf (withHi v w) = w := by
  apply BitVec.eq_of_getLsbD_eq
  intro i hi
  simp only [hiHalf, withHi, BitVec.getLsbD_extractLsb', BitVec.getLsbD_append]
  simp [hi]

@[simp] theorem loHalf_withHi (v : Addr) (w : Word) : loHalf (withHi v w) = loHalf v := by
  apply BitVec.eq_of_getLsbD_eq
  intro i hi
  simp only [loHalf, withHi, BitVec.getLsbD_extractLsb', BitVec.getLsbD_append]
  simp [hi]

/-- The four halves of an address and a length written one after the other make that address and length (30_encoding.md R79). -/
theorem withHi_withLo (v a : Addr) : withHi (withLo v (loHalf a)) (hiHalf a) = a := by
  apply BitVec.eq_of_getLsbD_eq
  intro i hi
  simp only [withHi, withLo, loHalf, hiHalf, BitVec.getLsbD_extractLsb', BitVec.getLsbD_append]
  by_cases h : i < 32
  · simp [h]
  · simp [h, show 32 + (i - 32) = i by omega, show i - 32 < 32 by omega]

/-! ## The window at BASE (10_state.md R15, 00_scope.md R7) -/

theorem windowOffset_base (off : Offset) : windowOffset (Config.basePage ++ off) = some off := by
  have hg (i : Nat) : (Config.basePage ++ off : Addr).getLsbD i = if i < 12 then off.getLsbD i else Config.basePage.getLsbD (i - 12) :=
    BitVec.getLsbD_append
  have h1 : (Config.basePage ++ off : Addr).extractLsb' 12 52 = Config.basePage := by
    apply BitVec.eq_of_getLsbD_eq
    intro i hi
    rw [BitVec.getLsbD_extractLsb', hg, if_neg (by omega), Nat.add_sub_cancel_left]
    simp [hi]
  have h2 : (Config.basePage ++ off : Addr).extractLsb' 0 12 = off := by
    apply BitVec.eq_of_getLsbD_eq
    intro i hi
    rw [BitVec.getLsbD_extractLsb', hg, if_pos (by omega), Nat.zero_add]
    simp [hi]
  rw [windowOffset, if_pos h1, h2]

theorem windowOffset_none {a : Addr} (h : a.extractLsb' 12 52 ≠ Config.basePage) : windowOffset a = none := by
  rw [windowOffset, if_neg h]

/-! ## Replaced bytes (20_memory.md R62) -/

theorem staleAt_outside {r : Range} {a : Addr} (l : List Host.Cell) (h : Covers r a) : staleAt (outside r l) a = [] := by
  simp only [staleAt, outside, List.filter_filter, List.map_eq_nil_iff, List.filter_eq_nil_iff]
  intro c _ hc
  have h1 := h.1
  have h2 := h.2
  simp at hc
  omega

theorem staleAt_awayFrom {a : Addr} (l : List Host.Cell) {m : List Host.Cell} (h : staleAt m a = []) :
    staleAt (awayFrom l m) a = [] := by
  simp only [staleAt, awayFrom, List.filter_filter, List.map_eq_nil_iff, List.filter_eq_nil_iff] at h ⊢
  intro c hc hh
  rw [Bool.and_eq_true] at hh
  exact h c hc hh.1

/-! ## ERRADDR (10_state.md R25, 70_reset_and_hazards.md R169) -/

theorem shownErrAddr_busy {s : State} (h : busy s = true) : shownErrAddr s = 0 := by rw [shownErrAddr, h]; rfl

theorem shownErrAddr_idle {s : State} (h : busy s = false) : shownErrAddr s = s.errAddr := by rw [shownErrAddr, h]; rfl

/-! ## Host programs (30_encoding.md R78, R79) -/

/-- What the lines of a program do does not depend on when they reach the block. -/
theorem schedule_acts (l : List HostLine) (ks : List Nat) :
    (schedule l ks).map (fun p => p.act) = l.map fun x => (lineInput 0 x).act := by
  induction l generalizing ks with
  | nil => rfl
  | cons x l ih =>
    cases ks with
    | nil => exact congrArg _ (ih [])
    | cons k ks =>
      have hx : (lineInput k x).act = (lineInput 0 x).act := by cases x <;> rfl
      exact congr (congrArg List.cons hx) (ih ks)

end Sys2Proof.Machine
end

