-- ==== Sys2Proof/Laws/Sequencer.lean ====
section
/-! SUPPORT. The sequencer element by element against whole command bodies (10_state.md R42, 00_scope.md R11). -/

namespace Sys2Proof.Machine

/-- s at another position of its trace. -/
def atTrace (c : Option Instr) (l : List Elem) (s : State) : State := { s with seq := .run c l }

/-- An element does the same wherever the sequencer stands in the same command's trace. -/
theorem perform_atTrace (a : Act) {s : State} {c : Option Instr} (hr : running s = c) (l : List Elem) :
    perform a (atTrace c l s) = (match perform a s with | .ok t => .ok (atTrace c l t) | .error t => .error (atTrace c l t)) := by
  have hrun : running (atTrace c l s) = running s := by rw [hr]; rfl
  have hbe : ∀ x, busErrorAt x (atTrace c l s) = atTrace c l (busErrorAt x s) := by
    intro x
    unfold busErrorAt
    rw [hrun]
    split <;> rfl
  cases a with
  | reg r => cases r <;> rfl
  | rd x =>
    simp only [perform, dmaRead, hbe]
    have h1 : rdOk (atTrace c l s) x = rdOk s x := rfl
    have h2 : ordinary (atTrace c l s) x = ordinary s x := rfl
    rw [h1, h2]
    split
    · split <;> rfl
    · rfl
  | wr x v =>
    have hv : valOf (atTrace c l s) v = valOf s v := by cases v <;> rfl
    simp only [perform, dmaWrite, hbe, hv]
    have h1 : wrOk (atTrace c l s) x = wrOk s x := rfl
    have h2 : ordinary (atTrace c l s) x = ordinary s x := rfl
    rw [h1, h2]
    split
    · split <;> rfl
    · rfl

theorem performAll_atTrace (acts : List Act) {s : State} {c : Option Instr} (hr : running s = c) (l : List Elem) :
    performAll acts (atTrace c l s) =
      (match performAll acts s with | .ok t => .ok (atTrace c l t) | .error t => .error (atTrace c l t)) := by
  induction acts generalizing s with
  | nil => rfl
  | cons a t ih =>
    simp only [performAll, perform_atTrace a hr l]
    have hc := perform_control a s
    cases hp : perform a s with
    | ok u =>
      rw [hp] at hc
      have hs : u.seq = s.seq := hc.seq
      exact ih (by rw [running, hs, ← hr, running])
    | error u => rfl

/-- Sequencer steps one after the other. -/
theorem seqRun_add (n m : Nat) (s : State) :
    seqRun (n + m) s = (match seqRun n s with | .next t => seqRun m t | .fault r => .fault r | .refused r => .refused r) := by
  induction n generalizing s with
  | zero => simp [seqRun]
  | succ n ih =>
    rw [Nat.succ_add]
    simp only [seqRun]
    cases seqStep s <;> simp [ih]

theorem seqRun_trans {n m : Nat} {s t u : State} (h : seqRun n s = .next t) (k : seqRun m t = .next u) :
    seqRun (n + m) s = .next u := by
  rw [seqRun_add, h]; exact k

/-- Elements of a trace performed one by one come to what `performAll` does, a bus error included. -/
theorem seqRun_acts (acts : List Act) {s : State} {c : Option Instr} (hr : running s = c) (rest : List Elem) :
    ∃ n, seqRun n (atTrace c (acts.map Elem.act ++ rest) s) =
      (match performAll acts s with
        | .ok t => .next (atTrace c rest t)
        | .error t => .next (atTrace c (concludeTrace .busError) t)) := by
  induction acts generalizing s with
  | nil => exact ⟨0, rfl⟩
  | cons a l ih =>
    have hc := perform_control a s
    have hstep : seqStep (atTrace c ((a :: l).map Elem.act ++ rest) s) =
        (match perform a s with
          | .ok t => .next (atTrace c (l.map Elem.act ++ rest) t)
          | .error t => .next (atTrace c (concludeTrace .busError) t)) := by
      show (match perform a (atTrace c ((a :: l).map Elem.act ++ rest) s) with
        | .ok t => Host.Outcome.next { t with seq := .run c (l.map Elem.act ++ rest) }
        | .error t => .next { t with seq := .run c (concludeTrace .busError) }) = _
      rw [perform_atTrace a hr]
      cases perform a s <;> rfl
    cases hp : perform a s with
    | ok u =>
      rw [hp] at hc hstep
      have hs : u.seq = s.seq := hc.seq
      obtain ⟨n, hn⟩ := ih (s := u) (by rw [running, hs, ← hr, running])
      refine ⟨n + 1, ?_⟩
      simp only [seqRun, hstep, performAll, hp]
      exact hn
    | error u =>
      rw [hp] at hstep
      refine ⟨1, ?_⟩
      simp only [seqRun, hstep, performAll, hp]

/-- `Scrub(); finish(E)` one by one comes to `conclude`. -/
theorem seqRun_conclude (e : ErrCode) {s : State} {c : Option Instr} (hr : running s = c) :
    ∃ n, seqRun n (atTrace c (concludeTrace e) s) = .next (conclude e s) := by
  obtain ⟨n, hn⟩ := seqRun_acts (scrubOps.map Act.reg) hr (rest := [.finish e])
  rw [performAll_scrubOps] at hn
  have hl : (scrubOps.map Act.reg).map Elem.act ++ [.finish e] = concludeTrace e := by rw [concludeTrace, List.map_map]; rfl
  rw [hl] at hn
  exact ⟨n + 1, seqRun_trans hn rfl⟩

/-- A body one by one, and what comes after it. -/
theorem seqRun_runActs (acts : List Act) (rest : List Elem) (k : State → State) {s : State} {c : Option Instr} (hr : running s = c)
    (hk : ∀ t, running t = c → SameControl s t → performAll acts s = .ok t → ∃ n, seqRun n (atTrace c rest t) = .next (k t)) :
    ∃ n, seqRun n (atTrace c (acts.map Elem.act ++ rest) s) = .next (runActs acts k s) := by
  obtain ⟨n, hn⟩ := seqRun_acts acts hr rest
  unfold runActs
  have hc := performAll_control acts s
  cases hp : performAll acts s with
  | ok t =>
    rw [hp] at hn hc
    have hs : t.seq = s.seq := hc.seq
    obtain ⟨m, hm⟩ := hk t (by rw [running, hs, ← hr, running]) hc hp
    exact ⟨n + m, seqRun_trans hn hm⟩
  | error t =>
    rw [hp] at hn hc
    have hs : t.seq = s.seq := hc.seq
    obtain ⟨m, hm⟩ := seqRun_conclude .busError (s := t) (c := c) (by rw [running, hs, ← hr, running])
    exact ⟨n + m, seqRun_trans hn hm⟩

end Sys2Proof.Machine
end

