-- ==== Sys2Proof/Laws/Steps.lean ====
section
/-! SUPPORT. What a sequencer step, a register-window access, a host access to data memory and a reset do to the invariant of Safety.lean
(10_state.md R42, R45; 70_reset_and_hazards.md R157 to R160). -/

namespace Sys2Proof.Machine

/-! ## The registers that SeqOk reads -/

/-- t holds the same KEY, CTX and working registers as s. -/
structure SameKept (s t : State) : Prop where
  key : t.key = s.key
  ctx : t.ctx = s.ctx
  nl : t.nl = s.nl
  cs : t.cs = s.cs
  ks : t.ks = s.ks
  otk : t.otk = s.otk
  etag : t.etag = s.etag
  stag : t.stag = s.stag
  diff : t.diff = s.diff
  encK : t.encK = s.encK
  jctr : t.jctr = s.jctr
  mac : t.mac = s.mac

theorem SameKept.keyHeld {s t : State} (h : SameKept s t) (k : KeyHeld s) : KeyHeld t := by
  rw [KeyHeld, h.ctx, h.key]
  exact k

theorem SameKept.keySafe {s t : State} (h : SameKept s t) {c : Option Instr} {l : List Act} (k : KeySafe c l s) :
    KeySafe c l t := by
  rw [KeySafe, h.ctx, h.key]
  exact k

theorem SameKept.zeroedBy {s t : State} (h : SameKept s t) {r : RegOp} (k : zeroedBy r s) : zeroedBy r t := by
  cases r <;> simp only [Machine.zeroedBy, h.nl, h.cs, h.ks, h.otk, h.etag, h.stag, h.diff, h.encK, h.jctr, h.mac] at k ⊢ <;>
    exact k

theorem SameKept.traceOk {s t : State} (h : SameKept s t) {c : Option Instr} {l : List Elem} (k : TraceOk c l s) :
    TraceOk c l t := by
  rcases k with ⟨i, h1, h2, h3⟩ | ⟨acts, e, h1, h2⟩ | ⟨acts, i, h1, h2, h3⟩ | ⟨k, e, h1, h2, h3, h4⟩
  · exact .inl ⟨i, h1, h2, h.keyHeld h3⟩
  · exact .inr (.inl ⟨acts, e, h1, h.keySafe h2⟩)
  · exact .inr (.inr (.inl ⟨acts, i, h1, h2, h.keySafe h3⟩))
  · refine .inr (.inr (.inr ⟨k, e, h1, h2, fun r hr => ?_, h.keyHeld h4⟩))
    have hm := List.mem_of_mem_take hr
    rw [performReg_eq_iff hm] at *
    exact h.zeroedBy ((performReg_eq_iff hm s).mp (h3 r hr))

theorem SameKept.scrubbed {s t : State} (h : SameKept s t) : scrubbed t = scrubbed s := by
  simp only [Machine.scrubbed, workingZero, h.key, h.ctx, h.nl, h.cs, h.ks, h.otk, h.etag, h.stag, h.diff, h.encK, h.jctr]

/-! ## A sequencer step -/

/-- The trace a command starts on can run to its end (60_exceptions.md R141). -/
theorem traceOk_startTrace {s : State} (h : KeyHeld s) (c : Option Instr) : TraceOk c (startTrace c) s := by
  cases c with
  | none => exact .inr (.inl ⟨[], .illegalCommand, rfl, keySafe_nil.mpr h⟩)
  | some i =>
    by_cases hi : i = .release
    · subst hi
      exact .inr (.inl ⟨releaseActs, .ok, rfl, keySafe_release _ s⟩)
    · exact .inl ⟨i, rfl, by cases i <;> first | rfl | exact absurd rfl hi, h⟩

/-- The rest of the trace once Validate has passed. -/
theorem traceOk_bodyTrace {s : State} (h : KeyHeld s) (i : Instr) : TraceOk (some i) (bodyTrace i s) s := by
  have hb := keySafe_bodies (i := i) (s := s) h
  have hkeep : ∀ l r e, (l ++ r, e) ∈ bodies i s → i ≠ .loadkey → i ≠ .release → KeySafe (some i) l s :=
    fun l r e hm h1 h2 => keySafe_keeps (fun a ha => bodies_keepsKey h1 h2 _ hm a (List.mem_append_left _ ha)) h
  cases i with
  | loadkey => exact .inr (.inl ⟨_, .ok, rfl, hb _ (List.mem_cons_self ..)⟩)
  | enc => exact .inr (.inl ⟨_, .ok, rfl, hb _ (List.mem_cons_self ..)⟩)
  | encc => exact .inr (.inl ⟨_, .ok, rfl, hb _ (List.mem_cons_self ..)⟩)
  | tagin => exact .inr (.inl ⟨_, .ok, rfl, hb _ (List.mem_cons_self ..)⟩)
  | release => exact .inr (.inl ⟨_, .ok, rfl, hb _ (List.mem_cons_self ..)⟩)
  | dec =>
    exact .inr (.inr (.inl ⟨_, .dec, .inl rfl, rfl, hkeep _ _ _ (List.mem_cons_self ..) (by decide) (by decide)⟩))
  | decc =>
    exact .inr (.inr (.inl ⟨_, .decc, .inr rfl, rfl, hkeep _ _ _ (List.mem_cons_self ..) (by decide) (by decide)⟩))

/-- The rest of the trace after the choice on ok. -/
theorem traceOk_verdictTrace {s : State} (h : KeyHeld s) {i : Instr} (hi : i = .dec ∨ i = .decc) (c : Option Instr) :
    TraceOk c (verdictTrace i s) s := by
  have h1 : i ≠ .loadkey := by rcases hi with rfl | rfl <;> decide
  have h2 : i ≠ .release := by rcases hi with rfl | rfl <;> decide
  have hkeep : ∀ l r e, (l ++ r, e) ∈ bodies i s → KeySafe c r s :=
    fun l r e hm => keySafe_keeps (fun a ha => bodies_keepsKey h1 h2 _ hm a (List.mem_append_right _ ha)) h
  unfold verdictTrace
  split
  · refine .inr (.inl ⟨_, .ok, rfl, ?_⟩)
    rcases hi with rfl | rfl
    · exact hkeep _ _ _ (List.mem_cons_self ..)
    · exact hkeep _ _ _ (List.mem_cons_self ..)
  · refine .inr (.inl ⟨_, .tagMismatch, rfl, ?_⟩)
    rcases hi with rfl | rfl
    · exact hkeep _ _ _ (List.mem_cons_of_mem _ (List.mem_cons_self ..))
    · exact hkeep _ _ _ (List.mem_cons_of_mem _ (List.mem_cons_self ..))

/-- Setting the position of the sequencer keeps what SeqOk reads. -/
theorem seqOk_run {t : State} {c : Option Instr} {l : List Elem} (hd : t.done = false) (he : t.errCode = .ok)
    (hl : TraceOk c l t) : SeqOk { t with seq := .run c l } :=
  ⟨hd, he, SameKept.traceOk (s := t) (t := { t with seq := .run c l }) (by constructor <;> rfl) hl⟩

/-- The rest of `Scrub(); finish(E)` from write k on. -/
theorem concludeTrace_drop (e : ErrCode) {k : Nat} (h : k ≤ scrubOps.length) :
    (concludeTrace e).drop k = (scrubOps.drop k).map (fun r => .act (.reg r)) ++ [.finish e] := by
  rw [concludeTrace, List.drop_append_of_le_length (by simpa using h), List.map_drop]

/-- One write of Scrub, or the finish. -/
theorem seqStep_scrub {s : State} {c : Option Instr} {k : Nat} {e : ErrCode} (hk : k ≤ scrubOps.length)
    (hs : s.seq = .run c ((concludeTrace e).drop k)) (hd : s.done = false) (he : s.errCode = .ok)
    (hz : ∀ r ∈ scrubOps.take k, performReg r s = s) (hkey : KeyHeld s) : ∃ t, seqStep s = .next t ∧ SeqOk t := by
  have hzero : ∀ r ∈ scrubOps.take k, zeroedBy r s :=
    fun r hr => (performReg_eq_iff (List.mem_of_mem_take hr) s).mp (hz r hr)
  rw [concludeTrace_drop e hk] at hs
  by_cases hlt : k < scrubOps.length
  · rw [List.drop_eq_getElem_cons hlt, List.map_cons, List.cons_append] at hs
    have hm : scrubOps[k] ∈ scrubOps := List.getElem_mem hlt
    refine ⟨{ performReg scrubOps[k] s with seq := .run c ((concludeTrace e).drop (k + 1)) }, ?_, ?_⟩
    · rw [concludeTrace_drop e hlt]
      unfold seqStep
      rw [hs]
      rfl
    · have hc := performReg_control scrubOps[k] s
      refine seqOk_run (by rw [hc.done, hd]) (by rw [hc.errCode, he])
        (.inr (.inr (.inr ⟨k + 1, e, hlt, rfl, fun r hr => ?_, keyHeld_scrubOp hm hkey⟩)))
      rw [List.take_add_one, List.getElem?_eq_getElem hlt] at hr
      rcases List.mem_append.mp hr with hr | hr
      · exact performReg_of_zeroedBy (List.mem_of_mem_take hr)
          (zeroedBy_performReg (List.mem_of_mem_take hr) hm (hzero r hr))
      · rw [Option.toList_some, List.mem_singleton] at hr
        subst hr
        exact performReg_of_zeroedBy hm (zeroedBy_self hm s)
  · have hk' : k = scrubOps.length := by omega
    subst hk'
    rw [List.drop_length, List.map_nil, List.nil_append] at hs
    refine ⟨finish e s, by unfold seqStep; rw [hs], ?_⟩
    have hsc : scrubbed (finish e s) = scrubbed s := SameKept.scrubbed (s := s) (t := finish e s) (by constructor <;> rfl)
    rw [List.take_length] at hzero
    exact ⟨hsc.trans (scrubbed_of_zeroed hzero hkey), rfl, rfl, rfl⟩

/-- One element of a command's body. -/
theorem seqStep_act {s : State} {c : Option Instr} {a : Act} {l : List Act} {r : List Elem}
    (hs : s.seq = .run c (.act a :: (l.map Elem.act ++ r))) (hd : s.done = false) (he : s.errCode = .ok)
    (hk : KeySafe c (a :: l) s) (hr : ∀ t, KeySafe c l t → TraceOk c (l.map Elem.act ++ r) t) :
    ∃ t, seqStep s = .next t ∧ SeqOk t := by
  have hrun : running s = c := by rw [running, hs]
  obtain ⟨hok, herr⟩ := keySafe_perform hrun hk
  have hc := perform_control a s
  cases hp : perform a s with
  | ok t =>
    rw [hp] at hc
    refine ⟨{ t with seq := .run c (l.map Elem.act ++ r) }, ?_,
      seqOk_run (hc.done.trans hd) (hc.errCode.trans he) (hr t (hok t hp))⟩
    unfold seqStep
    rw [hs]
    simp only [hp]
  | error t =>
    rw [hp] at hc
    refine ⟨{ t with seq := .run c (concludeTrace .busError) }, ?_,
      seqOk_run (hc.done.trans hd) (hc.errCode.trans he) (.inr (.inl ⟨[], .busError, rfl, keySafe_nil.mpr (herr t hp)⟩))⟩
    unfold seqStep
    rw [hs]
    simp only [hp]

/-- Every sequencer step of a running command goes on, and keeps the sequencer's half of the invariant (10_state.md R42). -/
theorem seqStep_seqOk {s : State} {c : Option Instr} {l : List Elem} (hs : s.seq = .run c l) (h : SeqOk s) :
    ∃ t, seqStep s = .next t ∧ SeqOk t := by
  have h' := h
  unfold SeqOk at h'
  rw [hs] at h'
  obtain ⟨hd, he, ht⟩ := h'
  rcases ht with ⟨i, rfl, rfl, hk⟩ | ⟨acts, e, rfl, hk⟩ | ⟨acts, i, hi, rfl, hk⟩ | ⟨k, e, hk, rfl, hz, hkey⟩
  · cases hval : validate i s with
    | some e =>
      have hv : seqStep s = .next { s with seq := .run (some i) (concludeTrace e) } := by
        simp only [seqStep, hs, hval]
      exact ⟨_, hv, seqOk_run hd he (.inr (.inl ⟨[], e, rfl, keySafe_nil.mpr hk⟩))⟩
    | none =>
      have hv : seqStep s = .next { s with seq := .run (some i) (bodyTrace i s) } := by
        simp only [seqStep, hs, hval]
      exact ⟨_, hv, seqOk_run hd he (traceOk_bodyTrace hk i)⟩
  · cases acts with
    | nil => exact seqStep_scrub (k := 0) (Nat.zero_le _) hs hd he (fun _ hr => nomatch hr) (keySafe_nil.mp hk)
    | cons a l => exact seqStep_act hs hd he hk fun t ht => .inr (.inl ⟨l, e, rfl, ht⟩)
  · cases acts with
    | nil =>
      have hv : seqStep s = .next { s with seq := .run c (verdictTrace i s) } := by
        unfold seqStep
        rw [hs]
        rfl
      exact ⟨_, hv, seqOk_run hd he (traceOk_verdictTrace (keySafe_nil.mp hk) hi c)⟩
    | cons a l => exact seqStep_act hs hd he hk fun t ht => .inr (.inr (.inl ⟨l, i, hi, rfl, ht⟩))
  · exact seqStep_scrub hk hs hd he hz hkey

/-! ## Memory along sequencer steps -/

/-- Memory is canonical, and the log of replaced bytes holds addresses of data memory. -/
abbrev MemOk (s : State) : Prop := Memory.wf s.mem ∧ ∀ c ∈ s.undo, c.1 < 2 ^ 64

theorem seqStep_memOk {s t : State} (h : seqStep s = .next t) (hs : MemOk s) : MemOk t := by
  unfold seqStep at h
  split at h
  · cases h; exact hs
  · cases h
  · split at h <;> (cases h; exact hs)
  · cases h; exact hs
  · next c a rest _ =>
    have ha := perform_wf a hs
    split at h
    · next t' hp =>
      rw [hp] at ha
      cases h; exact ha
    · next t' hp =>
      rw [hp] at ha
      cases h; exact ha
  · cases h
    exact ⟨hs.1, fun _ hc => nomatch hc⟩

theorem advance_memOk (n : Nat) {s : State} (hs : MemOk s) : MemOk (advance n s) := by
  induction n generalizing s with
  | zero => exact hs
  | succ n ih =>
    unfold advance
    split
    · exact hs
    · split
      · next t h => exact ih (seqStep_memOk h hs)
      · exact hs
      · exact hs

theorem rollBack_wf (n : Nat) (l : List Host.Cell) {m : List Host.Cell} (hl : ∀ c ∈ l, c.1 < 2 ^ 64) (hm : Memory.wf m) :
    Memory.wf (rollBack n l m) := by
  induction l generalizing n m with
  | nil => cases n <;> exact hm
  | cons c l ih =>
    obtain ⟨a, b⟩ := c
    cases n with
    | zero => exact hm
    | succ n =>
      exact ih n (fun c hc => hl c (List.mem_cons_of_mem _ hc)) (memWrite_wf hm (hl (a, b) (List.mem_cons_self ..)) b)

theorem abandoned_wf {s : State} (hs : MemOk s) : Memory.wf (abandoned s).mem := by
  unfold abandoned
  simp only
  split
  · exact rollBack_wf _ _ hs.2 hs.1
  · exact (advance_memOk _ (s := { s with draws := s.draws + 1 }) hs).1

/-! ## What hosts do -/

/-- Everything a host action other than a reset can do to the block's own registers (10_state.md R15, R19 to R27; 20_memory.md R51). -/
theorem portWrite_cases (off : Offset) (bytes : Nat) (v : Word) (s : State) :
    (busy s = false ∧ accessed off bytes = some .cmd ∧ portWrite off bytes v s = acceptWord v s) ∨
    (SameKept s (portWrite off bytes v s) ∧ (portWrite off bytes v s).seq = s.seq ∧
      (portWrite off bytes v s).errCode = s.errCode ∧ (s.done = false → (portWrite off bytes v s).done = false) ∧
      (portWrite off bytes v s).mem = s.mem ∧ (portWrite off bytes v s).undo = s.undo ∧
      (portWrite off bytes v s).dataLatch = s.dataLatch ∧ (portWrite off bytes v s).okBit = s.okBit) := by
  have same : ∀ t : State, portWrite off bytes v s = t → SameKept s t → t.seq = s.seq → t.errCode = s.errCode →
      (s.done = false → t.done = false) → t.mem = s.mem → t.undo = s.undo → t.dataLatch = s.dataLatch → t.okBit = s.okBit →
      (busy s = false ∧ accessed off bytes = some .cmd ∧ portWrite off bytes v s = acceptWord v s) ∨
      (SameKept s (portWrite off bytes v s) ∧ (portWrite off bytes v s).seq = s.seq ∧
        (portWrite off bytes v s).errCode = s.errCode ∧ (s.done = false → (portWrite off bytes v s).done = false) ∧
        (portWrite off bytes v s).mem = s.mem ∧ (portWrite off bytes v s).undo = s.undo ∧
        (portWrite off bytes v s).dataLatch = s.dataLatch ∧ (portWrite off bytes v s).okBit = s.okBit) := by
    rintro t rfl h1 h2 h3 h4 h5 h6 h7 h8
    exact .inr ⟨h1, h2, h3, h4, h5, h6, h7, h8⟩
  have kept : SameKept s s := by constructor <;> rfl
  cases hacc : accessed off bytes with
  | none =>
    exact hacc ▸ same s (by rw [portWrite, hacc]) kept rfl rfl (fun h => h) rfl rfl rfl rfl
  | some r =>
    have hw : portWrite off bytes v s = writeReg r v s := by rw [portWrite, hacc]
    rw [hacc] at same
    cases r with
    | cmd =>
      cases hb : busy s with
      | false => exact .inl ⟨rfl, rfl, by rw [hw, writeReg, unlessBusy, hb]; rfl⟩
      | true =>
        refine (hb ▸ same) (ignoreWrite s) ?_ ?_ rfl rfl (fun h => h) rfl rfl rfl rfl
        · rw [hw, writeReg, unlessBusy, hb]; rfl
        · constructor <;> rfl
    | status =>
      refine same _ hw ?_ rfl rfl (fun h => ?_) rfl rfl rfl rfl
      · constructor <;> rfl
      · simp only [writeReg, h, Bool.false_and]
    | irqEn =>
      refine same _ hw ?_ rfl rfl (fun h => h) rfl rfl rfl rfl
      constructor <;> rfl
    | present =>
      refine same _ hw ?_ ?_ ?_ ?_ ?_ ?_ ?_ ?_ <;> cases hb : busy s <;> simp only [writeReg, unlessBusy, hb] <;>
        first | rfl | (constructor <;> rfl) | exact fun h => h
    | desc b w =>
      refine same _ hw ?_ ?_ ?_ ?_ ?_ ?_ ?_ ?_ <;> cases hb : busy s <;> simp only [writeReg, unlessBusy, hb] <;>
        first | rfl | (constructor <;> rfl) | exact fun h => h
    | id => exact same s hw kept rfl rfl (fun h => h) rfl rfl rfl rfl
    | caps => exact same s hw kept rfl rfl (fun h => h) rfl rfl rfl rfl
    | msgLenLo => exact same s hw kept rfl rfl (fun h => h) rfl rfl rfl rfl
    | msgLenHi => exact same s hw kept rfl rfl (fun h => h) rfl rfl rfl rfl
    | errAddrLo => exact same s hw kept rfl rfl (fun h => h) rfl rfl rfl rfl
    | errAddrHi => exact same s hw kept rfl rfl (fun h => h) rfl rfl rfl rfl

/-! ## The invariant through what hosts do -/

theorem inv_of_memOk {s : State} (hm : MemOk s) (hs : SeqOk s) : Inv s := ⟨hm.1, hm.2, hs⟩

theorem Inv.memOk {s : State} (h : Inv s) : MemOk s := ⟨h.mem_wf, h.undo_lt⟩

theorem SeqOk.keyHeld_of_idle {s : State} (h : SeqOk s) (hb : busy s = false) : KeyHeld s := by
  unfold busy at hb
  unfold SeqOk at h
  cases hs : s.seq with
  | idle =>
    rw [hs] at h
    exact keyHeld_of_scrubbed h.1
  | run c l => rw [hs] at hb; cases hb

/-- SeqOk reads the registers of SameKept, the sequencer's position, DONE and ERRCODE. -/
theorem SeqOk.congr {s t : State} (h : SeqOk s) (hk : SameKept s t) (hq : t.seq = s.seq) (he : t.errCode = s.errCode)
    (hd : s.done = false → t.done = false) (hu : s.undo = [] → t.undo = []) (hl : t.dataLatch = s.dataLatch)
    (ho : t.okBit = s.okBit) : SeqOk t := by
  unfold SeqOk at h ⊢
  rw [hq]
  cases hs : s.seq with
  | idle =>
    rw [hs] at h
    exact ⟨hk.scrubbed.trans h.1, hu h.2.1, hl.trans h.2.2.1, ho.trans h.2.2.2⟩
  | run c l =>
    rw [hs] at h
    exact ⟨hd h.1, he.trans h.2.1, hk.traceOk h.2.2⟩

/-- Acceptance keeps the invariant (60_exceptions.md R141). -/
theorem acceptWord_inv {s : State} (h : Inv s) (hb : busy s = false) (w : Word) : Inv (acceptWord w s) := by
  refine ⟨h.mem_wf, fun _ hc => absurd hc List.not_mem_nil, ?_⟩
  refine ⟨rfl, rfl, SameKept.traceOk (s := s) (t := acceptWord w s) (by constructor <;> rfl) ?_⟩
  exact traceOk_startTrace (h.seq_ok.keyHeld_of_idle hb) _

theorem portWrite_inv {s : State} (h : Inv s) (off : Offset) (bytes : Nat) (v : Word) : Inv (portWrite off bytes v s) := by
  rcases portWrite_cases off bytes v s with ⟨hb, -, h'⟩ | ⟨h1, h2, h3, h4, h5, h6, h7, h8⟩
  · rw [h']
    exact acceptWord_inv h hb v
  · exact ⟨h5 ▸ h.mem_wf, h6 ▸ h.undo_lt, h.seq_ok.congr h1 h2 h3 h4 (fun hu => h6.trans hu) h7 h8⟩

theorem hostStore_inv {s : State} (h : Inv s) (a : Addr) (b : Byte) : Inv (hostStore a b s) := by
  unfold hostStore
  split
  · refine ⟨memWrite_wf h.mem_wf a.isLt b, fun c hc => h.undo_lt c (List.mem_of_mem_filter hc), ?_⟩
    refine h.seq_ok.congr (by constructor <;> rfl) rfl rfl (fun hd => hd) (fun hu => ?_) rfl rfl
    simp only [hu, memErase_nil]
  · exact h

theorem hostLoad_inv {s : State} (h : Inv s) (a : Addr) : Inv (hostLoad a s) := by
  unfold hostLoad
  split
  all_goals
    exact ⟨h.mem_wf, h.undo_lt, h.seq_ok.congr (by constructor <;> rfl) rfl rfl (fun hd => hd) (fun hu => hu) rfl rfl⟩

/-- A reset keeps the invariant, whatever the block was doing (70_reset_and_hazards.md R157 to R160). -/
theorem resetStep_inv {s : State} (h : Inv s) : Inv (resetStep s) := by
  refine ⟨?_, fun _ hc => absurd hc List.not_mem_nil, ?_⟩
  · show Memory.wf (if busy s then abandoned s else s).mem
    split
    · exact abandoned_wf h.memOk
    · exact h.mem_wf
  · refine ⟨?_, rfl, rfl, rfl⟩
    rw [SameKept.scrubbed (s := State.reset) (t := resetStep s) (by constructor <;> rfl)]
    decide

/-- Every host action keeps the invariant. -/
theorem deliver_inv {s : State} (h : Inv s) (act : HostAct) : Inv (deliver act s) := by
  have same : ∀ t : State, MemOk t → SameKept s t → t.seq = s.seq → t.errCode = s.errCode → t.done = s.done → t.undo = s.undo →
      t.dataLatch = s.dataLatch → t.okBit = s.okBit → Inv t :=
    fun t h0 h1 h2 h3 h4 h5 h6 h7 =>
      ⟨h0.1, h0.2, h.seq_ok.congr h1 h2 h3 (fun hd => h4.trans hd) (fun hu => h5.trans hu) h6 h7⟩
  cases act with
  | write off bytes v => exact portWrite_inv h off bytes v
  | read off bytes => exact same _ h.memOk (by constructor <;> rfl) rfl rfl rfl rfl rfl rfl
  | busWrite a bytes v =>
    simp only [deliver]
    split
    · exact portWrite_inv h _ bytes v
    · exact h
  | busRead a bytes =>
    simp only [deliver]
    split
    · exact same _ h.memOk (by constructor <;> rfl) rfl rfl rfl rfl rfl rfl
    · exact h
  | store a b => exact hostStore_inv h a b
  | load a => exact hostLoad_inv h a
  | writeBack r => exact same _ h.memOk (by constructor <;> rfl) rfl rfl rfl rfl rfl rfl
  | invalidate r => exact same _ h.memOk (by constructor <;> rfl) rfl rfl rfl rfl rfl rfl
  | reset => exact resetStep_inv h

/-- A poll of WAIT keeps the invariant (30_encoding.md R79). -/
theorem poll_inv {s : State} (h : Inv s) : Inv (poll s) := deliver_inv h _

/-- The end of a command keeps the invariant (60_exceptions.md R142). -/
theorem conclude_inv {s : State} (hm : MemOk s) (hk : KeyHeld s) (e : ErrCode) : Inv (conclude e s) :=
  ⟨hm.1, fun _ hc => absurd hc List.not_mem_nil, scrubbed_conclude hk, rfl, rfl, rfl⟩

/-- What hosts have yet to do is no part of the invariant. -/
theorem Inv.withInputs {s : State} (h : Inv s) (l : List Input) : Inv { s with inputs := l } :=
  ⟨h.mem_wf, h.undo_lt, h.seq_ok.congr (by constructor <;> rfl) rfl rfl (fun hd => hd) (fun hu => hu) rfl rfl⟩

end Sys2Proof.Machine
end

