-- ==== Sys2Proof/Tests/Slice0.lean ====
section
/-! SUPPORT. Tests of the model, with expected values from 95_test_vectors.md or worked out by hand from the rules cited, and the
witnesses: for each statement with hypotheses, a concrete state and operands that meet all of them. -/

namespace Sys2Proof.Tests

open Sys2Proof Sys2Proof.Machine

/-! ## States -/

/-- The STATUS word a host reads after a step. -/
def statusOf : Host.Outcome State Fault Refusal → Option Word
  | .next t => some (portRead 0x00C 4 t)
  | .fault _ => none
  | .refused _ => none

/-- The n bytes at a after a step. -/
def bytesOf (a : Addr) (n : Nat) : Host.Outcome State Fault Refusal → List Byte
  | .next t => regionBytes t.mem a n
  | .fault _ => []
  | .refused _ => []

/-- ERRADDR and MSGLEN after a step. -/
def recordsOf : Host.Outcome State Fault Refusal → List Addr
  | .next t => [t.errAddr, t.msgLen]
  | .fault _ => []
  | .refused _ => []

/-- The base configuration B of 95_test_vectors.md L2.2 with `inLen` bytes of IN, `outLen` of OUT, PRESENT and CTX as given; memory
holds zeros. -/
def base (ctx : Ctx) (present : BitVec 6) (inLen outLen : Addr) : State :=
  { State.reset with
    ctx := ctx
    present := present
    desc := ⟨⟨0x1000, 32⟩, ⟨0x1100, 12⟩, ⟨0x1200, 12⟩, ⟨0x1300, inLen⟩, ⟨0x1400, outLen⟩, ⟨0x1500, 16⟩⟩ }

/-- B. -/
def baseB : State := base .keyed 0x3E 114 114

/-- The LOADKEY start of 95_test_vectors.md L2.2, with two of its key bytes. -/
def loadkeyStart : State := { base .empty 0x01 0 0 with mem := [(0x1000, 0x80), (0x101F, 0x9f)] }

/-- The TAGIN start of 95_test_vectors.md L2.3, row T2. -/
def taginStart : State :=
  { State.reset with
    present := 0x1C
    desc := ⟨.zero, .zero, ⟨0x2000, 3⟩, ⟨0x2100, 5⟩, ⟨0x3000, 48⟩, .zero⟩
    mem := [(0x2000, 0x01), (0x2001, 0x02), (0x2002, 0x03), (0x2100, 0xaa), (0x2101, 0xbb), (0x2102, 0xcc), (0x2103, 0xdd),
      (0x2104, 0xee)] }

/-! ## Well-formed words and decoding -/

/-- 30_encoding.md R70, R71: a word that fails each check, and one that passes both. -/
theorem test_wellFormed_checks :
    rsvdClear 0x00000012#32 = false ∧ wellFormedWord 0x00000012#32 = false ∧ opAssigned 0x00000008#32 = false ∧
      wellFormedWord 0x00000008#32 = false ∧ opAssigned 0x00000000#32 = false ∧ wellFormedWord 0x00000000#32 = false ∧
      wellFormedWord 0x00000007#32 = true := by decide

/-- 30_encoding.md R71, bit by bit: OP in bits 3:0, bits 31:4 zero. -/
theorem test_decode_words :
    decodeCommand 0b00000000000000000000000000000001#32 = some .loadkey ∧
    decodeCommand 0b00000000000000000000000000000010#32 = some .enc ∧
    decodeCommand 0b00000000000000000000000000000011#32 = some .dec ∧
    decodeCommand 0b00000000000000000000000000000100#32 = some .encc ∧
    decodeCommand 0b00000000000000000000000000000101#32 = some .decc ∧
    decodeCommand 0b00000000000000000000000000000110#32 = some .release ∧
    decodeCommand 0b00000000000000000000000000000111#32 = some .tagin := by decide

/-- 30_encoding.md R73: ILLEGAL words. -/
theorem test_decode_illegal :
    decodeCommand 0x00000000#32 = none ∧ decodeCommand 0x00000008#32 = none ∧ decodeCommand 0x0000000F#32 = none ∧
      decodeCommand 0x00000012#32 = none ∧ decodeCommand 0x80000002#32 = none := by decide

/-- The table's words through the host's two entry points; LOADKEY, ENC, RELEASE and the word 0x12 from reset give InvalidKey (K2),
ContextUnusable (V2), RL2 and S3 of 95_test_vectors.md. -/
theorem test_first_command :
    decodeTableWord 32 1 = some .loadkey ∧ decodeTableWord 32 7 = some .tagin ∧ decodeTableWord 32 0x12 = none ∧
    statusOf (step (State.reset.withFetchWord 32 1)) = some 0x1146 ∧
    statusOf (step (State.reset.withFetchWord 32 2)) = some 0x2846 ∧
    statusOf (step (State.reset.withFetchWord 32 6)) = some 0x6062 ∧
    statusOf (step (State.reset.withFetchWord 32 0x12)) = some 0x2946 := by decide +kernel

/-! ## Commands -/

/-- 95_test_vectors.md K1: STATUS, KEY[0] and KEY[31]. -/
theorem test_loadkey_ok :
    statusOf (exec .loadkey loadkeyStart) = some 0x1052 ∧
    (match exec .loadkey loadkeyStart with
     | .next t => [byteAt t.key 0, byteAt t.key 31]
     | .fault _ => []
     | .refused _ => []) = [0x80, 0x9f] := by decide +kernel

/-- 95_test_vectors.md K6: a bus error at the key byte 5. -/
theorem test_loadkey_busError :
    statusOf (exec .loadkey { loadkeyStart with rdFail := [⟨0x1005, 1⟩] }) = some 0x1C46 ∧
    recordsOf (exec .loadkey { loadkeyStart with rdFail := [⟨0x1005, 1⟩] }) = [0x1005, 0] := by decide +kernel

/-- 95_test_vectors.md E1 and V1: an empty text with AD absent; STATUS and MSGLEN. -/
theorem test_enc_ok :
    statusOf (exec .enc (base .keyed 0x3A 0 0)) = some 0x2052 ∧ recordsOf (exec .enc (base .keyed 0x3A 0 0)) = [0, 16] := by
  decide +kernel

/-- 95_test_vectors.md V3, V4, V6, V10, V15: STATUS. -/
theorem test_enc_validation :
    statusOf (exec .enc (base .released 0x3E 114 114)) = some 0x2866 ∧
    statusOf (exec .enc (base .keyed 0x3C 114 114)) = some 0x2256 ∧
    statusOf (exec .enc (base .keyed 0x3E 114 113)) = some 0x2356 ∧
    statusOf (exec .enc (base .keyed 0x3E 274877906881 274877906881)) = some 0x2756 ∧
    statusOf (exec .enc { baseB with desc := setDesc baseB.desc .out ⟨0x1350, 114⟩ }) = some 0x2B56 := by decide +kernel

/-- 95_test_vectors.md EC2 and EC4: ENCC ignores TAG (PRESENT bit 5 clear). -/
theorem test_encc_ok :
    statusOf (exec .encc (base .keyed 0x1A 0 16)) = some 0x4052 ∧ recordsOf (exec .encc (base .keyed 0x1A 0 16)) = [0, 16] := by
  decide +kernel

/-- 95_test_vectors.md EC3: len(OUT) is not n + 16. -/
theorem test_encc_mismatch : statusOf (exec .encc (base .keyed 0x3E 2 2)) = some 0x4356 := by decide +kernel

/-- 95_test_vectors.md D10 and D11: TAG absent; len(TAG) = 15. -/
theorem test_dec_validation :
    statusOf (exec .dec (base .keyed 0x1E 114 114)) = some 0x3256 ∧
    statusOf (exec .dec { baseB with desc := setDesc baseB.desc .tag ⟨0x1500, 15⟩ }) = some 0x3556 := by decide +kernel

/-- 95_test_vectors.md DC5 and DC6: 15 bytes of IN; 16 bytes with len(OUT) = 1. -/
theorem test_decc_validation :
    statusOf (exec .decc (base .keyed 0x3E 15 0)) = some 0x5556 ∧ statusOf (exec .decc (base .keyed 0x3E 16 1)) = some 0x5356 := by
  decide +kernel

/-- 95_test_vectors.md RL1: RELEASE from KEYED with a key. -/
theorem test_release :
    statusOf (exec .release { baseB with key := .replicate 32 0x80 }) = some 0x6062 ∧
    (match exec .release { baseB with key := .replicate 32 0x80 } with
     | .next t => decide (t.key = .replicate 32 0)
     | .fault _ => false
     | .refused _ => false) = true := by decide +kernel

/-- 95_test_vectors.md T2 and P1: STATUS, MSGLEN and the message at OUT. -/
theorem test_tagin_ok :
    statusOf (exec .tagin taginStart) = some 0x7042 ∧ recordsOf (exec .tagin taginStart) = [0, 48] ∧
    bytesOf 0x3000 48 (exec .tagin taginStart) =
      [0x01, 0x02, 0x03] ++ List.replicate 13 0 ++ [0xaa, 0xbb, 0xcc, 0xdd, 0xee] ++ List.replicate 11 0 ++
        [0x03] ++ List.replicate 7 0 ++ [0x05] ++ List.replicate 7 0 := by decide +kernel

/-- 95_test_vectors.md T15: a bus error at IN byte 1, after 17 message bytes. -/
theorem test_tagin_busError :
    recordsOf (exec .tagin { taginStart with rdFail := [⟨0x2101, 1⟩] }) = [0x2101, 48] ∧
    bytesOf 0x3000 18 (exec .tagin { taginStart with rdFail := [⟨0x2101, 1⟩] }) =
      [0x01, 0x02, 0x03] ++ List.replicate 13 0 ++ [0xaa, 0x00] := by decide +kernel

/-! ## Registers, reset, lengths -/

/-- 95_test_vectors.md S1, S2, S11, S12, S13. -/
theorem test_registers :
    portRead 0x00C 4 State.reset = 0x00000040 ∧ portRead 0x000 4 State.reset = 0x84390001 ∧
    portRead 0x004 4 State.reset = 0x40100C20 ∧ portRead 0x00C 2 State.reset = 0 ∧ portRead 0x00E 4 State.reset = 0 ∧
    portRead 0x0A0 4 State.reset = 0 ∧ portRead 0xFFC 4 State.reset = 0 ∧
    portRead 0x000 4 (portWrite 0x000 4 0xFFFFFFFF State.reset) = 0x84390001 := by decide

/-- 30_encoding.md R79 and 95_test_vectors.md P1: SETBUF AD writes 0x060 to 0x06C. -/
theorem test_setbuf :
    progEncoding (progSetbuf .ad 0x2000 3) = [(0x060, 0x2000), (0x064, 0), (0x068, 3), (0x06C, 0)] := by decide

/-- The program P6 of 95_test_vectors.md. -/
def programP6 : List HostLine :=
  [.w 0x008 0x12] ++ progWait ++ [.r 0x00C] ++ progIrqon ++ progAck ++ progCmd .tagin ++ progPres 0x1C ++ progWait ++
    [.r 0x00C, .r 0x014]

/-- 95_test_vectors.md P6: its encoding. -/
theorem test_P6_encoding :
    progEncoding programP6 =
      [(0x008, 0x00000012), (0x010, 0x00000001), (0x00C, 0x0000000A), (0x008, 0x00000007), (0x014, 0x0000001C)] := by decide

/-- P6 at its race, with the lines from PRES on still to come: TAGIN was accepted from reset and `n` sequencer steps have been made. -/
def atRace (n : Nat) : Host.Outcome State Fault Refusal :=
  seqRun n (acceptWord (encode .tagin) { State.reset with inputs := schedule (programP6.drop 6) [] })

/-- PRESENT and WIGN after one more step. -/
def afterPres : Host.Outcome State Fault Refusal → Option (Word × Bool)
  | .next s =>
    match step s with
    | .next t => some (portRead 0x014 4 t, (portRead 0x00C 4 t).getLsbD 3)
    | .fault _ => none
    | .refused _ => none
  | .fault _ => none
  | .refused _ => none

/-- 95_test_vectors.md P6, the two outcomes of the PRES write: (b) while TAGIN runs it is ignored and sets WIGN, (a) after it has
finished it takes effect. -/
theorem test_P6_race : afterPres (atRace 0) = some (0x00, true) ∧ afterPres (atRace 12) = some (0x1C, false) := by decide +kernel

/-- 30_encoding.md R79: WAIT reads STATUS again while DONE = 0, as after reset, and ends at the read that shows DONE = 1. -/
theorem test_wait :
    step { State.reset with inputs := schedule progWait [] } =
      .next { State.reset with inputs := schedule progWait [], busData := 0x00000040 } ∧
    step { State.reset with inputs := schedule progWait [], done := true } =
      .next { State.reset with done := true, busData := 0x00000042 } := ⟨rfl, rfl⟩

/-- 70_reset_and_hazards.md R169 and 95_test_vectors.md K6: between the failing key read and the finish ERRADDR reads 0; after the finish
it reads the failing address. -/
theorem test_errAddr_busy :
    (match seqRun 9 (acceptWord 1 { loadkeyStart with rdFail := [⟨0x1000, 1⟩] }) with
     | .next t => (t.errAddr, portRead 0x028 4 t, busy t)
     | .fault _ => (0, 0, false)
     | .refused _ => (0, 0, false)) = (0x1000, 0, true) ∧
    (match exec .loadkey { loadkeyStart with rdFail := [⟨0x1000, 1⟩] } with
     | .next t => (portRead 0x028 4 t, busy t)
     | .fault _ => (0, true)
     | .refused _ => (0, true)) = (0x1000, false) := by decide +kernel

/-- 95_test_vectors.md M1, M4, M5, M7 and M8, and LE64(0x0102030405060708). -/
theorem test_lengths :
    messageLen 0 0 = 16 ∧ messageLen 3 5 = 48 ∧ messageLen 12 114 = 160 ∧ messageLen 15 17 = 64 ∧
    messageLen (2 ^ 64 - 1) 0 = 2 ^ 64 + 16 ∧ le64 0x0102030405060708 = [8, 7, 6, 5, 4, 3, 2, 1] := by decide

/-! ## Witnesses: encoding and steps -/

/-- CTX = KEYED with a key and one byte of memory. -/
def keyedState : State := { baseB with key := .replicate 32 0x80, mem := [(0x1300, 0x41)] }

/-- A state in which LOADKEY has just been accepted. -/
def runningState : State := acceptWord 0x00000001#32 keyedState

theorem test_keyed_inv : Inv keyedState := ⟨by decide, by decide, by decide +kernel, rfl, rfl, rfl⟩

theorem test_running_inv : Inv runningState := acceptWord_inv test_keyed_inv rfl _

theorem test_wit_DecodeExactly :
    ((0x80000001#32 : Word).extractLsb' 4 28 ≠ 0 ∧ (0x00000010#32 : Word).extractLsb' 4 28 ≠ 0) ∧
    ((0x00000000#32 : Word).extractLsb' 4 28 = 0 ∧ ∀ i, (0x00000000#32 : Word) ≠ encode i) ∧
    ((0x00000008#32 : Word).extractLsb' 4 28 = 0 ∧ ∀ i, (0x00000008#32 : Word) ≠ encode i) :=
  ⟨by decide, ⟨by decide, fun i => by cases i <;> decide⟩, by decide, fun i => by cases i <;> decide⟩

/-- A host writes the word w to CMD, and the host's next action is `next`. -/
def writing (w : Word) (next : List Input) : State := { keyedState with inputs := ⟨.whenIdle, .write 0x008 4 w⟩ :: next }

theorem test_wit_StepRunsCommand :
    busy (writing 0x00000007#32 []) = false ∧
    (writing 0x00000007#32 []).inputs = ⟨.whenIdle, .write 0x008 4 0x00000007#32⟩ :: [] ∧
    commandWord (.write 0x008 4 0x00000007#32) = some 0x00000007#32 ∧ polling .whenIdle (writing 0x00000007#32 []) = false ∧
    interrupted [] = false ∧ decode 0x00000007#32 = .ok .tagin :=
  ⟨rfl, rfl, rfl, rfl, rfl, rfl⟩

/-- An address outside the window, wherever BASE is. -/
theorem outside_window : ∃ a : Addr, a.extractLsb' 12 52 ≠ Config.basePage := by
  by_cases h : Config.basePage = 0
  · exact ⟨0x1000, by rw [h]; decide⟩
  · exact ⟨0, fun h' => h (h'.symm.trans (by decide))⟩

theorem test_wit_StepTakesTurns :
    (∃ a : Addr, a.extractLsb' 12 52 ≠ Config.basePage) ∧ (busy keyedState = false ∧ keyedState.inputs = []) ∧
    (busy { keyedState with inputs := [⟨.whenDone, .read 0x00C 4⟩] } = false ∧ keyedState.done = false) ∧
    (busy { keyedState with inputs := [⟨.whenIdle, .store 5 1⟩] } = false ∧ commandWord (.store 5 1) = none) ∧
    (busy { keyedState with inputs := [⟨.whenDone, .read 0x00C 4⟩], done := true } = false ∧
      commandWord (.read 0x00C 4) = none) ∧
    (busy (writing 2 [⟨.after 3, .load 5⟩]) = false ∧ commandWord (.write 0x008 4 2) = some 2 ∧
      (writing 2 [⟨.after 3, .load 5⟩]).inputs = ⟨.whenIdle, .write 0x008 4 2⟩ :: ⟨.after 3, .load 5⟩ :: []) ∧
    (busy runningState = true ∧ runningState.inputs = []) ∧
    (busy { runningState with inputs := [⟨.whenIdle, .load 5⟩] } = true ∧
      busy { runningState with inputs := [⟨.whenDone, .read 0x00C 4⟩] } = true ∧
      busy { runningState with inputs := [⟨.after 0, .load 5⟩] } = true ∧
      busy { runningState with inputs := [⟨.after 1, .load 5⟩] } = true) := ⟨outside_window, by decide⟩

/-- A command's word and an ILLEGAL one. -/
theorem test_wit_WholeRunIsElementByElement :
    busy keyedState = false ∧ decode 0x00000007#32 = .ok .tagin ∧ ∀ i, decode 0x00000012#32 ≠ .ok i :=
  ⟨rfl, rfl, fun i => by cases i <;> decide⟩

theorem test_wit_IllegalWordRefused :
    busy (writing 0x00000012#32 []) = false ∧ polling .whenIdle (writing 0x00000012#32 []) = false ∧ interrupted [] = false ∧
    wellFormedWord 0x00000012#32 = false ∧ commandWord (.write 0x008 4 0x00000012#32) = some 0x00000012#32 ∧
    (writing 0x00000012#32 []).inputs = ⟨.whenIdle, .write 0x008 4 0x00000012#32⟩ :: [] ∧
    wellFormedWord 0x00000008#32 = false := by decide

/-! ## Witnesses: registers and reset -/

/-- Each clause of the reserved accesses at its boundaries. -/
theorem test_wit_ReservedAccessesInert :
    ((2 : Nat) ≠ 4) ∧ (0x00E#12 : Offset).toNat % 4 ≠ 0 ∧
    (0x018 ≤ (0x018#12 : Offset).toNat ∧ (0x01C#12 : Offset).toNat < 0x020) ∧
    (0x030 ≤ (0x030#12 : Offset).toNat ∧ (0x03C#12 : Offset).toNat < 0x040) ∧
    0x0A0 ≤ (0x0A0#12 : Offset).toNat ∧ 0x0A0 ≤ (0xFFF#12 : Offset).toNat := by decide

theorem test_wit_StatusFields : Inv runningState ∧ (portRead 0x00C 4 runningState).getLsbD 0 = true :=
  ⟨test_running_inv, by decide +kernel⟩

theorem test_wit_StatusWriteOneToClear : Inv runningState ∧ busy runningState = true := ⟨test_running_inv, rfl⟩

theorem test_wit_Scrubbed :
    Inv keyedState ∧ step keyedState = .next keyedState ∧ (portRead 0x00C 4 keyedState).getLsbD 0 = false :=
  ⟨test_keyed_inv, rfl, by decide +kernel⟩

/-- Each register the rule names, the first and the last of the descriptors among them. -/
theorem test_wit_BusyWritesIgnored :
    busy runningState = true ∧ (0x040#12 : Offset) = descOffset .key .addrLo ∧ (0x09C#12 : Offset) = descOffset .tag .lenHi ∧
      ∃ t, step runningState = .next t ∧ busy t = true := ⟨rfl, rfl, rfl, _, rfl, rfl⟩

theorem test_wit_RegisterReadBack :
    busy keyedState = false ∧ ((Buf.tag, DescWord.lenHi) : Buf × DescWord) ≠ (.tag, .lenLo) := by decide

theorem test_wit_InterruptLine :
    (busy keyedState = false ∧ (∃ t, exec .release keyedState = .next t) ∧ ∃ t, runIllegal 0x00000012#32 keyedState = .next t) ∧
    (0x00000002#32 : Word).getLsbD 1 = true :=
  ⟨⟨rfl, ⟨_, rfl⟩, _, rfl⟩, rfl⟩

/-- A reset while no command runs; and one of a running command, right after acceptance and one element later. -/
theorem test_wit_ResetAndMemory :
    (busy { keyedState with inputs := [⟨.whenIdle, .reset⟩] } = false ∧ polling .whenIdle keyedState = false) ∧
    (busy keyedState = false ∧ keyedState.special = [] ∧ HandedOver keyedState ∧
      seqRun 0 (acceptWord 0x00000001#32 keyedState) = .next runningState ∧ busy runningState = true ∧
      ∃ t, seqRun 1 (acceptWord 0x00000001#32 keyedState) = .next t ∧ busy t = true) :=
  ⟨⟨rfl, rfl⟩, rfl, rfl, .inl rfl, rfl, rfl, _, rfl, rfl⟩

theorem test_wit_StepKeepsInvariant : Inv keyedState ∧ Inv runningState := ⟨test_keyed_inv, test_running_inv⟩

/-! ## Witnesses: memory -/

/-- A platform that grants no read at 2^64 - 1 and no write at 0. -/
def edges : State := { runningState with rdFail := [⟨2 ^ 64 - 1, 1⟩], wrFail := [⟨0, 1⟩] }

theorem test_wit_ByteAccesses :
    (ordinary edges 0 = true ∧ wrOk edges 0 = false ∧ rdOk edges 0 = true ∧ edges.blockStale = []) ∧
    (ordinary edges (-1) = true ∧ wrOk edges (-1) = true ∧ rdOk edges (-1) = false) ∧
    (wrOk edges 1 = true ∧ rdOk edges 1 = true) := by decide

/-- A platform that is not coherent. -/
def apart (s : State) : State := { s with coherent := false }

theorem test_wit_OrderingPoints :
    (busy keyedState = false ∧ keyedState.coherent = true ∧ ordinary keyedState (-1) = true ∧ rdOk keyedState (-1) = true ∧
      ∃ t, exec .release keyedState = .next t) ∧
    (busy (apart keyedState) = false ∧ ordinary (apart keyedState) 0x1300 = true ∧ rdOk (apart keyedState) 0x1300 = true ∧
      Covers ⟨0x1300, 1⟩ 0x1300 ∧ ∃ t, exec .release (apart keyedState) = .next t) ∧
    (busy (apart runningState) = true ∧ ordinary (apart runningState) (-1) = true ∧ rdOk (apart runningState) (-1) = true ∧
      Covers ⟨2 ^ 64 - 1, 1⟩ (-1)) :=
  ⟨⟨rfl, rfl, by decide, by decide, _, rfl⟩, ⟨rfl, by decide, by decide, by decide, _, rfl⟩, by decide +kernel⟩

/-- 20_memory.md R62, R66, R67: a store during a command, written back during it, stays a race for that command and is handed over to the
next; not written back, it is not. -/
theorem test_writeBack_busy :
    (deliver (.writeBack ⟨0x1300, 1⟩) (deliver (.store 0x1300 0x42) (apart runningState))).blockStale = [(0x1300, 0x41)] ∧
    (conclude .ok (deliver (.writeBack ⟨0x1300, 1⟩) (deliver (.store 0x1300 0x42) (apart runningState)))).blockStale = [] ∧
    (conclude .ok (deliver (.store 0x1300 0x42) (apart runningState))).blockStale = [(0x1300, 0x41)] := by decide

theorem test_wit_RacesGiveOldOrNew :
    busy runningState = true ∧ ordinary runningState 0x1300 = true ∧ runningState.coherent = true ∧
      rdOk runningState 0x1300 = true := by decide

/-! ## Witnesses: validation -/

/-- Each code of Validate is met: 95_test_vectors.md V1 to V15 by row. -/
theorem test_wit_EncDecValidation :
    validate .enc (base .empty 0x3E 114 114) = some .contextUnusable ∧
    validate .dec (base .keyed 0x3C 114 114) = some .missingArgument ∧
    validate .enc (base .keyed 0x3E 114 113) = some .lengthMismatch ∧
    validate .dec { baseB with desc := setDesc baseB.desc .nonce ⟨0x1100, 11⟩ } = some .invalidNonceLength ∧
    validate .enc { baseB with desc := setDesc baseB.desc .tag ⟨0x1500, 17⟩ } = some .invalidTagLength ∧
    validate .enc (base .keyed 0x3E 274877906881 274877906881) = some .lengthOverflow ∧
    validate .enc (base .keyed 0x3E 274877906880 274877906880) = some .bufferOverlap ∧
    validate .enc baseB = none ∧ busy baseB = false := by decide +kernel

theorem test_wit_EnccValidation :
    validate .encc (base .keyed 0x1E 2 18) = none ∧ validate .encc (base .keyed 0x1E 2 17) = some .lengthMismatch ∧
    validate .encc (base .keyed 0x0E 2 18) = some .missingArgument ∧ busy (base .keyed 0x1E 2 18) = false := by decide +kernel

theorem test_wit_DeccValidation :
    validate .decc (base .keyed 0x1E 15 0) = some .invalidTagLength ∧ validate .decc (base .keyed 0x1E 16 0) = none ∧
    validate .decc (base .keyed 0x1E 16 1) = some .lengthMismatch ∧ busy (base .keyed 0x1E 16 0) = false := by decide +kernel

/-- 95_test_vectors.md T10, T11, T13. -/
theorem test_wit_TaginValidation :
    validate .tagin { taginStart with desc := setDesc taginStart.desc .out ⟨0x3000, 47⟩ } = some .lengthMismatch ∧
    validate .tagin { taginStart with present := 0x14 } = some .missingArgument ∧
    validate .tagin { taginStart with desc := ⟨.zero, .zero, ⟨0x2000, -1⟩, ⟨0x2100, 0⟩, ⟨0x3000, 48⟩, .zero⟩ } =
      some .lengthOverflow ∧
    validate .tagin taginStart = none ∧ busy taginStart = false := by decide +kernel

/-- 95_test_vectors.md K2 to K5. -/
theorem test_wit_LoadkeyValidation :
    validate .loadkey { loadkeyStart with present := 0 } = some .invalidKey ∧
    validate .loadkey { loadkeyStart with desc := setDesc loadkeyStart.desc .key ⟨0x1000, 31⟩ } = some .invalidKey ∧
    validate .loadkey { loadkeyStart with desc := setDesc loadkeyStart.desc .key ⟨-31, 32⟩ } = some .addressRange ∧
    validate .loadkey { loadkeyStart with desc := setDesc loadkeyStart.desc .key ⟨-32, 32⟩ } = none ∧
    busy loadkeyStart = false := by decide +kernel

/-- 95_test_vectors.md V12, V13, V14, V15, V16, V17: the earlier checks pass. -/
theorem test_wit_RangeAndOverlap :
    (∀ b ∈ [(Buf.inp, (⟨-100, 114⟩ : Desc), some ErrCode.addressRange), (.nonce, ⟨-12, 12⟩, none),
        (.nonce, ⟨-11, 12⟩, some .addressRange), (.out, ⟨0x1350, 114⟩, some .bufferOverlap), (.out, ⟨0x1300, 114⟩, none),
        (.tag, ⟨0x1470, 16⟩, some .bufferOverlap), (.tag, ⟨0x1472, 16⟩, none)],
      validate .enc { baseB with desc := setDesc baseB.desc b.1 b.2.1 } = b.2.2) ∧
    busy baseB = false ∧ failsContext .enc baseB = false ∧ failsKey .enc baseB = false ∧ failsMissing .enc baseB = false ∧
    failsMismatch .enc baseB = false ∧ failsNonce .enc baseB = false ∧ failsTag .enc baseB = false ∧
    failsOverflow .enc baseB = false := by decide +kernel

theorem test_wit_FailedValidationHasNoEffect :
    busy State.reset = false ∧ workingZero State.reset = true ∧ Instr.enc ≠ .release ∧
      validate .enc State.reset = some .contextUnusable := by decide +kernel

theorem test_wit_AbsentAdIsEmptyAd :
    busy (base .keyed 0x3A 114 114) = false ∧ isPresent (base .keyed 0x3A 114 114) .ad = false := by decide

/-! ## Witnesses: commands -/

theorem test_wit_LoadkeyResult :
    busy loadkeyStart = false ∧ validate .loadkey loadkeyStart = none ∧ Granted .loadkey loadkeyStart ∧
      HandedOver loadkeyStart := by decide +kernel

/-- The first key byte that cannot be read: byte 0, byte 31. -/
theorem test_wit_LoadkeyBusError :
    ∀ j ∈ [0, 31],
      let s := { loadkeyStart with rdFail := [⟨0x1000 + j, 1⟩] }
      busy s = false ∧ validate .loadkey s = none ∧ j < 32 ∧ (∀ k < j, rdOk s (addrAdd (addrOf s .key) k) = true) ∧
        rdOk s (addrAdd (addrOf s .key) j) = false := by decide +kernel

theorem test_wit_ReleaseResult : busy keyedState = false ∧ busy runningState = true := ⟨rfl, rfl⟩

/-- RELEASE; ENC while RELEASED; and LOADKEY while EMPTY, which leaves KEYED. -/
theorem test_wit_AfterReleaseUnusable :
    (busy keyedState = false ∧ ∃ t, exec .release keyedState = .next t) ∧
    (busy (base .released 0x3E 2 2) = false ∧ (base .released 0x3E 2 2).ctx ≠ .keyed) ∧
    (busy loadkeyStart = false ∧ loadkeyStart.ctx ≠ .keyed ∧ ∃ t, exec .loadkey loadkeyStart = .next t ∧ t.ctx = .keyed) := by
  have h : (match exec .loadkey loadkeyStart with
      | .next t => decide (t.ctx = .keyed)
      | .fault _ => false
      | .refused _ => false) = true := by decide +kernel
  refine ⟨⟨rfl, _, rfl⟩, ⟨rfl, by decide⟩, rfl, by decide, ?_⟩
  split at h
  · next t ht => exact ⟨t, ht, by simpa using h⟩
  · cases h
  · cases h

theorem test_wit_ContextTransitions :
    busy baseB = false ∧ busy runningState = true ∧ (base .released 0x3E 2 2).ctx ≠ .keyed ∧ HostAct.load 5 ≠ .reset :=
  ⟨rfl, rfl, by decide, by decide⟩

/-- n = 0 with AD absent, and n = 65 with AD present, in ENC. -/
theorem test_wit_EncResult :
    ∀ s ∈ [base .keyed 0x3A 0 0, base .keyed 0x3E 65 65],
      busy s = false ∧ validate .enc s = none ∧ Granted .enc s ∧ HandedOver s := by decide +kernel

theorem test_wit_EnccResult :
    ∀ s ∈ [base .keyed 0x1A 0 16, base .keyed 0x1E 65 81],
      busy s = false ∧ validate .encc s = none ∧ Granted .encc s ∧ HandedOver s := by decide +kernel

/-- The read of the nonce's first or last byte fails; the read of text byte 0, or the write of the last text byte; the read of the first
AD byte, or the read-back of a ciphertext byte (`Option.all` speaks of a message byte's source, where it has one). -/
theorem test_wit_EncryptBusErrorBeforeTag :
    (∀ j ∈ [0, 11], ∀ p ∈ [(Instr.enc, base .keyed 0x3E 2 2), (.encc, base .keyed 0x1E 2 18)],
      let s := { p.2 with rdFail := [⟨0x1100 + j, 1⟩] }
      busy s = false ∧ validate p.1 s = none ∧ j < 12 ∧ (∀ k < j, rdOk s (addrAdd (addrOf s .nonce) k) = true) ∧
        rdOk s (addrAdd (addrOf s .nonce) j) = false) ∧
    (∀ p ∈ [(Instr.enc, 0, { base .keyed 0x3E 2 2 with rdFail := [⟨0x1300, 1⟩] }),
        (.enc, 1, { base .keyed 0x3E 2 2 with wrFail := [⟨0x1401, 1⟩] }),
        (.encc, 1, { base .keyed 0x1E 2 18 with wrFail := [⟨0x1401, 1⟩] })],
      busy p.2.2 = false ∧ validate p.1 p.2.2 = none ∧ HandedOver p.2.2 ∧
      Readable p.2.2 (addrOf p.2.2 .nonce) 12 ∧ p.2.1 < textLen p.1 p.2.2 ∧
      Readable p.2.2 (addrOf p.2.2 .inp) p.2.1 ∧ Writable p.2.2 (addrOf p.2.2 .out) p.2.1 ∧
      (rdOk p.2.2 (addrAdd (addrOf p.2.2 .inp) p.2.1) = false ∨
        rdOk p.2.2 (addrAdd (addrOf p.2.2 .inp) p.2.1) = true ∧ wrOk p.2.2 (addrAdd (addrOf p.2.2 .out) p.2.1) = false)) ∧
    ∀ p ∈ [(Instr.enc, 0, (0x1200 : Addr), { base .keyed 0x3E 2 2 with rdFail := [⟨0x1200, 1⟩] }),
        (.enc, 17, 0x1401, { base .keyed 0x3E 2 2 with rdFail := [⟨0x1401, 1⟩] }),
        (.encc, 16, 0x1400, { base .keyed 0x1E 2 18 with rdFail := [⟨0x1400, 1⟩] })],
      busy p.2.2.2 = false ∧ validate p.1 p.2.2.2 = none ∧ HandedOver p.2.2.2 ∧
      Readable p.2.2.2 (addrOf p.2.2.2 .nonce) 12 ∧ Readable p.2.2.2 (addrOf p.2.2.2 .inp) (textLen p.1 p.2.2.2) ∧
      Writable p.2.2.2 (addrOf p.2.2.2 .out) (textLen p.1 p.2.2.2) ∧
      (∀ k < p.2.1, (encryptSource p.1 p.2.2.2 k).all (rdOk p.2.2.2) = true) ∧
      encryptSource p.1 p.2.2.2 p.2.1 = some p.2.2.1 ∧ rdOk p.2.2.2 p.2.2.1 = false := by
  decide +kernel

/-- The write of tag byte 0, and of tag byte 15, fails. -/
theorem test_wit_EncryptBusErrorInTag :
    ∀ j ∈ [0, 15],
      ∀ p ∈ [(Instr.enc, { base .keyed 0x3E 2 2 with wrFail := [⟨0x1500 + j, 1⟩] }),
        (.encc, { base .keyed 0x1E 2 18 with wrFail := [⟨0x1402 + j, 1⟩] })],
      busy p.2 = false ∧ validate p.1 p.2 = none ∧ HandedOver p.2 ∧ (∀ r ∈ readsOf p.1 p.2, Readable p.2 r.1 r.2) ∧
        Writable p.2 (addrOf p.2 .out) (textLen p.1 p.2) ∧ j < 16 ∧ Writable p.2 (tagOutAddr p.1 p.2) j ∧
        wrOk p.2 (addrAdd (tagOutAddr p.1 p.2) j) = false := by decide +kernel

/-- Lengths 0, 64 and MAX_TEXT (in place, with the tag above); and MAX_TEXT + 1. -/
theorem test_wit_CounterNeverWraps :
    validate .enc (base .keyed 0x3E 0 0) = none ∧ validate .dec (base .keyed 0x3E 64 64) = none ∧
    validate .enc { baseB with desc := ⟨.zero, ⟨0, 12⟩, ⟨0, 0⟩, ⟨16, 274877906880⟩, ⟨16, 274877906880⟩, ⟨-16, 16⟩⟩ } = none ∧
    (2 ^ 32 - 1) * 64 < textLen .enc (base .keyed 0x3E 274877906881 274877906881) := by decide +kernel

theorem test_wit_TagInputMessage : (16 % 16 = 0 ∧ (3 : Nat) ≤ 16) ∧ 0x0102030405060708 < 2 ^ 64 := by decide

theorem test_wit_EmitIsTagInput :
    Readable taginStart (addrOf taginStart .ad) 3 ∧ Readable taginStart (addrOf taginStart .inp) 5 ∧
      taginStart.blockStale = [] ∧ 47 < messageLen 3 5 := by decide +kernel

theorem test_wit_MacOverTag :
    Readable taginStart (addrOf taginStart .ad) 3 ∧ Readable taginStart (addrOf taginStart .inp) 5 ∧
      taginStart.blockStale = [] := by decide +kernel

/-- Every access granted; the read of the first AD byte or of IN byte 1 fails; the write of the first or of the last message byte.
`Option.all` says it of the byte's source, where it has one. -/
theorem test_wit_TaginResult :
    (busy taginStart = false ∧ validate .tagin taginStart = none ∧ Granted .tagin taginStart ∧ HandedOver taginStart) ∧
    ∀ p ∈ [(0, (0x2000 : Addr), { taginStart with rdFail := [⟨0x2000, 1⟩] }), (17, 0x2101, { taginStart with rdFail := [⟨0x2101, 1⟩] }),
        (0, 0x3000, { taginStart with wrFail := [⟨0x3000, 1⟩] }), (47, 0x302F, { taginStart with wrFail := [⟨0x302F, 1⟩] })],
      busy p.2.2 = false ∧ validate .tagin p.2.2 = none ∧ HandedOver p.2.2 ∧
      p.1 < messageLen (adLen p.2.2) (lenOf p.2.2 .inp) ∧
      (∀ k < p.1, (taginSource p.2.2 k).all (fun x => rdOk p.2.2 x && ordinary p.2.2 x) = true) ∧
      Writable p.2.2 (addrOf p.2.2 .out) p.1 ∧
      (taginSource p.2.2 p.1 = some p.2.1 ∧ rdOk p.2.2 p.2.1 = false ∨
        (taginSource p.2.2 p.1).all (rdOk p.2.2) = true ∧ p.2.1 = addrAdd (addrOf p.2.2 .out) p.1 ∧
          wrOk p.2.2 p.2.1 = false) := by
  decide +kernel

/-! ## Witnesses: decrypt

The tag is the value of an opaque function, so the memory that holds it is built with `writeBytes` and the facts are proved from the
memory laws. -/

/-- The tag of two zero ciphertext bytes with no associated data, under the zero key and nonce. -/
def zeroTag : Vector Byte 16 := tagFor (.replicate 32 0) (.replicate 12 0) [] [0, 0]

/-- Another tag: bit 0 of byte 0 flipped. -/
def wrongTag : Vector Byte 16 := setByte zeroTag 0 (byteAt zeroTag 0 ^^^ 1)

theorem wrongTag_ne : wrongTag ≠ zeroTag := by
  intro h
  have h0 : byteAt wrongTag 0 = byteAt zeroTag 0 := by rw [h]
  rw [wrongTag, byteAt_setByte _ _ _ _ (by decide), if_pos rfl] at h0
  have h1 : byteAt zeroTag 0 ^^^ (byteAt zeroTag 0 ^^^ 1) = byteAt zeroTag 0 ^^^ byteAt zeroTag 0 := by rw [h0]
  rw [← BitVec.xor_assoc, BitVec.xor_self] at h1
  exact absurd h1 (by decide)

/-- DEC of two zero bytes with the tag x in memory. -/
def decState (x : Vector Byte 16) : State := { base .keyed 0x3A 2 2 with mem := writeBytes [] 0x1500 16 (byteAt x) }

/-- DECC of two zero bytes followed by the tag x. -/
def deccState (x : Vector Byte 16) : State := { base .keyed 0x1A 18 2 with mem := writeBytes [] 0x1302 16 (byteAt x) }

theorem zeros_outside {ta a : Addr} {n : Nat} (x : Vector Byte 16)
    (h : ∀ i < n, ∀ j < 16, (addrAdd a i).toNat ≠ (addrAdd ta j).toNat) :
    regionBytes (writeBytes [] ta 16 (byteAt x)) a n = List.replicate n 0 ∧
      loadBytes n (writeBytes [] ta 16 (byteAt x)) a = .replicate n 0 := by
  constructor
  · rw [regionBytes_writeBytes_other h]
    exact List.eq_replicate_iff.mpr ⟨by simp [regionBytes], by simp [regionBytes, memDefault]⟩
  · refine vector_ext_byteAt fun i hi => ?_
    rw [byteAt_loadBytes _ _ _ _ hi, memRead_writeBytes_other _ (h i hi)]
    simp [byteAt, hi, memDefault]

theorem decState_tags (key : Vector Byte 32) (x : Vector Byte 16) :
    suppliedTag .dec { decState x with key := key } = x ∧
      computedTag .dec { decState x with key := key } = tagFor key (.replicate 12 0) [] [0, 0] := by
  constructor
  · exact loadBytes_writeBytes x (by decide)
  · have h1 := (zeros_outside (ta := 0x1500) (a := 0x1100) (n := 12) x (by decide)).2
    have h2 := (zeros_outside (ta := 0x1500) (a := 0x1300) (n := 2) x (by decide)).1
    have ha : adLen { decState x with key := key } = adLen (base .keyed 0x3A 2 2) := adLen_congr rfl rfl
    have h3 : adBytes { decState x with key := key } = [] := by
      rw [adBytes, ha]
      rfl
    have h4 : nonceOf { decState x with key := key } = .replicate 12 0 := h1
    have h5 : textBytes .dec { decState x with key := key } = [0, 0] := h2
    rw [computedTag, h3, h4, h5]

theorem deccState_tags (x : Vector Byte 16) :
    suppliedTag .decc (deccState x) = x ∧ computedTag .decc (deccState x) = zeroTag := by
  constructor
  · exact loadBytes_writeBytes x (by decide)
  · have h1 := (zeros_outside (ta := 0x1302) (a := 0x1100) (n := 12) x (by decide)).2
    have h2 := (zeros_outside (ta := 0x1302) (a := 0x1300) (n := 2) x (by decide)).1
    have ha : adLen (deccState x) = adLen (base .keyed 0x1A 18 2) := adLen_congr rfl rfl
    have h3 : adBytes (deccState x) = [] := by
      rw [adBytes, ha]
      rfl
    have h4 : nonceOf (deccState x) = .replicate 12 0 := h1
    have h5 : textBytes .decc (deccState x) = [0, 0] := h2
    rw [computedTag, h3, h4, h5]
    rfl

theorem decState_ready (x : Vector Byte 16) :
    busy (decState x) = false ∧ validate .dec (decState x) = none ∧ Granted .dec (decState x) ∧ HandedOver (decState x) := by
  have h : busy (base .keyed 0x3A 2 2) = false ∧ validate .dec (base .keyed 0x3A 2 2) = none ∧
      Granted .dec (base .keyed 0x3A 2 2) ∧ HandedOver (base .keyed 0x3A 2 2) := by decide +kernel
  exact h

theorem deccState_ready (x : Vector Byte 16) :
    busy (deccState x) = false ∧ validate .decc (deccState x) = none ∧ Granted .decc (deccState x) ∧
      HandedOver (deccState x) := by
  have h : busy (base .keyed 0x1A 18 2) = false ∧ validate .decc (base .keyed 0x1A 18 2) = none ∧
      Granted .decc (base .keyed 0x1A 18 2) ∧ HandedOver (base .keyed 0x1A 18 2) := by decide +kernel
  exact h

theorem decState_inv (x : Vector Byte 16) : Inv (decState x) :=
  ⟨writeBytes_wf (by decide) _ _ _, fun _ h => absurd h List.not_mem_nil,
    show scrubbed (base .keyed 0x3A 2 2) = true by decide +kernel, rfl, rfl, rfl⟩

theorem keyedDec_inv (key : Vector Byte 32) (x : Vector Byte 16) : Inv { decState x with key := key } :=
  have hs : workingZero (base .keyed 0x3A 2 2) = true := by decide +kernel
  ⟨(decState_inv x).mem_wf, (decState_inv x).undo_lt, (Bool.and_eq_true _ _).mpr ⟨hs, rfl⟩, rfl, rfl, rfl⟩

theorem test_wit_DecryptAccepts :
    (busy (decState zeroTag) = false ∧ validate .dec (decState zeroTag) = none ∧ Granted .dec (decState zeroTag) ∧
      HandedOver (decState zeroTag) ∧ suppliedTag .dec (decState zeroTag) = computedTag .dec (decState zeroTag)) ∧
    (busy (deccState zeroTag) = false ∧ validate .decc (deccState zeroTag) = none ∧ Granted .decc (deccState zeroTag) ∧
      HandedOver (deccState zeroTag) ∧ suppliedTag .decc (deccState zeroTag) = computedTag .decc (deccState zeroTag)) := by
  have h1 := decState_ready zeroTag
  have h2 := deccState_ready zeroTag
  have h3 := decState_tags (.replicate 32 0) zeroTag
  have h4 := deccState_tags zeroTag
  exact ⟨⟨h1.1, h1.2.1, h1.2.2.1, h1.2.2.2, h3.1.trans h3.2.symm⟩, h2.1, h2.2.1, h2.2.2.1, h2.2.2.2, h4.1.trans h4.2.symm⟩

theorem test_wit_DecryptRejects :
    baseB.okBit = false ∧
    (busy (decState wrongTag) = false ∧ validate .dec (decState wrongTag) = none ∧ Granted .dec (decState wrongTag) ∧
      HandedOver (decState wrongTag) ∧ suppliedTag .dec (decState wrongTag) ≠ computedTag .dec (decState wrongTag)) ∧
    (busy (deccState wrongTag) = false ∧ validate .decc (deccState wrongTag) = none ∧ Granted .decc (deccState wrongTag) ∧
      HandedOver (deccState wrongTag) ∧ suppliedTag .decc (deccState wrongTag) ≠ computedTag .decc (deccState wrongTag)) := by
  have h1 := decState_ready wrongTag
  have h2 := deccState_ready wrongTag
  have h3 := decState_tags (.replicate 32 0) wrongTag
  have h4 := deccState_tags wrongTag
  exact ⟨rfl, ⟨h1.1, h1.2.1, h1.2.2.1, h1.2.2.2, fun he => wrongTag_ne (h3.1.symm.trans (he.trans h3.2))⟩, h2.1, h2.2.1, h2.2.2.1, h2.2.2.2,
    fun he => wrongTag_ne (h4.1.symm.trans (he.trans h4.2))⟩

/-- A command has completed in s, leaving t: what the round trip needs of it. -/
structure Sealed (i : Instr) (s t : State) : Prop where
  next : exec i s = .next t
  idle : busy t = false
  key : t.key = s.key
  ctx : t.ctx = s.ctx
  setup : SameSetup s t
  mem : ∀ x, OutsideWrites i s x → memRead t.mem x = memRead s.mem x

theorem sealed_enc : ∃ t, Sealed .enc (base .keyed 0x3A 2 2) t := by
  have hg : Granted .enc (base .keyed 0x3A 2 2) := by decide +kernel
  have hv : validate .enc (base .keyed 0x3A 2 2) = none := by decide +kernel
  have hf := encFacts hv
  obtain ⟨u, hu, -⟩ := sealed_spec (s := begun .enc (base .keyed 0x3A 2 2)) (n := 2) (ta := 0x1500)
    (hg.1 (0x1100, 12) (by decide)) (hg.1 (0x1300, 2) (by decide)) (hg.1 (0x1200, 0) (by decide)) (hg.1 (0x1400, 2) (by decide))
    (hg.2 (0x1400, 2) (by decide)) (hg.2 (0x1500, 16) (by decide)) rfl hf.out_inp hf.out_le hf.out_ad
  have hx := exec_completes (e := .ok) rfl (.inr hv) (l := encActs (begun .enc (base .keyed 0x3A 2 2))) rfl hu
  have hr := completed_conclude .ok hv (p := (encActs (begun .enc (base .keyed 0x3A 2 2)), .ok)) (List.mem_cons_self ..) hu
    (by decide) (by decide)
  exact ⟨_, hx, rfl, hr.2.1, hr.2.2.1, hr.2.2.2.2.2.2, hr.1⟩

theorem sealed_encc : ∃ t, Sealed .encc (base .keyed 0x1A 2 18) t := by
  have hg : Granted .encc (base .keyed 0x1A 2 18) := by decide +kernel
  have hv : validate .encc (base .keyed 0x1A 2 18) = none := by decide +kernel
  have hf := enccFacts hv
  obtain ⟨u, hu, -⟩ := sealed_spec (s := begun .encc (base .keyed 0x1A 2 18)) (n := 2) (ta := 0x1402)
    (hg.1 (0x1100, 12) (by decide)) (hg.1 (0x1300, 2) (by decide)) (hg.1 (0x1200, 0) (by decide)) (hg.1 (0x1400, 2) (by decide))
    (show Writable (base .keyed 0x1A 2 18) 0x1400 2 by decide) (show Writable (base .keyed 0x1A 2 18) 0x1402 16 by decide) rfl
    hf.out_inp (.inr (by decide)) (fun k hk => absurd hk (Nat.not_lt_zero k))
  have hx := exec_completes (e := .ok) rfl (.inr hv) (l := enccActs (begun .encc (base .keyed 0x1A 2 18))) rfl hu
  have hr := completed_conclude .ok hv (p := (enccActs (begun .encc (base .keyed 0x1A 2 18)), .ok)) (List.mem_cons_self ..) hu
    (by decide) (by decide)
  exact ⟨_, hx, rfl, hr.2.1, hr.2.2.1, hr.2.2.2.2.2.2, hr.1⟩

/-- The state after, with the descriptors set for decryption. -/
def opening (d : DescBank) (t : State) : State := { t with desc := d }

theorem opening_ready {i j : Instr} {s t : State} (d : DescBank) (h : Sealed i s t)
    (h1 : validate j { s with desc := d } = none) (h2 : Granted j { s with desc := d })
    (h3 : s.coherent = true) (h4 : d.nonce = s.desc.nonce) (h5 : adLen { s with desc := d } = 0) (h6 : adLen s = 0)
    (h7 : ∀ k < 12, OutsideWrites i s (addrAdd s.desc.nonce.addr k).toNat) :
    busy (opening d t) = false ∧ validate j (opening d t) = none ∧ Granted j (opening d t) ∧ HandedOver (opening d t) ∧
      (opening d t).key = s.key ∧ nonceOf (opening d t) = nonceOf s ∧ adBytes (opening d t) = adBytes s := by
  refine ⟨h.idle, ?_, ?_, .inl (h.setup.coherent.trans h3), h.key, ?_, ?_⟩
  · exact (validate_congr (s := { s with desc := d }) (t := opening d t) rfl h.setup.present h.ctx j).trans h1
  · exact (granted_congr (s := { s with desc := d }) (t := opening d t) rfl h.setup.present h.setup.rdFail h.setup.wrFail h.setup.special j).mpr h2
  · refine vector_ext_byteAt fun k hk => ?_
    rw [nonceOf, nonceOf, byteAt_loadBytes _ _ _ _ hk, byteAt_loadBytes _ _ _ _ hk]
    have ha : addrOf (opening d t) .nonce = s.desc.nonce.addr := congrArg Desc.addr h4
    rw [ha]
    exact h.mem _ (h7 k hk)
  · have ha : adLen (opening d t) = 0 := (adLen_congr (s := { s with desc := d }) (t := opening d t) rfl h.setup.present).trans h5
    rw [adBytes, adBytes, ha, h6]
    rfl

/-- A state whose ENC or ENCC has just completed, with IN set to its output and OUT to 0x1700, and what DEC or DECC then finds. -/
theorem test_wit_RoundTrip :
    (∃ s t u : State, (busy s = false ∧ validate .enc s = none ∧ Granted .enc s ∧ HandedOver s ∧ exec .enc s = .next t) ∧
      busy u = false ∧ validate .dec u = none ∧ Granted .dec u ∧ HandedOver u ∧ u.key = s.key ∧ nonceOf u = nonceOf s ∧
      adBytes u = adBytes s ∧ textBytes .dec u = regionBytes t.mem (addrOf s .out) (textLen .enc s) ∧
      suppliedTag .dec u = loadBytes 16 t.mem (addrOf s .tag)) ∧
    ∃ s t u : State, (busy s = false ∧ validate .encc s = none ∧ Granted .encc s ∧ HandedOver s ∧ exec .encc s = .next t) ∧
      busy u = false ∧ validate .decc u = none ∧ Granted .decc u ∧ HandedOver u ∧ u.key = s.key ∧ nonceOf u = nonceOf s ∧
      adBytes u = adBytes s ∧ textBytes .decc u = regionBytes t.mem (addrOf s .out) (textLen .encc s) ∧
      suppliedTag .decc u = loadBytes 16 t.mem (addrAdd (addrOf s .out) (textLen .encc s)) := by
  refine ⟨?_, ?_⟩
  · obtain ⟨t, h⟩ := sealed_enc
    have hr := opening_ready (j := .dec) ⟨.zero, ⟨0x1100, 12⟩, .zero, ⟨0x1400, 2⟩, ⟨0x1700, 2⟩, ⟨0x1500, 16⟩⟩ h (by decide +kernel)
      (by decide +kernel) rfl rfl (by decide) (by decide) (by decide +kernel)
    exact ⟨base .keyed 0x3A 2 2, t, opening _ t, ⟨rfl, by decide +kernel, by decide +kernel, .inl rfl, h.next⟩, hr.1, hr.2.1,
      hr.2.2.1, hr.2.2.2.1, hr.2.2.2.2.1, hr.2.2.2.2.2.1, hr.2.2.2.2.2.2, rfl, rfl⟩
  · obtain ⟨t, h⟩ := sealed_encc
    have hr := opening_ready (j := .decc) ⟨.zero, ⟨0x1100, 12⟩, .zero, ⟨0x1400, 18⟩, ⟨0x1700, 2⟩, .zero⟩ h (by decide +kernel)
      (by decide +kernel) rfl rfl (by decide) (by decide) (by decide +kernel)
    exact ⟨base .keyed 0x1A 2 18, t, opening _ t, ⟨rfl, by decide +kernel, by decide +kernel, .inl rfl, h.next⟩, hr.1, hr.2.1,
      hr.2.2.1, hr.2.2.2.1, hr.2.2.2.2.1, hr.2.2.2.2.2.1, hr.2.2.2.2.2.2, rfl, rfl⟩

/-- A read that fails (the nonce's first byte; the supplied tag's last byte); and the first OUT byte, and the last one, that cannot be
written, with the tag right and wrong. -/
theorem test_wit_DecryptBusError :
    (∀ p ∈ [(Instr.dec, { base .keyed 0x3A 2 2 with rdFail := [⟨0x1100, 1⟩] }),
        (.decc, { base .keyed 0x1A 18 2 with rdFail := [⟨0x1311, 1⟩] })],
      busy p.2 = false ∧ validate p.1 p.2 = none ∧ ∃ r ∈ readsOf p.1 p.2, ∃ k < r.2, rdOk p.2 (addrAdd r.1 k) = false) ∧
    ∀ x ∈ [zeroTag, wrongTag], ∀ j ∈ [0, 1],
      let s := { decState x with wrFail := [⟨0x1400 + j, 1⟩] }
      busy s = false ∧ validate .dec s = none ∧ HandedOver s ∧ (∀ r ∈ readsOf .dec s, Readable s r.1 r.2) ∧
        j < textLen .dec s ∧ Writable s (addrOf s .out) j ∧ wrOk s (addrAdd (addrOf s .out) j) = false := by
  have h : ∀ j ∈ [0, 1],
      let s := { base .keyed 0x3A 2 2 with wrFail := [⟨0x1400 + j, 1⟩] }
      busy s = false ∧ validate .dec s = none ∧ HandedOver s ∧ (∀ r ∈ readsOf .dec s, Readable s r.1 r.2) ∧
        j < textLen .dec s ∧ Writable s (addrOf s .out) j ∧ wrOk s (addrAdd (addrOf s .out) j) = false := by decide +kernel
  exact ⟨by decide +kernel, fun _ _ j hj => h j hj⟩

theorem test_wit_NoKeystreamBeforeVerdict : baseB.okBit = false := rfl

/-- LOADKEY in two states that differ in KEY and memory, after one element (Validate). -/
theorem test_wit_TraceIndependentOfData :
    (keyedState.desc = baseB.desc ∧ keyedState.present = baseB.present ∧ keyedState.ctx = baseB.ctx ∧
      keyedState.rdFail = baseB.rdFail ∧ keyedState.wrFail = baseB.wrFail ∧ keyedState.mem ≠ baseB.mem ∧
      keyedState.key ≠ baseB.key) ∧
    ∃ s' t', seqRun 1 (acceptWord 0x00000001#32 keyedState) = .next s' ∧ seqRun 1 (acceptWord 0x00000001#32 baseB) = .next t' ∧
      ∀ m < 1, ∀ u v, seqRun m (acceptWord 0x00000001#32 keyedState) = .next u →
        seqRun m (acceptWord 0x00000001#32 baseB) = .next v → u.okBit = v.okBit := by
  refine ⟨by decide, _, _, rfl, rfl, fun m hm u v hu hv => ?_⟩
  obtain rfl : m = 0 := by omega
  cases hu
  cases hv
  rfl

theorem test_wit_CodesOfCommands : busy keyedState = false := rfl

theorem test_wit_FinishRecords :
    busy keyedState = false ∧ Instr.enc ≠ .loadkey ∧ Instr.enc ≠ .release ∧ validate .enc keyedState = none := by decide +kernel

/-- Addresses on either side of ENC's OUT region, and of its TAG region. -/
theorem test_wit_MemoryFrame :
    (∃ t, exec .enc (base .keyed 0x3A 2 2) = .next t) ∧
    ∀ x ∈ [0x13FF, 0x1402, 0x14FF, 0x1510], OutsideWrites .enc (base .keyed 0x3A 2 2) x :=
  ⟨⟨_, sealed_enc.choose_spec.next⟩, by decide +kernel⟩

theorem test_wit_RegisterFrame : busy keyedState = false ∧ Instr.tagin ≠ .loadkey ∧ Instr.tagin ≠ .release := by decide

theorem test_wit_DecodeSpecWords : (7 : Nat) < 8 ∧ decode (BitVec.ofNat 32 (8 + 7)) = .error .unassignedOp := ⟨by decide, rfl⟩

/-- Two states that differ in KEY and memory alone. -/
theorem test_wit_RegistersHideSecrets :
    ∃ s₁ s₂ : State, Instr.enc ≠ .dec ∧ Instr.enc ≠ .decc ∧ Inv s₁ ∧ Inv s₂ ∧ busy s₁ = false ∧ busy s₂ = false ∧
      s₁.wign = s₂.wign ∧ s₁.ctx = s₂.ctx ∧ s₁.doneIe = s₂.doneIe ∧ s₁.present = s₂.present ∧ s₁.desc = s₂.desc ∧
      s₁.rdFail = s₂.rdFail ∧ s₁.wrFail = s₂.wrFail ∧ s₁.key ≠ s₂.key ∧ s₁.mem ≠ s₂.mem :=
  ⟨keyedState, baseB, by decide, by decide, test_keyed_inv, ⟨by decide, by decide, by decide +kernel, rfl, rfl, rfl⟩, rfl, rfl, rfl,
    rfl, rfl, rfl, rfl, rfl, rfl, by decide, by decide⟩

/-- Two states with different keys, each holding the right tag under its key. -/
theorem test_wit_DecryptWindowShowsOnlyVerdict :
    ∃ s₁ s₂ : State, Inv s₁ ∧ Inv s₂ ∧ busy s₁ = false ∧ busy s₂ = false ∧ s₁.wign = s₂.wign ∧ s₁.ctx = s₂.ctx ∧
      s₁.doneIe = s₂.doneIe ∧ s₁.present = s₂.present ∧ s₁.desc = s₂.desc ∧ s₁.rdFail = s₂.rdFail ∧ s₁.wrFail = s₂.wrFail ∧
      Granted .dec s₁ ∧ Granted .dec s₂ ∧ HandedOver s₁ ∧ HandedOver s₂ ∧
      (suppliedTag .dec s₁ = computedTag .dec s₁ ↔ suppliedTag .dec s₂ = computedTag .dec s₂) ∧ s₁.key ≠ s₂.key := by
  have h := decState_ready zeroTag
  have h1 := decState_tags (.replicate 32 0) zeroTag
  have h2 := decState_tags (.replicate 32 1) (tagFor (.replicate 32 1) (.replicate 12 0) [] [0, 0])
  exact ⟨{ decState zeroTag with key := .replicate 32 0 },
    { decState (tagFor (.replicate 32 1) (.replicate 12 0) [] [0, 0]) with key := .replicate 32 1 }, decState_inv _,
    keyedDec_inv _ _, h.1, h.1, rfl, rfl, rfl, rfl, rfl, rfl, rfl, h.2.2.1, h.2.2.1, h.2.2.2, h.2.2.2,
    iff_of_true (h1.1.trans h1.2.symm) (h2.1.trans h2.2.symm), by decide⟩

end Sys2Proof.Tests
end

section
/-! The invariant through every step (10_state.md R20, R42, R45): the sequencer's step, a whole command, and the turns of the host. -/

namespace Sys2Proof.Machine

/-! ## The sequencer, a command, a turn of the host -/

/-- A sequencer step from a state that meets the invariant goes on and keeps it (10_state.md R42). -/
theorem seqStep_inv {s : State} (h : Inv s) : ∃ t, seqStep s = .next t ∧ Inv t := by
  cases hs : s.seq with
  | idle => exact ⟨s, by rw [seqStep, hs], h⟩
  | run c l =>
    obtain ⟨t, ht, hok⟩ := seqStep_seqOk hs h.seq_ok
    exact ⟨t, ht, inv_of_memOk (seqStep_memOk ht h.memOk) hok⟩

theorem begun_eq_acceptWord (i : Instr) (s : State) : begun i s = acceptWord (encode i) s := by
  rw [begun, acceptWord, decodeCommand_encode]

theorem begun_inv {s : State} (h : Inv s) (hb : busy s = false) (i : Instr) : Inv (begun i s) := by
  rw [begun_eq_acceptWord]
  exact acceptWord_inv h hb _

/-- Elements that are safe for KEY and then `Scrub(); finish` leave the invariant, also when a bus error ends them. -/
theorem runActs_inv {s : State} {c : Option Instr} {l : List Act} (hm : MemOk s) (hr : running s = c) (hl : KeySafe c l s)
    (e : ErrCode) : Inv (runActs l (conclude e) s) := by
  have hmem := performAll_wf l hm
  have hkey := keySafe_performAll hr hl
  unfold runActs
  split
  all_goals
    next t hp =>
    rw [hp] at hmem hkey
    exact conclude_inv hmem hkey _

/-- A command run whole leaves the invariant, whichever way it ends (10_state.md R45). -/
theorem command_inv {s : State} (h : Inv s) (hb : busy s = false) (i : Instr) : Inv (command i (begun i s)) := by
  have hmem := (begun_inv h hb i).memOk
  have hkey : KeyHeld (begun i s) := h.seq_ok.keyHeld_of_idle hb
  rcases command_cases i (begun i s) with ⟨e, -, -, hx⟩ | ⟨-, p, hp, hx⟩
  · exact hx ▸ conclude_inv hmem hkey e
  · exact hx ▸ runActs_inv hmem (running_begun i s) (keySafe_bodies hkey p hp) _

/-- An ILLEGAL word run whole leaves the invariant (30_encoding.md R73). -/
theorem runIllegal_inv {s : State} (h : Inv s) (hb : busy s = false) (w : Word) : ∃ t, runIllegal w s = .next t ∧ Inv t := by
  refine ⟨_, by rw [runIllegal, hb, if_neg Bool.false_ne_true], conclude_inv ?_ ?_ _⟩
  · exact ⟨h.mem_wf, fun _ hc => absurd hc List.not_mem_nil⟩
  · exact h.seq_ok.keyHeld_of_idle hb

theorem runWord_inv {s : State} (h : Inv s) (hb : busy s = false) (w : Word) : ∃ t, runWord w s = .next t ∧ Inv t := by
  unfold runWord
  split
  · exact ⟨_, rfl, acceptWord_inv h hb w⟩
  · split
    · exact ⟨_, exec_idle hb, command_inv h hb _⟩
    · exact runIllegal_inv h hb w

theorem idleStep_inv {s : State} (h : Inv s) (hb : busy s = false) : ∃ t, idleStep s = .next t ∧ Inv t := by
  unfold idleStep
  split
  · exact ⟨s, rfl, h⟩
  · next ar act rest _ =>
    split
    · exact ⟨_, rfl, poll_inv h⟩
    · split
      · exact runWord_inv (h.withInputs rest) hb _
      · exact ⟨_, rfl, deliver_inv (h.withInputs rest) act⟩

theorem busyStep_inv {s : State} (h : Inv s) : ∃ t, busyStep s = .next t ∧ Inv t := by
  unfold busyStep
  split
  · exact ⟨_, rfl, deliver_inv (h.withInputs _) _⟩
  · exact seqStep_inv (h.withInputs _)
  · exact seqStep_inv h
  · exact seqStep_inv (poll_inv h)
  · exact seqStep_inv h

theorem step_inv {s : State} (h : Inv s) : ∃ t, step s = .next t ∧ Inv t := by
  unfold step
  cases hb : busy s with
  | true => exact busyStep_inv h
  | false => exact idleStep_inv h hb

end Sys2Proof.Machine
end

section
/-! A word run whole against its trace performed element by element (10_state.md R42, 00_scope.md R11, log entry 11). -/

namespace Sys2Proof.Machine

/-! ## Decoding -/

theorem word_toNat_eq_fields (w : Word) : w.toNat = 16 * (w.extractLsb' 4 28).toNat + (w.extractLsb' 0 4).toNat := by
  simp only [BitVec.extractLsb'_toNat, Nat.shiftRight_eq_div_pow]
  omega

/-- The word that decodes to a command is that command's word (30_encoding.md R72). -/
theorem eq_encode_of_decode {w : Word} {i : Instr} (h : decode w = .ok i) : w = encode i := by
  have hw := word_toNat_eq_fields w
  unfold decode at h
  split at h
  · next hrsvd =>
    rw [hrsvd] at hw
    apply BitVec.eq_of_toNat_eq
    split at h <;> cases h
    all_goals next hop => rw [hw, hop]; rfl
  · cases h

theorem decodeCommand_of_decode {w : Word} {i : Instr} (h : decode w = .ok i) : decodeCommand w = some i := by
  rw [decodeCommand, h]

theorem decodeCommand_of_illegal {w : Word} (h : ∀ i, decode w ≠ .ok i) : decodeCommand w = none := by
  cases hd : decode w with
  | ok i => exact absurd hd (h i)
  | error _ => rw [decodeCommand, hd]

/-! ## Commands element by element -/

/-- The two ends of DEC and DECC one element at a time: what follows the choice on ok comes to `verdict` (43_decrypt.md R127). -/
theorem seqRun_verdict (i : Instr) {s : State} {c : Option Instr} (hr : running s = c) :
    ∃ n, seqRun n (atTrace c [.branch i] s) = .next (verdict i s) := by
  have hbranch : seqRun 1 (atTrace c [.branch i] s) = .next (atTrace c (verdictTrace i s) s) := rfl
  have hrest : ∃ n, seqRun n (atTrace c (verdictTrace i s) s) = .next (verdict i s) := by
    unfold verdictTrace verdict
    split
    all_goals exact seqRun_runActs _ _ _ hr fun t ht _ _ => seqRun_conclude _ ht
  obtain ⟨n, hn⟩ := hrest
  exact ⟨1 + n, seqRun_trans hbranch hn⟩

/-- The first element of every command but RELEASE is Validate, which settles the rest of the trace (40_context.md R85). -/
theorem seqRun_validated (i : Instr) (body : State → State) {s : State} {c : Option Instr} (hr : running s = c)
    (hbody : ∃ n, seqRun n (atTrace c (bodyTrace i s) s) = .next (body s)) :
    ∃ n, seqRun n (atTrace c [.validate i] s) = .next (validated i body s) := by
  have hseq : (atTrace c [.validate i] s).seq = .run c [.validate i] := rfl
  have hval : validate i (atTrace c [.validate i] s) = validate i s := validate_congr rfl rfl rfl i
  unfold validated
  cases hv : validate i s with
  | some e =>
    rw [hv] at hval
    have hone : seqRun 1 (atTrace c [.validate i] s) = .next (atTrace c (concludeTrace e) s) := by
      simp only [seqRun, seqStep, hseq, hval]; rfl
    obtain ⟨n, hn⟩ := seqRun_conclude e hr
    exact ⟨1 + n, seqRun_trans hone hn⟩
  | none =>
    rw [hv] at hval
    have htrace : bodyTrace i (atTrace c [.validate i] s) = bodyTrace i s := by cases i <;> rfl
    have hone : seqRun 1 (atTrace c [.validate i] s) = .next (atTrace c (bodyTrace i s) s) := by
      simp only [seqRun, seqStep, hseq, hval, htrace]; rfl
    obtain ⟨n, hn⟩ := hbody
    exact ⟨1 + n, seqRun_trans hone hn⟩

/-- A command's trace one element at a time comes to what `command` does to the state it starts on. -/
theorem seqRun_command (i : Instr) {s : State} (hr : running s = some i) :
    ∃ n, seqRun n (atTrace (some i) (startTrace (some i)) s) = .next (command i s) := by
  have hacts : ∀ (acts : List Act), ∃ n, seqRun n (atTrace (some i) (acts.map Elem.act ++ concludeTrace .ok) s) =
      .next (runActs acts (conclude .ok) s) :=
    fun acts => seqRun_runActs acts _ _ hr fun t ht _ _ => seqRun_conclude _ ht
  have hverify : ∀ (acts : List Act), ∃ n, seqRun n (atTrace (some i) (acts.map Elem.act ++ [.branch i]) s) =
      .next (runActs acts (verdict i) s) :=
    fun acts => seqRun_runActs acts _ _ hr fun t ht _ _ => seqRun_verdict i ht
  cases i with
  | release => exact hacts releaseActs
  | loadkey => exact seqRun_validated _ _ hr (hacts (loadkeyActs s))
  | enc => exact seqRun_validated _ _ hr (hacts (encActs s))
  | encc => exact seqRun_validated _ _ hr (hacts (enccActs s))
  | tagin => exact seqRun_validated _ _ hr (hacts (taginActs s))
  | dec => exact seqRun_validated _ _ hr (hverify (decVerifyActs s))
  | decc => exact seqRun_validated _ _ hr (hverify (deccVerifyActs s))

theorem command_idle (i : Instr) (s : State) : busy (command i s) = false := by
  rcases command_cases i s with ⟨e, -, -, h⟩ | ⟨-, p, -, h⟩
  · rw [h, busy_conclude]
  · rw [h, runActs]
    split <;> exact busy_conclude ..

/-- An accepted word stands at the start of its trace. -/
theorem acceptWord_eq_atTrace {w : Word} {c : Option Instr} (h : decodeCommand w = c) (s : State) :
    acceptWord w s = atTrace c (startTrace c) (acceptWord w s) := by
  subst h
  rfl

end Sys2Proof.Machine
end

section
/-! The register window (10_state.md R15 to R30): which register an access acts on, what a read shows, what a write changes. -/

namespace Sys2Proof.Machine

/-! ## Which register an access acts on -/

theorem portRead_of_accessed {off : Offset} {bytes : Nat} {r : Reg} (h : accessed off bytes = some r) (s : State) :
    portRead off bytes s = readReg s r := by
  rw [portRead, h]

theorem portRead_of_none {off : Offset} {bytes : Nat} (h : accessed off bytes = none) (s : State) : portRead off bytes s = 0 := by
  rw [portRead, h]

theorem portWrite_of_accessed {off : Offset} {bytes : Nat} {r : Reg} (h : accessed off bytes = some r) (v : Word) (s : State) :
    portWrite off bytes v s = writeReg r v s := by
  rw [portWrite, h]

theorem portWrite_of_none {off : Offset} {bytes : Nat} (h : accessed off bytes = none) (v : Word) (s : State) :
    portWrite off bytes v s = s := by
  rw [portWrite, h]

/-- Where each register stands (10_state.md R16). -/
def regOffset : Reg → Offset
  | .id => 0x000
  | .caps => 0x004
  | .cmd => 0x008
  | .status => 0x00C
  | .irqEn => 0x010
  | .present => 0x014
  | .msgLenLo => 0x020
  | .msgLenHi => 0x024
  | .errAddrLo => 0x028
  | .errAddrHi => 0x02C
  | .desc b w => descOffset b w

theorem lowReg_eq_some {n : Nat} {r : Reg} (h : lowReg n = some r) : n = (regOffset r).toNat := by
  unfold lowReg at h
  split at h <;> cases h <;> rfl

/-- Descriptor b has its registers from 0x040 + 0x10·b on (10_state.md R16). -/
theorem descOffset_of_parts {n : Nat} {b : Buf} {w : DescWord} (hn : 0x40 ≤ n) (hb : bufOf ((n - 0x40) / 0x10) = some b)
    (hw : descWordOf (n % 0x10) = some w) : n = (descOffset b w).toNat := by
  have hbuf : (n - 0x40) / 0x10 = bufIndex b := by
    unfold bufOf at hb
    split at hb <;> cases hb <;> assumption
  have hword : n % 0x10 = (descOffset b w).toNat % 0x10 := by
    unfold descWordOf at hw
    split at hw <;> cases hw <;> cases b <;> assumption
  have hbase : (descOffset b w).toNat / 0x10 = 4 + bufIndex b := by cases b <;> cases w <;> rfl
  omega

/-- The map read both ways: an access acts on a register exactly when it is 32 bits wide at that register's offset
(10_state.md R15, R16; 20_memory.md R51). -/
theorem accessed_eq_some_iff {off : Offset} {bytes : Nat} {r : Reg} :
    accessed off bytes = some r ↔ off = regOffset r ∧ bytes = 4 := by
  constructor
  · intro h
    unfold accessed at h
    split at h
    · next hbytes =>
      refine ⟨BitVec.eq_of_toNat_eq ?_, hbytes⟩
      unfold regAt at h
      split at h
      · exact lowReg_eq_some h
      · next hlow =>
        split at h
        · next b w hb hw =>
          cases h
          exact descOffset_of_parts (Nat.le_of_not_lt hlow) hb hw
        · cases h
    · cases h
  · rintro ⟨rfl, rfl⟩
    cases r with
    | desc b w => exact accessed_desc b w
    | _ => rfl

/-! ## STATUS and ERRADDR (10_state.md R20, R21, R44; 70_reset_and_hazards.md R169) -/

/-- While a command runs DONE and ERRCODE are 0 (10_state.md R20). -/
theorem Inv.flags_of_busy {s : State} (h : Inv s) (hb : busy s = true) : s.done = false ∧ s.errCode = .ok := by
  have hseq := h.seq_ok
  unfold SeqOk at hseq
  cases hs : s.seq with
  | idle => rw [busy, hs] at hb; cases hb
  | run c l =>
    rw [hs] at hseq
    exact ⟨hseq.1, hseq.2.1⟩

/-- While no command runs the block is scrubbed (10_state.md R45). -/
theorem Inv.scrubbed_of_idle {s : State} (h : Inv s) (hb : busy s = false) : scrubbed s = true := by
  have hseq := h.seq_ok
  unfold SeqOk at hseq
  cases hs : s.seq with
  | idle =>
    rw [hs] at hseq
    exact hseq.1
  | run c l => rw [busy, hs] at hb; cases hb

theorem statusWord_err_iff (s : State) : (statusWord s).getLsbD 2 = true ↔ (statusWord s).extractLsb' 8 4 ≠ 0 := by
  rw [statusWord_err, statusWord_errCode, errFlag, bne_iff_ne]

theorem ctxBits_ne_three (c : Ctx) : ctxBits c ≠ 3 := by cases c <;> decide

theorem portWrite_status (v : Word) (s : State) :
    portWrite 0x00C 4 v s = { s with done := s.done && !v.getLsbD 1, wign := s.wign && !v.getLsbD 3 } :=
  portWrite_of_accessed accessed_status v s

/-- SCRUBBED as R44 words it: (a) the working registers, (b) KEY unless it is held. -/
theorem scrubbed_iff (s : State) : scrubbed s = true ↔
    (s.nl = .replicate 12 0 ∧ s.cs = .replicate 16 0 ∧ s.ks = .replicate 64 0 ∧ s.otk = .replicate 32 0 ∧
      s.etag = .replicate 16 0 ∧ s.stag = .replicate 16 0 ∧ s.diff = 0 ∧ s.encK = 0 ∧ s.jctr = 0) ∧ KeyHeld s := by
  simp only [scrubbed, workingZero, Bool.and_eq_true, Bool.or_eq_true, beq_iff_eq, and_assoc]

/-! ## Descriptors, PRESENT and IRQ_EN (10_state.md R22, R23, R26 to R28) -/

theorem readDesc_writeDesc (d : Desc) (w w' : DescWord) (v : Word) :
    readDesc (writeDesc d w v) w' = if w' = w then v else readDesc d w' := by
  cases w <;> cases w' <;> simp [readDesc, writeDesc]

theorem portRead_desc (b : Buf) (w : DescWord) (s : State) : portRead (descOffset b w) 4 s = readDesc (descOf s.desc b) w :=
  portRead_of_accessed (accessed_desc b w) s

theorem portWrite_desc (b : Buf) (w : DescWord) (v : Word) {s : State} (hb : busy s = false) :
    portWrite (descOffset b w) 4 v s = { s with desc := setDesc s.desc b (writeDesc (descOf s.desc b) w v) } := by
  rw [portWrite_of_accessed (accessed_desc b w), writeReg, unlessBusy, hb]
  rfl

theorem portRead_present (s : State) : portRead 0x014 4 s = 0#26 ++ s.present := portRead_of_accessed accessed_present s

theorem portWrite_present (v : Word) {s : State} (hb : busy s = false) :
    portWrite 0x014 4 v s = { s with present := v.extractLsb' 0 6 } := by
  rw [portWrite_of_accessed accessed_present, writeReg, unlessBusy, hb]
  rfl

theorem toNat_zero_append {m n : Nat} (x : BitVec n) : (0#m ++ x).toNat = x.toNat := by
  simp [BitVec.toNat_append]

/-- Bits 5:0 of a word, widened again. -/
theorem zero_append_lowSix (v : Word) : 0#26 ++ v.extractLsb' 0 6 = v &&& 0x3F#32 := by
  apply BitVec.eq_of_toNat_eq
  refine (toNat_zero_append _).trans ?_
  simp [Nat.and_two_pow_sub_one_eq_mod v.toNat 6]

theorem zero_append_bit (v : Word) : 0#31 ++ bit (v.getLsbD 0) = v &&& 0x1#32 := by
  apply BitVec.eq_of_toNat_eq
  refine (toNat_zero_append _).trans ?_
  rcases Nat.mod_two_eq_zero_or_one v.toNat with h | h <;> simp [bit, BitVec.getLsbD, h]

/-! ## Reset (10_state.md R30) -/

/-- A register reads after a reset in any state what it reads right after power-up. -/
theorem readReg_resetStep (s : State) (r : Reg) : readReg (resetStep s) r = readReg State.reset r := by
  cases r <;> rfl

/-- The registers with a reset value other than 0 are ID, CAPS and STATUS (10_state.md R30). -/
theorem readReg_reset_zero {r : Reg} (hid : r ≠ .id) (hcaps : r ≠ .caps) (hstatus : r ≠ .status) : readReg State.reset r = 0 := by
  cases r with
  | id => exact absurd rfl hid
  | caps => exact absurd rfl hcaps
  | status => exact absurd rfl hstatus
  | desc b w => cases b <;> cases w <;> rfl
  | _ => rfl

end Sys2Proof.Machine
end

section
/-! Whose turn a step is (10_state.md R13), and what stays as it is while a command runs (R26). -/

namespace Sys2Proof.Machine

/-! ## The host's turn on an idle block -/

theorem polling_eq_false {ar : Arrival} {s : State} (h : ar = .whenDone → s.done = true) : polling ar s = false := by
  cases ar with
  | whenDone => rw [polling, h rfl]; rfl
  | whenIdle => rfl
  | after k => rfl

/-- A poll reads STATUS and changes nothing else (30_encoding.md R79). -/
theorem poll_eq (s : State) : poll s = { s with busData := portRead 0x00C 4 s } := rfl

theorem step_of_busy {s : State} (hb : busy s = true) : step s = busyStep s := by rw [step, if_pos hb]

theorem step_of_idle {s : State} (hb : busy s = false) : step s = idleStep s := by
  rw [step, if_neg (Bool.eq_false_iff.mp hb)]

/-- A host that waits for DONE while a command runs polls, and the sequencer goes on. -/
theorem step_polls_busy {s : State} {act : HostAct} {rest : List Input} (hb : busy s = true)
    (hin : s.inputs = ⟨.whenDone, act⟩ :: rest) : step s = seqStep (poll s) := by
  rw [step_of_busy hb, busyStep, hin]

section Turn

variable {s : State} {ar : Arrival} {act : HostAct} {rest : List Input}
variable (hb : busy s = false) (hin : s.inputs = ⟨ar, act⟩ :: rest)

include hb hin

/-- A host that waits for DONE polls. -/
theorem step_polls (hpoll : polling ar s = true) : step s = .next (poll s) := by
  rw [step_of_idle hb, idleStep, hin]
  simp only [hpoll, if_true]

variable (hpoll : polling ar s = false)

include hpoll

/-- A host action that writes a word to CMD: the block takes the word. -/
theorem step_takes_word {w : Word} (hw : commandWord act = some w) : step s = runWord w { s with inputs := rest } := by
  rw [step_of_idle hb, idleStep, hin]
  simp only [hpoll, hw, if_neg Bool.false_ne_true]

/-- Any other host action takes effect alone. -/
theorem step_delivers (hw : commandWord act = none) : step s = .next (deliver act { s with inputs := rest }) := by
  rw [step_of_idle hb, idleStep, hin]
  simp only [hpoll, hw, if_neg Bool.false_ne_true]

end Turn

theorem runWord_decoded {w : Word} {i : Instr} {s : State} (hint : interrupted s.inputs = false) (hi : decode w = .ok i) :
    runWord w s = exec i s := by
  rw [runWord, if_neg (Bool.eq_false_iff.mp hint), decodeCommand_of_decode hi]

theorem runWord_interrupted {w : Word} {s : State} (hint : interrupted s.inputs = true) :
    runWord w s = .next (acceptWord w s) := by
  rw [runWord, if_pos hint]

/-- A write of the window is a write of CMD exactly when it is 32 bits wide at offset 0x008 (10_state.md R15, R19). -/
theorem commandWord_write (off : Offset) (bytes : Nat) (v : Word) :
    commandWord (.write off bytes v) = if off = 0x008 ∧ bytes = 4 then some v else none := by
  simp only [commandWord, accessed_eq_some_iff, regOffset]

theorem tableWord_encode (i : Instr) : tableWord 32 (encode i).toNat = encode i := by cases i <;> rfl

theorem decode_encode (i : Instr) : decode (encode i) = .ok i := by cases i <;> rfl

/-! ## Accesses at a bus address (10_state.md R15, 00_scope.md R7) -/

theorem busAccess_inside (off : Offset) (bytes : Nat) (v : Word) (s : State) :
    deliver (.busWrite (Config.basePage ++ off) bytes v) s = deliver (.write off bytes v) s ∧
    deliver (.busRead (Config.basePage ++ off) bytes) s = deliver (.read off bytes) s ∧
    commandWord (.busWrite (Config.basePage ++ off) bytes v) = commandWord (.write off bytes v) := by
  simp only [deliver, commandWord, windowOffset_base, and_self]

theorem busAccess_outside {a : Addr} (h : a.extractLsb' 12 52 ≠ Config.basePage) (bytes : Nat) (v : Word) (s : State) :
    deliver (.busWrite a bytes v) s = s ∧ deliver (.busRead a bytes) s = s ∧ commandWord (.busWrite a bytes v) = none := by
  simp only [deliver, commandWord, windowOffset_none h, and_self]

/-! ## The operands while a command runs (10_state.md R26) -/

theorem unlessBusy_of_busy {s : State} (hb : busy s = true) (f : State → State) : unlessBusy f s = ignoreWrite s := by
  rw [unlessBusy, if_pos hb]

/-- A write of CMD, PRESENT or a descriptor register is refused while a command runs. -/
theorem writeReg_refused {s : State} (hb : busy s = true) {r : Reg} (hr : r = .cmd ∨ r = .present ∨ ∃ b w, r = .desc b w)
    (v : Word) : writeReg r v s = ignoreWrite s := by
  rcases hr with rfl | rfl | ⟨b, w, rfl⟩
  all_goals
    rw [writeReg]
    exact unlessBusy_of_busy hb _

/-- t has the descriptors and PRESENT of s. -/
abbrev SameOperands (s t : State) : Prop := t.desc = s.desc ∧ t.present = s.present

theorem writeReg_operands {s : State} (hb : busy s = true) (r : Reg) (v : Word) : SameOperands s (writeReg r v s) := by
  by_cases hr : r = .cmd ∨ r = .present ∨ ∃ b w, r = .desc b w
  · rw [writeReg_refused hb hr]
    exact ⟨rfl, rfl⟩
  · cases r with
    | cmd | present | desc b w => simp at hr
    | _ => exact ⟨rfl, rfl⟩

theorem portWrite_operands {s : State} (hb : busy s = true) (off : Offset) (bytes : Nat) (v : Word) :
    SameOperands s (portWrite off bytes v s) := by
  cases h : accessed off bytes with
  | none => rw [portWrite_of_none h]; exact ⟨rfl, rfl⟩
  | some r => rw [portWrite_of_accessed h]; exact writeReg_operands hb r v

/-- No host action on a running command changes its operands, but for the reset, which leaves no command running. -/
theorem deliver_operands {s : State} (hb : busy s = true) {act : HostAct} (ht : busy (deliver act s) = true) :
    SameOperands s (deliver act s) := by
  cases act with
  | write off bytes v => exact portWrite_operands hb off bytes v
  | busWrite a bytes v =>
    simp only [deliver]
    split
    · exact portWrite_operands hb _ bytes v
    · exact ⟨rfl, rfl⟩
  | busRead a bytes => simp only [deliver]; split <;> exact ⟨rfl, rfl⟩
  | store a b => simp only [deliver, hostStore]; split <;> exact ⟨rfl, rfl⟩
  | load a => simp only [deliver, hostLoad]; split <;> exact ⟨rfl, rfl⟩
  | read off bytes => exact ⟨rfl, rfl⟩
  | writeBack r => exact ⟨rfl, rfl⟩
  | invalidate r => exact ⟨rfl, rfl⟩
  | reset => exact absurd ht Bool.false_ne_true

theorem seqStep_operands {s t : State} (h : seqStep s = .next t) : SameOperands s t := by
  unfold seqStep at h
  split at h
  · cases h; exact ⟨rfl, rfl⟩
  · cases h
  · split at h <;> (cases h; exact ⟨rfl, rfl⟩)
  · cases h; exact ⟨rfl, rfl⟩
  · next c a rest _ =>
    have hc := perform_control a s
    split at h
    all_goals
      next t' hp =>
      rw [hp] at hc
      cases h
      exact ⟨hc.desc, hc.present⟩
  · cases h; exact ⟨rfl, rfl⟩

theorem busyStep_operands {s t : State} (hb : busy s = true) (h : busyStep s = .next t) (ht : busy t = true) :
    SameOperands s t := by
  unfold busyStep at h
  split at h
  · next act rest _ =>
    cases h
    exact deliver_operands (s := { s with inputs := rest }) hb ht
  all_goals
    have hkept := seqStep_operands h
    exact hkept

/-! ## What the window shows, in two runs (10_state.md R32, 60_exceptions.md R145) -/

/-- s and t agree on every register of the window but SCRUBBED, on the sequencer's position, and on which accesses are granted. -/
structure SameWindow (s t : State) : Prop where
  done : t.done = s.done
  wign : t.wign = s.wign
  ctx : t.ctx = s.ctx
  errCode : t.errCode = s.errCode
  lastCmd : t.lastCmd = s.lastCmd
  doneIe : t.doneIe = s.doneIe
  present : t.present = s.present
  msgLen : t.msgLen = s.msgLen
  errAddr : t.errAddr = s.errAddr
  desc : t.desc = s.desc
  seq : t.seq = s.seq
  rdFail : t.rdFail = s.rdFail
  wrFail : t.wrFail = s.wrFail

/-- Every register reads the same. -/
theorem SameWindow.portRead {s t : State} (h : SameWindow s t) (hscr : scrubbed t = scrubbed s) (off : Offset) (bytes : Nat) :
    portRead off bytes t = portRead off bytes s := by
  have hbusy : busy t = busy s := by rw [busy, busy, h.seq]
  have herr : shownErrAddr t = shownErrAddr s := by rw [shownErrAddr, shownErrAddr, hbusy, h.errAddr]
  have hstatus : statusWord t = statusWord s := by
    simp only [statusWord, errFlag, h.lastCmd, h.errCode, hscr, h.ctx, h.wign, h.done, hbusy]
  cases hacc : accessed off bytes with
  | none => rw [portRead_of_none hacc, portRead_of_none hacc]
  | some r =>
    rw [portRead_of_accessed hacc, portRead_of_accessed hacc]
    cases r <;> simp only [readReg, hstatus, herr, h.doneIe, h.present, h.msgLen, h.desc]

theorem SameWindow.conclude {s t : State} (h : SameWindow s t) (e : ErrCode) :
    SameWindow (Machine.conclude e s) (Machine.conclude e t) :=
  { h with done := rfl, errCode := rfl, seq := rfl }

theorem SameWindow.busErrorAt {s t : State} (h : SameWindow s t) (a : Addr) :
    SameWindow (Machine.busErrorAt a s) (Machine.busErrorAt a t) := by
  rw [busErrorAt_frame a s, busErrorAt_frame a t]
  exact { h with errAddr := by simp }

/-- Both runs complete or both stop, and the window shows the same. -/
def SameOutcome (x y : Except State State) : Prop :=
  match x, y with
  | .ok u, .ok v => SameWindow u v
  | .error u, .error v => SameWindow u v
  | .ok _, .error _ => False
  | .error _, .ok _ => False

/-- CTX and MSGLEN take only values fixed by the trace, and no other register the window shows is an element's to write. -/
theorem performReg_sameWindow {s t : State} (h : SameWindow s t) (r : RegOp) : SameWindow (performReg r s) (performReg r t) := by
  have hs := performReg_control r s
  have ht := performReg_control r t
  exact
    { ctx := by cases r <;> simp only [performReg, h.ctx]
      msgLen := by cases r <;> simp only [performReg, h.msgLen]
      errAddr := by rw [performReg_errAddr, performReg_errAddr, h.errAddr]
      done := by rw [ht.done, h.done, hs.done]
      wign := by rw [ht.wign, h.wign, hs.wign]
      errCode := by rw [ht.errCode, h.errCode, hs.errCode]
      lastCmd := by rw [ht.lastCmd, h.lastCmd, hs.lastCmd]
      doneIe := by rw [ht.doneIe, h.doneIe, hs.doneIe]
      present := by rw [ht.present, h.present, hs.present]
      desc := by rw [ht.desc, h.desc, hs.desc]
      seq := by rw [ht.seq, h.seq, hs.seq]
      rdFail := by rw [ht.rdFail, h.rdFail, hs.rdFail]
      wrFail := by rw [ht.wrFail, h.wrFail, hs.wrFail] }

theorem dmaRead_granted {a : Addr} {s : State} (h : rdOk s a = true) :
    ∃ b d, dmaRead a s = .ok { s with dataLatch := b, draws := d } := by
  rw [dmaRead, if_pos h]
  split <;> exact ⟨_, _, rfl⟩

theorem dmaWrite_granted {a : Addr} {s : State} (h : wrOk s a = true) (v : Byte) :
    ∃ m u b, dmaWrite a v s = .ok { s with mem := m, undo := u, blockStale := b } := by
  rw [dmaWrite, if_pos h]
  split <;> exact ⟨_, _, _, rfl⟩

theorem perform_sameWindow {s t : State} (h : SameWindow s t) (a : Act) : SameOutcome (perform a s) (perform a t) := by
  cases a with
  | reg r => exact performReg_sameWindow h r
  | rd x =>
    have hrd : rdOk t x = rdOk s x := by rw [rdOk, rdOk, h.rdFail]
    cases hx : rdOk s x with
    | true =>
      obtain ⟨b, d, hs⟩ := dmaRead_granted hx
      obtain ⟨b', d', ht⟩ := dmaRead_granted (hrd.trans hx)
      rw [perform, perform, hs, ht]
      exact { h with }
    | false =>
      rw [perform, perform, dmaRead_error hx, dmaRead_error (hrd.trans hx)]
      exact h.busErrorAt x
  | wr x v =>
    have hwr : wrOk t x = wrOk s x := by rw [wrOk, wrOk, h.wrFail]
    cases hx : wrOk s x with
    | true =>
      obtain ⟨m, u, b, hs⟩ := dmaWrite_granted hx (valOf s v)
      obtain ⟨m', u', b', ht⟩ := dmaWrite_granted (hwr.trans hx) (valOf t v)
      rw [perform, perform, hs, ht]
      exact { h with }
    | false =>
      rw [perform, perform, dmaWrite_error hx, dmaWrite_error (hwr.trans hx)]
      exact h.busErrorAt x

theorem performAll_sameWindow {s t : State} (h : SameWindow s t) (l : List Act) :
    SameOutcome (performAll l s) (performAll l t) := by
  induction l generalizing s t with
  | nil => exact h
  | cons a l ih =>
    have ha := perform_sameWindow h a
    simp only [performAll]
    cases hs : perform a s <;> cases ht : perform a t <;> rw [hs, ht] at ha
    · exact ha
    · exact ha.elim
    · exact ha.elim
    · exact ih ha

theorem runActs_sameWindow {s t : State} (h : SameWindow s t) (l : List Act) (e : ErrCode) :
    SameWindow (runActs l (conclude e) s) (runActs l (conclude e) t) := by
  have hl := performAll_sameWindow h l
  unfold runActs
  cases hs : performAll l s <;> cases ht : performAll l t <;> rw [hs, ht] at hl
  · exact hl.conclude _
  · exact hl.elim
  · exact hl.elim
  · exact hl.conclude _

/-- A command without a verdict has one body. -/
theorem bodies_eq_singleton {i : Instr} (hdec : i ≠ .dec) (hdecc : i ≠ .decc) (s : State) : ∃ p, bodies i s = [p] := by
  cases i with
  | dec => exact absurd rfl hdec
  | decc => exact absurd rfl hdecc
  | _ => exact ⟨_, rfl⟩

theorem command_sameWindow {i : Instr} (hdec : i ≠ .dec) (hdecc : i ≠ .decc) {s t : State} (h : SameWindow s t) :
    SameWindow (command i s) (command i t) := by
  have hval : validate i t = validate i s := validate_congr h.desc h.present h.ctx i
  have hbodies : bodies i t = bodies i s := bodies_congr h.desc h.present i
  obtain ⟨p, hp⟩ := bodies_eq_singleton hdec hdecc s
  rcases command_cases i s with ⟨e, hi, hv, hs⟩ | ⟨hv, q, hq, hs⟩
  · rcases command_cases i t with ⟨e', -, hv', ht⟩ | ⟨hv', -⟩
    · have he : e = e' := Option.some.inj (hv.symm.trans (hval.symm.trans hv'))
      rw [hs, ht, he]
      exact h.conclude _
    · have hnone := (hv'.resolve_left hi)
      rw [hval, hv] at hnone
      cases hnone
  · rcases command_cases i t with ⟨e', hi, hv', -⟩ | ⟨-, q', hq', ht⟩
    · have hnone := (hv.resolve_left hi)
      rw [← hval, hv'] at hnone
      cases hnone
    · rw [hbodies] at hq'
      rw [hp, List.mem_singleton] at hq hq'
      rw [hs, ht, hq, hq']
      exact runActs_sameWindow h _ _

end Sys2Proof.Machine
end

section
/-! The statements about the state, the register window and the turns of a step, settled from the lemmas above. They stand in a
namespace of their own, where a name such as `scrubbed` is not taken by the model. -/

namespace Sys2Proof.Settled

open Sys2Proof.Machine

/-- Settles O21: a step is a turn of the host or of the sequencer, and each of them goes on and keeps the invariant. -/
theorem stepKeepsInvariant : Obligations.StepKeepsInvariant := fun _ h => step_inv h

/-- Settles O5: a command's trace is run by `seqRun_command`, an ILLEGAL word's is `Scrub(); finish(IllegalCommand)` alone. -/
theorem wholeRunIsElementByElement : Obligations.WholeRunIsElementByElement := by
  intro w s hb
  by_cases hdec : ∃ i, decode w = .ok i
  · obtain ⟨i, hi⟩ := hdec
    obtain ⟨n, hn⟩ := seqRun_command i (running_begun i s)
    refine ⟨n, command i (begun i s), ?_, command_idle i _, fun j hj => ?_, fun hnone => absurd hi (hnone i)⟩
    · rw [acceptWord_eq_atTrace (decodeCommand_of_decode hi), eq_encode_of_decode hi, ← begun_eq_acceptWord, hn]
    · have hij : i = j := Except.ok.inj (hi.symm.trans hj)
      rw [← hij, exec_idle hb]
  · have hill : ∀ i, decode w ≠ .ok i := fun i hi => hdec ⟨i, hi⟩
    have hnone := decodeCommand_of_illegal hill
    have hr : running (acceptWord w s) = none := by rw [acceptWord, running_accept, hnone]
    obtain ⟨n, hn⟩ := seqRun_conclude .illegalCommand hr
    refine ⟨n, conclude .illegalCommand (acceptWord w s), ?_, busy_conclude .., fun i hi => absurd hi (hill i), fun _ => ?_⟩
    · rw [acceptWord_eq_atTrace hnone]
      exact hn
    · rw [runIllegal, hb, acceptWord, hnone]; rfl

/-- Settles O8: `accessed_none` says that such an access acts on no register. -/
theorem reservedAccessesInert : Obligations.ReservedAccessesInert := by
  intro s off bytes v h
  have hnone := accessed_none h
  exact ⟨portRead_of_none hnone s, portWrite_of_none hnone v s⟩

/-- Settles O9: the fields one by one, and what the invariant says of them while a command runs. -/
theorem statusFields : Obligations.StatusFields := by
  intro s
  refine ⟨⟨statusWord_busy s, statusWord_done s, statusWord_err_iff s, statusWord_wign s, statusWord_ctx s, ?_,
    statusWord_scrubbed s, statusWord_reserved s, statusWord_errCode s, statusWord_lastCmd s, statusWord_high s⟩, ?_, ?_⟩
  · rw [portRead_status, statusWord_ctx]
    exact ctxBits_ne_three s.ctx
  · rw [portRead_status, statusWord_busy, statusWord_done, statusWord_err, statusWord_errCode, errFlag]
    intro hinv hb
    obtain ⟨hdone, hcode⟩ := hinv.flags_of_busy hb
    rw [hdone, hcode]
    exact ⟨rfl, rfl, rfl⟩
  · rw [portRead_status, statusWord_busy]
    intro hb
    have hlo : portRead 0x028 4 s = loHalf (shownErrAddr s) := rfl
    have hhi : portRead 0x02C 4 s = hiHalf (shownErrAddr s) := rfl
    rw [hlo, hhi, shownErrAddr_busy hb]
    exact ⟨rfl, rfl⟩

/-- Settles O11: the invariant, which every step keeps, says that an idle block is scrubbed. -/
theorem scrubbed : Obligations.Scrubbed := by
  refine ⟨fun s => by rw [portRead_status, statusWord_scrubbed]; exact scrubbed_iff s, fun s t hinv hstep => ?_⟩
  rw [portRead_status, statusWord_busy, statusWord_scrubbed]
  obtain ⟨t', ht', hinv'⟩ := step_inv hinv
  rw [hstep] at ht'
  cases ht'
  exact hinv'.scrubbed_of_idle

/-- Settles O12: such a write is refused, and no turn of the sequencer or the host changes the operands. -/
theorem busyWritesIgnored : Obligations.BusyWritesIgnored := by
  intro s hb
  refine ⟨fun off v hoff => ?_, fun i => exec_busy hb, fun t hstep ht => ?_⟩
  · rcases hoff with rfl | rfl | ⟨b, w, rfl⟩
    · exact (portWrite_of_accessed accessed_cmd v s).trans (writeReg_refused hb (.inl rfl) v)
    · exact (portWrite_of_accessed accessed_present v s).trans (writeReg_refused hb (.inr (.inl rfl)) v)
    · exact (portWrite_of_accessed (accessed_desc b w) v s).trans (writeReg_refused hb (.inr (.inr ⟨b, w, rfl⟩)) v)
  · rw [step_of_busy hb] at hstep
    exact busyStep_operands hb hstep ht

/-- Settles O13: a descriptor write replaces one half of one descriptor; PRESENT and IRQ_EN hold the low bits alone. -/
theorem registerReadBack : Obligations.RegisterReadBack := by
  intro s v
  refine ⟨fun b w hb => ⟨?_, fun b' w' hne => ?_⟩, fun hb => ?_, zero_append_bit v⟩
  · rw [portRead_desc, portWrite_desc b w v hb]
    simp [readDesc_writeDesc]
  · rw [portRead_desc, portRead_desc, portWrite_desc b w v hb, descOf_setDesc]
    by_cases hbuf : b' = b
    · have hw : w' ≠ w := fun hw => hne (by rw [hbuf, hw])
      rw [if_pos hbuf, readDesc_writeDesc, if_neg hw, hbuf]
    · rw [if_neg hbuf]
  · rw [portRead_present, portWrite_present v hb]
    exact zero_append_lowSix v

/-- Settles O14: a 64-bit value is made of its two halves. -/
theorem descriptorMeaning : Obligations.DescriptorMeaning := by
  intro s b
  simp only [portRead_desc, portRead_present]
  refine ⟨toNat_halves _, toNat_halves _, ?_⟩
  have hb : bufIndex b < 6 := by cases b <;> decide
  rw [isPresent, BitVec.getLsbD_append, if_pos hb]

/-- Settles O17: the three offsets named, then every other one by the register that stands there, if any. -/
theorem resetRegisters : Obligations.ResetRegisters := by
  intro s off
  by_cases hid : off = 0x000
  · rw [if_pos hid, hid]; rfl
  rw [if_neg hid]
  by_cases hcaps : off = 0x004
  · rw [if_pos hcaps, hcaps]; rfl
  rw [if_neg hcaps]
  by_cases hstatus : off = 0x00C
  · rw [if_pos hstatus, hstatus, portRead_of_accessed accessed_status, readReg_resetStep]; decide
  rw [if_neg hstatus]
  cases h : accessed off 4 with
  | none => exact portRead_of_none h _
  | some r =>
    obtain ⟨hoff, -⟩ := accessed_eq_some_iff.mp h
    rw [portRead_of_accessed h, readReg_resetStep]
    refine readReg_reset_zero ?_ ?_ ?_
    · rintro rfl; exact hid hoff
    · rintro rfl; exact hcaps hoff
    · rintro rfl; exact hstatus hoff

/-- Settles O59: the two runs go in step on everything the window shows, and both end scrubbed. -/
theorem registersHideSecrets : Obligations.RegistersHideSecrets := by
  intro i s₁ s₂ hdec hdecc hinv₁ hinv₂ hb₁ hb₂ hwign hctx hdoneIe hpresent hdesc hrdFail hwrFail
  have hbegun : SameWindow (begun i s₁) (begun i s₂) :=
    { done := rfl, errCode := rfl, lastCmd := rfl, msgLen := rfl, errAddr := rfl, seq := rfl
      wign := hwign.symm, ctx := hctx.symm, doneIe := hdoneIe.symm, present := hpresent.symm, desc := hdesc.symm
      rdFail := hrdFail.symm, wrFail := hwrFail.symm }
  have hend := command_sameWindow hdec hdecc hbegun
  have hscr₁ := (command_inv hinv₁ hb₁ i).scrubbed_of_idle (command_idle i _)
  have hscr₂ := (command_inv hinv₂ hb₂ i).scrubbed_of_idle (command_idle i _)
  exact ⟨_, _, exec_idle hb₁, exec_idle hb₂, fun off bytes => (hend.portRead (hscr₂.trans hscr₁.symm) off bytes).symm⟩

/-- Settles O3: the block takes the word, and with nothing due meanwhile runs its command whole. -/
theorem stepRunsCommand : Obligations.StepRunsCommand := by
  have hrun : ∀ (s : State) (ar : Arrival) (act : HostAct) (w : Word) (i : Instr) (rest : List Input),
      busy s = false → s.inputs = ⟨ar, act⟩ :: rest → commandWord act = some w → polling ar s = false →
      interrupted rest = false → decode w = .ok i → step s = exec i { s with inputs := rest } := by
    intro s ar act w i rest hb hin hw hpoll hint hi
    rw [step_takes_word hb hin hpoll hw]
    exact runWord_decoded hint hi
  refine ⟨hrun, commandWord_write, fun s i => ?_⟩
  have hword : commandWord (.write 0x008 4 (tableWord 32 (encode i).toNat)) = some (encode i) := by
    rw [commandWord_write, tableWord_encode]; rfl
  exact hrun _ .whenIdle _ _ i [] rfl rfl hword rfl rfl (decode_encode i)

/-- Settles O4: the turns of an idle block, those of a running one by `busyStep`, and the accesses at a bus address. -/
theorem stepTakesTurns : Obligations.StepTakesTurns := by
  intro s
  refine ⟨fun hb hin => ?_, fun act rest hb hin hdone => ?_, fun ar act rest hb hin hdone hw => ?_,
    fun ar act w k act' rest hb hin hdone hw => ?_, fun hb hin => ?_, fun act rest hb hin => ?_, fun act rest hb hin => ?_,
    fun act rest hb hin => ?_, fun k act rest hb hin => ?_, fun off bytes v => busAccess_inside off bytes v s,
    fun a bytes v ha => busAccess_outside ha bytes v s⟩
  · rw [step_of_idle hb, idleStep, hin]
  · rw [← poll_eq]
    exact step_polls hb hin (by rw [polling, hdone]; rfl)
  · exact step_delivers hb hin (polling_eq_false hdone) hw
  · rw [step_takes_word hb hin (polling_eq_false hdone) hw]
    exact runWord_interrupted rfl
  · rw [step_of_busy hb, busyStep, hin]
  · rw [step_of_busy hb, busyStep, hin]
  · rw [← poll_eq]
    exact step_polls_busy hb hin
  · rw [step_of_busy hb, busyStep, hin]
  · rw [step_of_busy hb, busyStep, hin]

/-- Settles O7: each offset's access evaluates, whatever the state. -/
theorem readOnlyRegisters : Obligations.ReadOnlyRegisters := by
  refine ⟨fun s => ⟨rfl, rfl, rfl⟩, ?_⟩
  rintro s off v (rfl | rfl | rfl | rfl | rfl | rfl) <;> rfl

/-- Settles O10: a bit written as 1 clears its flag, and DONE is 0 already while a command runs. -/
theorem statusWriteOneToClear : Obligations.StatusWriteOneToClear := by
  intro s v
  have hclear : ∀ x b : Bool, (x && !b) = if b then false else x := by decide
  rw [portWrite_status]
  refine ⟨by rw [hclear, hclear], fun hinv hb => ?_⟩
  obtain ⟨hdone, -⟩ := hinv.flags_of_busy hb
  simp only [hdone, Bool.false_and]

/-- Settles O20: at reset memory holds no cell, and SCRUBBED computes to 1. -/
theorem resetMeetsInvariant : Obligations.ResetMeetsInvariant := by
  refine ⟨reset_mem_wf, fun _ hc => absurd hc List.not_mem_nil, ?_⟩
  have hscrubbed : Machine.scrubbed State.reset = true := by decide
  exact ⟨hscrubbed, rfl, rfl, rfl⟩

end Sys2Proof.Settled
end

section
/-! One byte of data memory: what the block and the host read and write, and what is left of a race (20_memory.md R52 to R54, R62 to
R67). -/

namespace Sys2Proof.Machine

/-! ## Replaced bytes and the draw among them -/

theorem mem_staleAt {l : List Host.Cell} {a : Addr} {b : Byte} : b ∈ staleAt l a ↔ (a.toNat, b) ∈ l := by
  simp [staleAt]

/-- A byte that the block has written has no replaced value left (20_memory.md R64). -/
theorem staleAt_memErase (l : List Host.Cell) (a : Addr) : staleAt (memErase l a.toNat) a = [] := by
  rw [List.eq_nil_iff_forall_not_mem]
  intro b hb
  exact ne_of_mem_erase (mem_staleAt.mp hb) rfl

/-- A draw gives the current byte or one of the others admitted (93_implementation_defined.md U6). -/
theorem pick_eq_or_mem (cur : Byte) (alts : List Byte) (n : Nat) : pick cur alts n = cur ∨ pick cur alts n ∈ alts := by
  cases alts with
  | nil => exact .inl rfl
  | cons b t =>
    have hlt : Config.freeNat n % ((b :: t).length + 1) < (cur :: b :: t).length := Nat.mod_lt _ (Nat.succ_pos _)
    rw [← List.mem_cons, pick, List.getD_eq_getElem _ _ hlt]
    exact List.getElem_mem hlt

/-! ## The block's accesses -/

/-- A granted read of ordinary memory gives the byte held or one kept as replaced (20_memory.md R66). -/
theorem dmaRead_old_or_new {a : Addr} {s : State} (hr : rdOk s a = true) (ho : ordinary s a = true) :
    ∃ t, dmaRead a s = .ok t ∧ (t.dataLatch = memRead s.mem a.toNat ∨ t.dataLatch ∈ staleAt s.blockStale a) := by
  rw [dmaRead, if_pos hr, if_pos ho]
  exact ⟨_, rfl, pick_eq_or_mem _ _ _⟩

/-- Acceptance is the acquire point (20_memory.md R63): the read of a byte of which nothing is stale then gives the byte held. -/
theorem dmaRead_acceptWord {a : Addr} {s : State} (w : Word) (hr : rdOk s a = true) (ho : ordinary s a = true)
    (hst : s.coherent = true ∨ staleAt s.blockStale a = []) :
    ∃ t, dmaRead a (acceptWord w s) = .ok t ∧ t.dataLatch = memRead s.mem a.toNat := by
  have hfresh : staleAt (acceptWord w s).blockStale a = [] := by
    rw [acceptWord, accept_blockStale]
    rcases hst with hc | hst
    · rw [hc]; rfl
    · split
      · rfl
      · exact hst
  exact ⟨_, dmaRead_fresh (s := acceptWord w s) hr ho hfresh, rfl⟩

/-! ## The host's accesses -/

section Store

variable (a : Addr) (b : Byte) (s : State)

@[simp] theorem busy_hostStore : busy (hostStore a b s) = busy s := by unfold hostStore; split <;> rfl
@[simp] theorem rdOk_hostStore (x : Addr) : rdOk (hostStore a b s) x = rdOk s x := by unfold hostStore; split <;> rfl
@[simp] theorem ordinary_hostStore (x : Addr) : ordinary (hostStore a b s) x = ordinary s x := by unfold hostStore; split <;> rfl
@[simp] theorem hostStore_coherent : (hostStore a b s).coherent = s.coherent := by unfold hostStore; split <;> rfl

variable {a s}

/-- A host store of ordinary memory stands in memory at once (log entry 19). -/
theorem memRead_hostStore (ho : ordinary s a = true) : memRead (hostStore a b s).mem a.toNat = b := by
  rw [hostStore, if_pos ho]
  exact memRead_write_same ..

/-- While a command runs, the byte replaced is kept (20_memory.md R66). -/
theorem hostStore_blockStale_busy (ho : ordinary s a = true) (hb : busy s = true) :
    (hostStore a b s).blockStale = (a.toNat, memRead s.mem a.toNat) :: s.blockStale := by
  rw [hostStore, if_pos ho, hb]
  rfl

end Store

theorem hostWriteBack_blockStale_busy {s : State} (hb : busy s = true) (r : Range) :
    (hostWriteBack r s).blockStale = s.blockStale := by
  rw [hostWriteBack, hb, if_pos rfl]

/-- While no command runs, a write-back leaves nothing stale of the bytes it covers (20_memory.md R62). -/
theorem staleAt_hostWriteBack {s : State} {a : Addr} {r : Range} (hb : busy s = false) (hr : Covers r a) :
    staleAt (hostWriteBack r s).blockStale a = [] := by
  rw [hostWriteBack, hb, if_neg Bool.false_ne_true]
  exact staleAt_outside _ hr

theorem hostLoad_memData {a : Addr} {s : State} (ho : ordinary s a = true) :
    (hostLoad a s).memData = pick (memRead s.mem a.toNat) (hostAlts a s) s.draws := by
  rw [hostLoad, if_pos ho]

/-- A host load of a byte of which the host holds nothing older gives the byte held. -/
theorem hostLoad_fresh {a : Addr} {s : State} (ho : ordinary s a = true) (h : hostAlts a s = []) :
    (hostLoad a s).memData = memRead s.mem a.toNat := by
  rw [hostLoad_memData ho, h, pick_nil]

theorem hostAlts_coherent {s : State} (hc : s.coherent = true) (a : Addr) : hostAlts a s = staleAt s.undo a := by
  rw [hostAlts, hc, if_pos rfl, List.append_nil]

/-! ## What every command leaves of the races -/

/-- Every command ends with `Scrub(); finish`, after elements that change none of the control state. -/
theorem exec_concludes {i : Instr} {s t : State} (hb : busy s = false) (h : exec i s = .next t) :
    ∃ e u, t = conclude e u ∧ SameControl (begun i s) u := by
  rcases exec_cases (i := i) hb with ⟨e, -, -, hx⟩ | ⟨-, p, -, ⟨u, hu, hx⟩ | ⟨u, hu, hx⟩⟩
  all_goals
    rw [h] at hx
    cases hx
  · exact ⟨e, _, rfl, SameControl.rfl' _⟩
  · exact ⟨p.2, u, rfl, performAll_control_ok hu⟩
  · exact ⟨.busError, u, rfl, performAll_control_error hu⟩

/-- No replaced byte is kept past the finish (20_memory.md R65), and the platform is as it was. -/
theorem exec_release_point {i : Instr} {s t : State} (hb : busy s = false) (h : exec i s = .next t) :
    t.undo = [] ∧ t.coherent = s.coherent ∧ t.special = s.special := by
  obtain ⟨e, u, rfl, hc⟩ := exec_concludes hb h
  exact ⟨rfl, hc.coherent, hc.special⟩

theorem ordinary_congr {s t : State} (h : t.special = s.special) (a : Addr) : ordinary t a = ordinary s a := by
  rw [ordinary, ordinary, h]

/-- A host load of ordinary memory after a command, on a platform that is coherent (20_memory.md R65). -/
theorem hostLoad_after_exec {i : Instr} {s t : State} {a : Addr} (hb : busy s = false) (hc : s.coherent = true)
    (ho : ordinary s a = true) (h : exec i s = .next t) : (hostLoad a t).memData = memRead t.mem a.toNat := by
  obtain ⟨hundo, hcoh, hspecial⟩ := exec_release_point hb h
  refine hostLoad_fresh ((ordinary_congr hspecial a).trans ho) ?_
  rw [hostAlts_coherent (hcoh.trans hc), hundo, staleAt_nil]

/-- The same on any platform, once the host has invalidated the byte's line (20_memory.md R62). -/
theorem hostLoad_after_invalidate {i : Instr} {s t : State} {a : Addr} {r : Range} (hb : busy s = false)
    (ho : ordinary s a = true) (hr : Covers r a) (h : exec i s = .next t) :
    (hostLoad a { t with hostStale := outside r t.hostStale }).memData = memRead t.mem a.toNat := by
  obtain ⟨hundo, -, hspecial⟩ := exec_release_point hb h
  refine hostLoad_fresh (s := { t with hostStale := outside r t.hostStale }) ((ordinary_congr hspecial a).trans ho) ?_
  rw [hostAlts]
  simp only [hundo, staleAt_nil, staleAt_outside _ hr, ite_self, List.nil_append]

end Sys2Proof.Machine
end

section
/-! AddressRange and BufferOverlap as 20_memory.md R56 and R57 word them, and when a command finishes with a code of Validate. -/

namespace Sys2Proof.Machine

theorem inRange_eq_false_iff {r : Range} : inRange r = false ↔ 0 < r.size ∧ 2 ^ 64 < r.base + r.size := by
  simp only [inRange, Bool.or_eq_false_iff, beq_eq_false_iff_ne, decide_eq_false_iff_not]
  omega

theorem failsRange_iff {i : Instr} {s : State} :
    failsRange i s = true ↔ ∃ u ∈ usedRegions i s, 0 < u.2.size ∧ 2 ^ 64 < u.2.base + u.2.size := by
  simp only [failsRange, List.any_eq_true, Bool.not_eq_true', inRange_eq_false_iff]

theorem failsRange_eq_false_iff {i : Instr} {s : State} :
    failsRange i s = false ↔ ∀ u ∈ usedRegions i s, u.2.size = 0 ∨ u.2.base + u.2.size ≤ 2 ^ 64 := by
  simp only [failsRange, List.any_eq_false, Bool.not_eq_true', inRange, Bool.not_eq_false, Bool.or_eq_true, beq_iff_eq,
    decide_eq_true_eq]

/-- Regions overlap when some address lies in both (20_memory.md R57); the higher of the two bases is one. -/
theorem overlaps_iff {r q : Range} :
    overlaps r q = true ↔ ∃ x, (r.base ≤ x ∧ x < r.base + r.size) ∧ q.base ≤ x ∧ x < q.base + q.size := by
  simp only [overlaps, Bool.and_eq_true, decide_eq_true_eq]
  constructor
  · intro h
    exact ⟨max r.base q.base, by omega⟩
  · rintro ⟨x, h⟩
    omega

theorem inPlacePair_iff {i : Instr} {s : State} {o u : Buf} : inPlacePair i s o u = true ↔
    o = .out ∧ u = .inp ∧ (i = .enc ∨ i = .encc ∨ i = .dec ∨ i = .decc) ∧ addrOf s .out = addrOf s .inp := by
  cases i <;> simp [inPlacePair, and_assoc]

theorem failsOverlap_iff {i : Instr} {s : State} : failsOverlap i s = true ↔
    ∃ o ∈ usedRegions i s, o.1 ∈ outputBufs i ∧ ∃ u ∈ usedRegions i s, u.1 ≠ o.1 ∧
      overlaps o.2 u.2 = true ∧ ¬inPlacePair i s o.1 u.1 = true := by
  simp only [failsOverlap, outputRegions, List.any_eq_true, List.mem_filter, List.contains_iff_mem, Bool.and_eq_true,
    bne_iff_ne, Bool.not_eq_true', Bool.not_eq_true, and_assoc]

theorem validate_release (s : State) : validate .release s = none := by
  simp [validate_eq_none, failsContext, failsKey, failsMissing, requiredBufs, failsMismatch, failsNonce, failsTag, failsOverflow,
    failsRange, failsOverlap, outputRegions, usedRegions]

/-- A code that no body ends with is the command's exactly when Validate raises it (40_context.md R85). -/
theorem exec_errCode_iff_validate (i : Instr) {s : State} (hb : busy s = false) : ∃ t, exec i s = .next t ∧
    ∀ e, e ≠ .ok → e ≠ .tagMismatch → e ≠ .busError → (t.errCode = e ↔ validate i s = some e) := by
  rcases exec_cases (i := i) hb with ⟨c, -, hv, hx⟩ | ⟨hv, p, hp, hx⟩
  · exact ⟨_, hx, fun e _ _ _ => by rw [conclude_errCode, hv, Option.some.injEq]⟩
  · have hnone : validate i s = none := by
      rcases hv with rfl | hv
      · exact validate_release s
      · exact hv
    have hcode : p.2 = .ok ∨ p.2 = .tagMismatch := (bodies_codes hp).imp_right And.left
    rcases hx with ⟨u, -, hx⟩ | ⟨u, -, hx⟩
    · refine ⟨_, hx, fun e hok htag _ => ?_⟩
      rw [conclude_errCode, hnone]
      rcases hcode with h | h <;> simp [h, hok.symm, htag.symm]
    · refine ⟨_, hx, fun e _ _ hbus => ?_⟩
      rw [conclude_errCode, hnone]
      simp [hbus.symm]

end Sys2Proof.Machine
end

section
/-! Where a sequence of elements stops at a bus error, and what a command leaves then (20_memory.md R54). -/

namespace Sys2Proof.Machine

/-! ## Elements up to an access that is not granted -/

/-- An element that completes on the platform of s and stores nothing: a register element, or a granted read. -/
def GrantedRead (s : State) : Act → Prop
  | .reg _ => True
  | .rd a => rdOk s a = true
  | .wr _ _ => False

/-- The platform of s answers the element, an access of address a, with a bus error. -/
def RefusedAt (s : State) (a : Addr) : Act → Prop
  | .reg _ => False
  | .rd x => x = a ∧ rdOk s x = false
  | .wr x _ => x = a ∧ wrOk s x = false

/-- Granted reads complete whatever bytes they return, and leave memory as it was. -/
theorem performAll_grantedReads {l : List Act} {s : State} (h : AllActs (GrantedRead s) l) :
    ∃ t, performAll l s = .ok t ∧ t.mem = s.mem := by
  have hstore : ∀ a v, Act.wr a v ∉ l := fun a v ha => h _ ha
  have hmem := performAll_mem_eq hstore s
  have hnone : failAddr s l = none := failAddr_eq_none.mpr ⟨fun a ha => h _ ha, fun a v ha => (hstore a v ha).elim⟩
  rcases performAll_outcome l s with ⟨-, t, ht⟩ | ⟨a, u, ha, -⟩
  · rw [ht] at hmem
    exact ⟨t, ht, hmem⟩
  · rw [hnone] at ha; cases ha

theorem performAll_refused {a : Addr} {b : Act} {s : State} (h : RefusedAt s a b) (r : List Act) :
    performAll (b :: r) s = .error (busErrorAt a s) := by
  cases b with
  | reg _ => exact h.elim
  | rd x =>
    obtain ⟨rfl, hx⟩ := h
    exact performAll_rd_error hx
  | wr x v =>
    obtain ⟨rfl, hx⟩ := h
    exact performAll_wr_error hx

theorem SameControl.wrOk {s t : State} (hc : SameControl s t) (a : Addr) : wrOk t a = wrOk s a := by
  rw [Machine.wrOk, Machine.wrOk, hc.wrFail]

theorem SameControl.readable {s t : State} (hc : SameControl s t) {a : Addr} {n : Nat} (h : Readable s a n) : Readable t a n := by
  simpa only [Readable, rdOk, ordinary, hc.rdFail, hc.special] using h

theorem SameControl.writable {s t : State} (hc : SameControl s t) {a : Addr} {n : Nat} (h : Writable s a n) : Writable t a n := by
  simpa only [Writable, Machine.wrOk, ordinary, hc.wrFail, hc.special] using h

theorem RefusedAt.congr {s t : State} {a : Addr} {b : Act} (h : RefusedAt s a b) (hc : SameControl s t) : RefusedAt t a b := by
  cases b with
  | reg _ => exact h
  | rd x => simpa only [RefusedAt, rdOk, hc.rdFail] using h
  | wr x v => simpa only [RefusedAt, wrOk, hc.wrFail] using h

/-- After granted reads, an access that is not granted stops the sequence with memory as it was. -/
theorem performAll_stops {l : List Act} {s : State} {a : Addr} {b : Act} (h : AllActs (GrantedRead s) l) (hb : RefusedAt s a b)
    (r : List Act) : ∃ u, performAll (l ++ b :: r) s = .error (busErrorAt a u) ∧ u.mem = s.mem := by
  obtain ⟨u, hu, hmem⟩ := performAll_grantedReads h
  exact ⟨u, by rw [performAll_append_ok hu, performAll_refused (hb.congr (performAll_control_ok hu))], hmem⟩

/-- A loop of reads whose round j is the first with an access that is not granted. -/
theorem performAll_loop_stops {f : Nat → List Act} {n j : Nat} {s : State} {a : Addr} {b : Act} {pre post : List Act}
    (hj : j < n) (hbefore : ∀ i < j, AllActs (GrantedRead s) (f i)) (hpre : AllActs (GrantedRead s) pre) (hb : RefusedAt s a b)
    (hf : f j = pre ++ b :: post) :
    ∃ u, performAll ((List.range n).flatMap f) s = .error (busErrorAt a u) ∧ u.mem = s.mem := by
  obtain ⟨rest, hsplit⟩ := flatMap_range_split (f := f) hj
  have hlist : (List.range n).flatMap f = ((List.range j).flatMap f ++ pre) ++ b :: (post ++ rest) := by
    rw [hsplit, hf]
    simp only [List.append_assoc, List.cons_append]
  rw [hlist]
  exact performAll_stops (allActs_append (allActs_flatMap hbefore) hpre) hb _

/-- The nonce reads up to byte j, which cannot be read (41_encrypt.md R110). -/
theorem readNonce_stops {a : Addr} {s : State} {j : Nat} (hj : j < 12) (hr : ∀ k < j, rdOk s (addrAdd a k) = true)
    (hfail : rdOk s (addrAdd a j) = false) :
    ∃ u, performAll (readNonce a) s = .error (busErrorAt (addrAdd a j) u) ∧ u.mem = s.mem :=
  performAll_loop_stops (b := .rd (addrAdd a j)) hj
    (fun i hi => allActs_cons (hr i hi) (allActs_cons trivial allActs_nil)) allActs_nil ⟨rfl, hfail⟩ rfl

/-- The key reads up to byte j, which cannot be read (40_context.md R96). -/
theorem readKey_stops {a : Addr} {s : State} {j : Nat} (hj : j < 32) (hr : ∀ k < j, rdOk s (addrAdd a k) = true)
    (hfail : rdOk s (addrAdd a j) = false) :
    ∃ u, performAll ((List.range 32).flatMap (readKeyByte a)) s = .error (busErrorAt (addrAdd a j) u) ∧ u.mem = s.mem :=
  performAll_loop_stops (b := .rd (addrAdd a j)) hj
    (fun i hi => allActs_cons (hr i hi) (allActs_cons trivial allActs_nil)) allActs_nil ⟨rfl, hfail⟩ rfl

/-- XorPass up to text byte j, whose read or write is not granted: the bytes before it are written (41_encrypt.md R110). -/
theorem xorPass_stops {src dst : Addr} {s : State} {n j : Nat} (hj : j < n) (hr : Readable s src j) (hw : Writable s dst j)
    (hb : s.blockStale = []) (hsep : ReadsFirst src dst j)
    (hfail : rdOk s (addrAdd src j) = false ∨ rdOk s (addrAdd src j) = true ∧ wrOk s (addrAdd dst j) = false) :
    ∃ u, performAll (xorPass src dst n) s =
        .error (busErrorAt (if rdOk s (addrAdd src j) then addrAdd dst j else addrAdd src j) u) ∧
      u.mem = writeBytes s.mem dst j (xorByteAt s src) := by
  obtain ⟨rest, d, u, c, x, w, hstop⟩ := xorPass_stop hj hr hw hb hsep
  rw [hstop]
  rcases hfail with hrd | ⟨hrd, hwr⟩
  · rw [hrd, if_neg Bool.false_ne_true]
    refine performAll_stops (l := []) (b := .rd (addrAdd src j)) allActs_nil ?_ _
    exact ⟨rfl, hrd⟩
  · rw [hrd, if_pos rfl]
    refine performAll_stops (l := [.rd (addrAdd src j)]) (b := .wr (addrAdd dst j) _) (allActs_cons ?_ allActs_nil) ?_ _
    · exact hrd
    · exact ⟨rfl, hwr⟩

/-! ## The reads of a message -/

theorem messageSource_lt {a c k : Nat} {adAddr ctAddr x : Addr} (h : messageSource a adAddr c ctAddr k = some x) :
    k < messageLen a c := by
  unfold messageSource at h
  unfold messageLen
  split at h
  · omega
  · split at h
    · omega
    · cases h

theorem messageSource_ad {a c k : Nat} {adAddr ctAddr : Addr} (hk : k < a) :
    messageSource a adAddr c ctAddr k = some (addrAdd adAddr k) := by
  rw [messageSource, if_pos hk]

theorem messageSource_ct {a c k : Nat} {adAddr ctAddr : Addr} (hk : k < c) :
    messageSource a adAddr c ctAddr (a + padLen a + k) = some (addrAdd ctAddr k) := by
  rw [messageSource, if_neg (by omega), if_pos (by omega), Nat.add_sub_cancel_left]

/-- The reads for one message byte are granted when its source is. -/
theorem emit_grantedReads {a c k : Nat} {adAddr ctAddr : Addr} {s : State}
    (h : ∀ x, messageSource a adAddr c ctAddr k = some x → rdOk s x = true) :
    AllActs (GrantedRead s) (emit k a adAddr c ctAddr).1 := by
  rw [emit_source]
  intro b hb
  obtain ⟨x, hx, rfl⟩ := List.mem_map.mp hb
  exact h x (Option.mem_toList.mp hx)

theorem emit_of_source {a c k : Nat} {adAddr ctAddr x : Addr} (h : messageSource a adAddr c ctAddr k = some x) :
    (emit k a adAddr c ctAddr).1 = [.rd x] := by
  rw [emit_source, h]
  rfl

/-- MacOver up to message byte k, whose source cannot be read (41_encrypt.md R110). -/
theorem macOver_stops {a c k : Nat} {adAddr ctAddr x : Addr} {s : State}
    (hbefore : ∀ k' < k, ∀ y, messageSource a adAddr c ctAddr k' = some y → rdOk s y = true)
    (hk : messageSource a adAddr c ctAddr k = some x) (hfail : rdOk s x = false) :
    ∃ u, performAll (macOver a adAddr c ctAddr) s = .error (busErrorAt x u) ∧ u.mem = s.mem := by
  obtain ⟨u, hu, hmem⟩ := performAll_loop_stops (f := macStep a adAddr c ctAddr) (b := .rd x)
    (s := performReg .macBegin s) (pre := [.reg (.setEncK (BitVec.ofNat 64 k))]) (messageSource_lt hk)
    (fun i hi => allActs_append (allActs_append (allActs_cons trivial allActs_nil) (emit_grantedReads (hbefore i hi)))
      (allActs_cons trivial allActs_nil))
    (allActs_cons trivial allActs_nil) ⟨rfl, hfail⟩ (by rw [macStep, emit_of_source hk]; rfl)
  exact ⟨u, performAll_append_error hu, hmem⟩

/-! ## A command that a bus error ends -/

/-- What a command other than LOADKEY and RELEASE leaves when a bus error at address a ends it with memory m. -/
structure StoppedAt (i : Instr) (s : State) (a : Addr) (m : List Host.Cell) (t : State) : Prop where
  finished : FinishedWith .busError t
  errAddr : t.errAddr = a
  mem : t.mem = m
  key : t.key = s.key
  ctx : t.ctx = s.ctx
  msgLen : t.msgLen.toNat = messageLen (adLen s) (textLen i s)
  lastCmd : t.lastCmd = (encode i).extractLsb' 0 4
  setup : SameSetup s t

theorem stoppedAt_conclude {i : Instr} {s u : State} {a : Addr} {p : List Act × ErrCode} (hv : validate i s = none)
    (hp : p ∈ bodies i (begun i s)) (hu : performAll p.1 (begun i s) = .error (busErrorAt a u)) (h1 : i ≠ .loadkey)
    (h2 : i ≠ .release) : StoppedAt i s a u.mem (conclude .busError (busErrorAt a u)) := by
  obtain ⟨hkey, hctx, hmsg, hlast, hsetup⟩ := stopped_conclude hv hp hu h1 h2
  exact ⟨finished_conclude _ _, busErrorAt_errAddr a u, busErrorAt_mem a u, hkey, hctx, hmsg, hlast, hsetup⟩

/-- A command whose elements stop at a bus error, whichever body it would have gone on with. -/
theorem exec_stoppedAt {i : Instr} {s u : State} {a : Addr} (hb : busy s = false) (hv : validate i s = none)
    (h : ∀ p ∈ bodies i (begun i s), performAll p.1 (begun i s) = .error (busErrorAt a u)) (h1 : i ≠ .loadkey)
    (h2 : i ≠ .release) : ∃ t, exec i s = .next t ∧ StoppedAt i s a u.mem t := by
  rcases exec_cases (i := i) hb with ⟨e, -, hv', -⟩ | ⟨-, p, hp, ⟨u', hu, -⟩ | ⟨u', hu, hx⟩⟩
  · rw [hv] at hv'; cases hv'
  · rw [h p hp] at hu; cases hu
  · have hstop := h p hp
    rw [hu, Except.error.injEq] at hstop
    subst hstop
    exact ⟨_, hx, stoppedAt_conclude hv hp hu h1 h2⟩

/-! ## LOADKEY -/

theorem perform_ctx {a : Act} (h : ∀ c, a ≠ .reg (.setCtx c)) (s : State) : (outcomeState (perform a s)).ctx = s.ctx := by
  cases a with
  | reg r => cases r <;> simp_all [perform, performReg]
  | rd a => rcases dmaRead_cases a s with ⟨b, d, h'⟩ | h' <;> simp [perform, h']
  | wr a v => rcases dmaWrite_cases a (valOf s v) s with h' | h' | h' <;> simp [perform, h']

/-- The key reads leave CTX as it was, also when one fails. -/
theorem readKey_ctx (a : Addr) (n : Nat) (s : State) :
    (outcomeState (performAll ((List.range n).flatMap (readKeyByte a)) s)).ctx = s.ctx := by
  have hall : AllActs (fun b => ∀ c, b ≠ .reg (.setCtx c)) ((List.range n).flatMap (readKeyByte a)) :=
    allActs_flatMap fun i _ => allActs_cons (fun _ => by simp) (allActs_cons (fun _ => by simp) allActs_nil)
  exact performAll_induct (P := fun s t => t.ctx = s.ctx) (fun _ => rfl) (fun _ _ _ h k => k.trans h)
    (fun b hb s => perform_ctx (hall b hb) s) s

/-- LOADKEY's elements up to key byte j, which cannot be read: KEY is zero and CTX is EMPTY (20_memory.md R54,
40_context.md R96). -/
theorem loadkeyActs_stops {s : State} {j : Nat} (hrun : running s = some .loadkey) (hj : j < 32)
    (hr : ∀ k < j, rdOk s (addrAdd (addrOf s .key) k) = true) (hfail : rdOk s (addrAdd (addrOf s .key) j) = false) :
    ∃ t, performAll (loadkeyActs s) s = .error t ∧ t.errAddr = addrAdd (addrOf s .key) j ∧ t.mem = s.mem ∧
      t.key = .replicate 32 0 ∧ t.ctx = .empty := by
  obtain ⟨u, hu, hmem⟩ := readKey_stops (a := addrOf s .key) (s := { s with key := .replicate 32 0, ctx := .empty }) hj hr hfail
  have hctx := readKey_ctx (addrOf s .key) 32 { s with key := .replicate 32 0, ctx := .empty }
  have hseq := (performAll_control_error hu).seq
  rw [hu, outcomeState_error] at hctx
  rw [busErrorAt_seq] at hseq
  have hrun' : running u = some .loadkey := by rw [← hrun, running, running, hseq]
  refine ⟨busErrorAt (addrAdd (addrOf s .key) j) u, ?_, busErrorAt_errAddr .., (busErrorAt_mem ..).trans hmem, ?_, hctx⟩
  · exact performAll_append_error hu
  · rw [busErrorAt_key, if_pos hrun']

end Sys2Proof.Machine
end

section
/-! ENC and ENCC up to a bus error (41_encrypt.md R110): the nonce reads, XorPass, MacOver and the tag write. -/

namespace Sys2Proof.Machine

/-! ## Bytes of regions -/

theorem regionBytes_take (m : List Host.Cell) (a : Addr) {j n : Nat} (h : j ≤ n) :
    (regionBytes m a n).take j = regionBytes m a j := by
  rw [regionBytes, regionBytes, ← List.map_take, List.take_range, Nat.min_eq_left h]

theorem xorText_take (key : Vector Byte 32) (nonce : Vector Byte 12) (p : List Byte) (j : Nat) :
    (xorText key nonce p).take j = xorText key nonce (p.take j) := by
  apply List.ext_getElem?
  intro i
  simp only [List.getElem?_take, xorText_getElem?]
  split <;> rfl

/-- The first j bytes of OUT after the first j bytes of XorPass (41_encrypt.md R110). -/
theorem regionBytes_xorText_take {s : State} {src dst : Addr} {j n : Nat} (hj : j ≤ n) (h : j = 0 ∨ dst.toNat + j ≤ 2 ^ 64) :
    regionBytes (writeBytes s.mem dst j (xorByteAt s src)) dst j =
      (xorText s.key s.nl (regionBytes s.mem src n)).take j := by
  rw [regionBytes_xorText h, xorText_take, regionBytes_take _ _ hj]

/-! ## What ENC and ENCC have in common -/

/-- What validation says of the text of ENC and ENCC, and of where the tag goes (40_context.md R93, R94). -/
structure SealFacts (i : Instr) (s : State) : Prop where
  out_le : textLen i s = 0 ∨ (addrOf s .out).toNat + textLen i s ≤ 2 ^ 64
  out_inp : ReadsFirst (addrOf s .inp) (addrOf s .out) (textLen i s)
  out_ad : ∀ k < adLen s, ∀ j < textLen i s, (addrAdd (addrOf s .ad) k).toNat ≠ (addrAdd (addrOf s .out) j).toNat
  tag_le : (tagOutAddr i s).toNat + 16 ≤ 2 ^ 64
  out_tag : ∀ k < textLen i s, ∀ j < 16, (addrAdd (addrOf s .out) k).toNat ≠ (addrAdd (tagOutAddr i s) j).toNat

section Seal

variable {i : Instr} {s : State} (hi : i = .enc ∨ i = .encc)

include hi

/-- ENC and ENCC differ in where the tag goes (41_encrypt.md R102, R103). -/
theorem bodies_seal (s : State) :
    bodies i s = [(sealActs s (textLen i s) ++ writeTag (tagOutAddr i s), .ok)] := by
  rcases hi with rfl | rfl <;> rfl

theorem sealFacts (hv : validate i s = none) : SealFacts i s := by
  rcases hi with rfl | rfl
  · have h := encFacts hv
    obtain ⟨htag, hsep⟩ := encTag_apart hv
    exact ⟨h.out_le, h.out_inp, h.out_ad, htag, hsep⟩
  · have h := enccFacts hv
    have hle : (addrOf s .out).toNat + (textLen .encc s + 16) ≤ 2 ^ 64 := h.out_le.resolve_left (by omega)
    have htag : (tagOutAddr .encc s).toNat = (addrOf s .out).toNat + textLen .encc s := addrAdd_toNat (by omega)
    refine ⟨.inr (by omega), h.out_inp, fun k hk j hj => h.out_ad k hk j (by omega), by omega, fun k hk j hj => ?_⟩
    rw [addrAdd_toNat (by omega), addrAdd_toNat (by omega), htag]
    omega

/-- The regions ENC and ENCC read (30_encoding.md R76). -/
theorem seal_reads (h : ∀ r ∈ readsOf i s, Readable s r.1 r.2) :
    Readable s (addrOf s .nonce) 12 ∧ Readable s (addrOf s .inp) (textLen i s) ∧ Readable s (addrOf s .ad) (adLen s) ∧
      Readable s (addrOf s .out) (textLen i s) := by
  have hreads : readsOf i s = [(addrOf s .nonce, 12), (addrOf s .inp, textLen i s), (addrOf s .ad, adLen s),
      (addrOf s .out, textLen i s)] := by rcases hi with rfl | rfl <;> rfl
  rw [hreads] at h
  exact ⟨h (addrOf s .nonce, 12) (by simp), h (addrOf s .inp, textLen i s) (by simp), h (addrOf s .ad, adLen s) (by simp),
    h (addrOf s .out, textLen i s) (by simp)⟩

/-- A bus error at an element of ENC or ENCC. -/
theorem seal_stoppedAt {u : State} {a : Addr} (hb : busy s = false) (hv : validate i s = none)
    (h : performAll (sealActs (begun i s) (textLen i s) ++ writeTag (tagOutAddr i s)) (begun i s) = .error (busErrorAt a u)) :
    ∃ t, exec i s = .next t ∧ StoppedAt i s a u.mem t := by
  have hother : i ≠ .loadkey ∧ i ≠ .release := by rcases hi with rfl | rfl <;> decide
  refine exec_stoppedAt hb hv (fun p hp => ?_) hother.1 hother.2
  rw [bodies_seal hi, List.mem_singleton] at hp
  have hlen : textLen i (begun i s) = textLen i s := textLen_congr rfl i
  have htag : tagOutAddr i (begun i s) = tagOutAddr i s := by rcases hi with rfl | rfl <;> rfl
  rw [hp, hlen, htag]
  exact h

end Seal

/-! ## The elements one part after the other -/

/-- Everything up to XorPass when the nonce can be read. -/
theorem sealNonce_spec {s : State} (n : Nat) (hn : Readable s (addrOf s .nonce) 12) (hb : s.blockStale = []) :
    ∃ d, performAll (setMessageLen (adLen s) n ++ readNonce (addrOf s .nonce)) s =
      .ok { s with msgLen := BitVec.ofNat 64 (messageLen (adLen s) n), nl := nonceOf s, dataLatch := d } :=
  readNonce_spec (s := { s with msgLen := BitVec.ofNat 64 (messageLen (adLen s) n) }) hn hb

theorem sealActs_stops_at_nonce {s : State} {j n : Nat} (hj : j < 12)
    (hr : ∀ k < j, rdOk s (addrAdd (addrOf s .nonce) k) = true) (hfail : rdOk s (addrAdd (addrOf s .nonce) j) = false) :
    ∃ u, performAll (sealActs s n) s = .error (busErrorAt (addrAdd (addrOf s .nonce) j) u) ∧ u.mem = s.mem := by
  obtain ⟨u, hu, hmem⟩ := readNonce_stops (a := addrOf s .nonce)
    (s := { s with msgLen := BitVec.ofNat 64 (messageLen (adLen s) n) }) hj hr hfail
  exact ⟨u, performAll_append_error (performAll_append_error (performAll_append_error hu)), hmem⟩

theorem sealActs_stops_at_text {s : State} {j n : Nat} (hj : j < n) (hn : Readable s (addrOf s .nonce) 12)
    (hr : Readable s (addrOf s .inp) j) (hw : Writable s (addrOf s .out) j) (hb : s.blockStale = [])
    (hsep : ReadsFirst (addrOf s .inp) (addrOf s .out) n)
    (hfail : rdOk s (addrAdd (addrOf s .inp) j) = false ∨
      rdOk s (addrAdd (addrOf s .inp) j) = true ∧ wrOk s (addrAdd (addrOf s .out) j) = false) :
    ∃ u, performAll (sealActs s n) s = .error (busErrorAt
        (if rdOk s (addrAdd (addrOf s .inp) j) then addrAdd (addrOf s .out) j else addrAdd (addrOf s .inp) j) u) ∧
      u.mem = writeBytes s.mem (addrOf s .out) j (xorByteAt { s with nl := nonceOf s } (addrOf s .inp)) := by
  obtain ⟨d, hd⟩ := sealNonce_spec n hn hb
  obtain ⟨u, hu, hmem⟩ := xorPass_stops
    (s := { s with msgLen := BitVec.ofNat 64 (messageLen (adLen s) n), nl := nonceOf s, dataLatch := d }) hj hr hw hb
    (fun i hi k hk => hsep i (by omega) k hk) hfail
  exact ⟨u, performAll_append_error (performAll_append_error ((performAll_append_ok hd).trans hu)), hmem⟩

theorem sealActs_stops_at_message {s : State} {k n : Nat} {x : Addr} (hn : Readable s (addrOf s .nonce) 12)
    (hr : Readable s (addrOf s .inp) n) (hw : Writable s (addrOf s .out) n) (hb : s.blockStale = [])
    (hsep : ReadsFirst (addrOf s .inp) (addrOf s .out) n)
    (hbefore : ∀ k' < k, ∀ y, messageSource (adLen s) (addrOf s .ad) n (addrOf s .out) k' = some y → rdOk s y = true)
    (hk : messageSource (adLen s) (addrOf s .ad) n (addrOf s .out) k = some x) (hfail : rdOk s x = false) :
    ∃ u, performAll (sealActs s n) s = .error (busErrorAt x u) ∧
      u.mem = writeBytes s.mem (addrOf s .out) n (xorByteAt { s with nl := nonceOf s } (addrOf s .inp)) := by
  obtain ⟨d, hd⟩ := sealNonce_spec n hn hb
  obtain ⟨d', u', x', w', hx⟩ := xorPass_spec
    (s := { s with msgLen := BitVec.ofNat 64 (messageLen (adLen s) n), nl := nonceOf s, dataLatch := d }) hr hw hb hsep
  obtain ⟨u, hu, hmem⟩ := macOver_stops (s := { s with
    msgLen := BitVec.ofNat 64 (messageLen (adLen s) n)
    nl := nonceOf s
    mem := writeBytes s.mem (addrOf s .out) n (xorByteAt { s with nl := nonceOf s } (addrOf s .inp))
    undo := u'
    dataLatch := d'
    jctr := 0
    cs := .replicate 16 0
    ks := .replicate 64 0
    otk := oneTimeKey s.key (nonceOf s) }) hbefore hk hfail
  refine ⟨u, ?_, hmem⟩
  rw [sealActs, List.append_assoc, List.append_assoc, performAll_append_ok hd, performAll_append_ok hx,
    performAll_append_ok (deriveOtk_spec _)]
  exact hu

/-- ENC or ENCC up to tag byte j, which cannot be written: OUT holds the ciphertext, and the first j bytes of the tag are
written. -/
theorem sealActs_stops_at_tag {s : State} {j n : Nat} {ta : Addr} (hj : j < 16) (hn : Readable s (addrOf s .nonce) 12)
    (hr : Readable s (addrOf s .inp) n) (ha : Readable s (addrOf s .ad) (adLen s)) (ho : Readable s (addrOf s .out) n)
    (hw : Writable s (addrOf s .out) n) (ht : Writable s ta j) (hb : s.blockStale = [])
    (hsep : ReadsFirst (addrOf s .inp) (addrOf s .out) n) (hle : n = 0 ∨ (addrOf s .out).toNat + n ≤ 2 ^ 64)
    (had : ∀ k < adLen s, ∀ j < n, (addrAdd (addrOf s .ad) k).toNat ≠ (addrAdd (addrOf s .out) j).toNat)
    (hfail : wrOk s (addrAdd ta j) = false) :
    ∃ u, performAll (sealActs s n ++ writeTag ta) s = .error (busErrorAt (addrAdd ta j) u) ∧
      u.mem = writeBytes (writeBytes s.mem (addrOf s .out) n (xorByteAt { s with nl := nonceOf s } (addrOf s .inp))) ta j
        (byteAt (tagFor s.key (nonceOf s) (adBytes s)
          (xorText s.key (nonceOf s) (regionBytes s.mem (addrOf s .inp) n)))) := by
  obtain ⟨t, hseal, hmem, hetag, hstale⟩ := sealActs_spec hn hr ha ho hw hb hsep hle had
  have hc := performAll_control_ok hseal
  obtain ⟨rest, v, hstop⟩ := writeTag_stop (s := t) (a := ta) hj
    (hc.writable ht) hstale
  exact ⟨_, (performAll_append_ok hseal).trans (hstop.trans (performAll_wr_error ((hc.wrOk _).trans hfail))),
    by simp only [hmem, hetag]⟩

end Sys2Proof.Machine
end

section
/-! TAGIN up to a bus error (42_tag_input.md R121, 20_memory.md R54). -/

namespace Sys2Proof.Machine

/-- The first k bytes of a message, written in order, read back. -/
theorem regionBytes_writeBytes_take {m : List Host.Cell} {a : Addr} {l : List Byte} {k : Nat} (hk : k ≤ l.length)
    (h : k = 0 ∨ a.toNat + k ≤ 2 ^ 64) : regionBytes (writeBytes m a k (messageByte l)) a k = l.take k := by
  have hfirst : ∀ i < k, messageByte l i = messageByte (l.take k) i := fun i hi => by
    rw [messageByte, messageByte, List.getElem?_take_of_lt hi]
  rw [writeBytes_congr hfirst]
  exact regionBytes_writeBytes_message (List.length_take_of_le hk) h

/-- Message byte k cannot be read, or its read is granted and its write, at address x of OUT, is not. -/
abbrev TaginRefused (s : State) (a : Nat) (adAddr : Addr) (c : Nat) (ctAddr outAddr : Addr) (k : Nat) (x : Addr) : Prop :=
  messageSource a adAddr c ctAddr k = some x ∧ rdOk s x = false ∨
    (∀ y, messageSource a adAddr c ctAddr k = some y → rdOk s y = true) ∧ x = addrAdd outAddr k ∧ wrOk s x = false

theorem taginStep_stops {s : State} {a c k : Nat} {adAddr ctAddr outAddr x : Addr}
    (h : TaginRefused s a adAddr c ctAddr outAddr k x) (rest : List Act) :
    ∃ u, performAll (taginStep a adAddr c ctAddr outAddr k ++ rest) s = .error (busErrorAt x u) ∧ u.mem = s.mem := by
  rcases h with ⟨hsrc, hrd⟩ | ⟨hsrc, rfl, hwr⟩
  · rw [taginStep, emit_of_source hsrc, List.append_assoc, List.append_assoc]
    exact performAll_stops (l := [.reg (.setEncK (BitVec.ofNat 64 k))]) (b := .rd x) (allActs_cons trivial allActs_nil)
      ⟨rfl, hrd⟩ _
  · rw [taginStep, List.append_assoc]
    have hreads : AllActs (GrantedRead s) ([.reg (.setEncK (BitVec.ofNat 64 k))] ++ (emit k a adAddr c ctAddr).1) :=
      allActs_append (allActs_cons trivial allActs_nil) (emit_grantedReads hsrc)
    exact performAll_stops (b := .wr (addrAdd outAddr k) _) hreads ⟨rfl, hwr⟩ _

/-- TAGIN's elements up to message byte k, whose read or write is not granted: OUT holds the first k bytes of the message. -/
theorem taginActs_stops {s : State} {k : Nat} {x : Addr} (hk : k < messageLen (adLen s) (lenOf s .inp))
    (hr : ∀ k' < k, ∀ y, taginSource s k' = some y → rdOk s y = true ∧ ordinary s y = true)
    (hw : Writable s (addrOf s .out) k) (hb : s.blockStale = [])
    (hsa : ∀ i < adLen s, ∀ j < messageLen (adLen s) (lenOf s .inp),
      (addrAdd (addrOf s .ad) i).toNat ≠ (addrAdd (addrOf s .out) j).toNat)
    (hsi : ∀ i < lenOf s .inp, ∀ j < messageLen (adLen s) (lenOf s .inp),
      (addrAdd (addrOf s .inp) i).toNat ≠ (addrAdd (addrOf s .out) j).toNat)
    (hfail : TaginRefused s (adLen s) (addrOf s .ad) (lenOf s .inp) (addrOf s .inp) (addrOf s .out) k x) :
    ∃ u, performAll (taginActs s) s = .error (busErrorAt x u) ∧
      u.mem = writeBytes s.mem (addrOf s .out) k (messageByte (tagInput (adBytes s) (textBytes .tagin s))) := by
  obtain ⟨rest, hsplit⟩ := flatMap_range_split
    (f := taginStep (adLen s) (addrOf s .ad) (lenOf s .inp) (addrOf s .inp) (addrOf s .out)) hk
  obtain ⟨d, e, v, hfirst⟩ := taginSteps_prefix
    (s := { s with msgLen := BitVec.ofNat 64 (messageLen (adLen s) (lenOf s .inp)) }) (Nat.le_of_lt hk) hr hw hb hsa hsi
  obtain ⟨u, hu, hmem⟩ := taginStep_stops (s := { s with
    msgLen := BitVec.ofNat 64 (messageLen (adLen s) (lenOf s .inp))
    mem := writeBytes s.mem (addrOf s .out) k (messageByte (tagInput (adBytes s) (textBytes .tagin s)))
    undo := v
    encK := e
    dataLatch := d }) hfail rest
  have hloop := (congrArg (performAll · { s with msgLen := BitVec.ofNat 64 (messageLen (adLen s) (lenOf s .inp)) }) hsplit).trans
    ((performAll_append_ok hfirst).trans hu)
  exact ⟨u, performAll_append_error hloop, hmem⟩

end Sys2Proof.Machine
end

section
/-! DEC and DECC up to a bus error (43_decrypt.md R135): the reads before the choice on ok, and the writes after it. -/

namespace Sys2Proof.Machine

/-! ## The reads before the choice -/

theorem rd_mem_readNonce (a : Addr) {k : Nat} (hk : k < 12) : Act.rd (addrAdd a k) ∈ readNonce a :=
  List.mem_flatMap.mpr ⟨k, List.mem_range.mpr hk, List.mem_cons_self ..⟩

theorem rd_mem_readTag (a : Addr) {k : Nat} (hk : k < 16) : Act.rd (addrAdd a k) ∈ readTag a :=
  List.mem_flatMap.mpr ⟨k, List.mem_range.mpr hk, List.mem_cons_self ..⟩

/-- MacOver reads the source of every byte of its message. -/
theorem rd_mem_macOver {a c k : Nat} {adAddr ctAddr x : Addr} (h : messageSource a adAddr c ctAddr k = some x) :
    Act.rd x ∈ macOver a adAddr c ctAddr := by
  have hround : Act.rd x ∈ macStep a adAddr c ctAddr k := by
    rw [macStep, emit_of_source h]
    simp
  have hloop := List.mem_flatMap.mpr ⟨k, List.mem_range.mpr (messageSource_lt h), hround⟩
  exact List.mem_append_left _ (List.mem_append_right _ hloop)

section Open

variable {i : Instr} {s : State} (hi : i = .dec ∨ i = .decc)

include hi

/-- What holds of every byte DEC and DECC read, region by region: the supplied tag is in a region of its own, or ends IN
(43_decrypt.md R127, R128). -/
theorem forall_open_reads {R : Addr → Prop} : (∀ r ∈ readsOf i s, ∀ k < r.2, R (addrAdd r.1 k)) ↔
    (∀ k < 12, R (addrAdd (addrOf s .nonce) k)) ∧ (∀ k < adLen s, R (addrAdd (addrOf s .ad) k)) ∧
      (∀ k < textLen i s, R (addrAdd (addrOf s .inp) k)) ∧ ∀ k < 16, R (addrAdd (suppliedTagAddr i s) k) := by
  rcases hi with rfl | rfl
  · simp only [readsOf, List.forall_mem_cons, List.not_mem_nil, false_implies, implies_true, and_true, suppliedTagAddr]
  · simp only [readsOf, List.forall_mem_cons, List.not_mem_nil, false_implies, implies_true, and_true, suppliedTagAddr,
      addrAdd_addrAdd]
    refine and_congr_right fun _ => and_congr_right fun _ => ?_
    refine ⟨fun h => ⟨fun k hk => h k (by omega), fun k hk => h _ (by omega)⟩, fun ⟨htext, htag⟩ k hk => ?_⟩
    by_cases hlt : k < textLen .decc s
    · exact htext k hlt
    · have := htag (k - textLen .decc s) (by omega)
      rwa [Nat.add_sub_cancel' (Nat.le_of_not_lt hlt)] at this

/-- Every byte DEC and DECC read is read before the choice on ok. -/
theorem rd_mem_openActs : ∀ r ∈ readsOf i s, ∀ k < r.2,
    Act.rd (addrAdd r.1 k) ∈ openActs s (textLen i s) (suppliedTagAddr i s) := by
  refine (forall_open_reads (R := fun x => Act.rd x ∈ openActs s (textLen i s) (suppliedTagAddr i s)) hi).mpr ?_
  simp only [openActs, List.mem_append]
  refine ⟨fun k hk => ?_, fun k hk => ?_, fun k hk => ?_, fun k hk => ?_⟩
  · simp only [rd_mem_readNonce _ hk, true_or, or_true]
  · simp only [rd_mem_macOver (messageSource_ad hk), true_or, or_true]
  · simp only [rd_mem_macOver (messageSource_ct hk), true_or, or_true]
  · simp only [rd_mem_readTag _ hk, true_or, or_true]

/-- DEC and DECC go on with one of two ends once they have opened the message (43_decrypt.md R127, R128). -/
theorem bodies_open (s : State) : bodies i s =
    [(openActs s (textLen i s) (suppliedTagAddr i s) ++ acceptActs i s, .ok),
      (openActs s (textLen i s) (suppliedTagAddr i s) ++ rejectActs i s, .tagMismatch)] := by
  rcases hi with rfl | rfl <;> rfl

theorem open_ne_loadkey : i ≠ .loadkey := by rcases hi with rfl | rfl <;> decide

theorem open_ne_release : i ≠ .release := by rcases hi with rfl | rfl <;> decide

theorem suppliedTagAddr_begun (j : Instr) : suppliedTagAddr i (begun j s) = suppliedTagAddr i s := by
  rcases hi with rfl | rfl <;> rfl

end Open

/-- Nothing is stored before the choice on ok (43_decrypt.md R131). -/
theorem wr_not_mem_openActs (s : State) (n : Nat) (ta a : Addr) (v : Val) : Act.wr a v ∉ openActs s n ta := by
  have hA : Admits (fun b => ∀ a v, b ≠ .wr a v) (fun _ => True) (fun _ => False) :=
    { reg := fun _ _ _ _ _ h => nomatch h
      rd := fun _ _ _ _ h => nomatch h
      wr := fun _ _ hw => hw.elim }
  have hall := hA.openActs (s := s) (n := n) (ta := ta) (fun _ _ h => nomatch h) (fun _ _ => trivial) (fun _ _ => trivial)
    (fun _ _ => trivial) (fun _ _ => trivial)
  exact fun h => hall _ h a v rfl

/-- A byte among those read before the choice that cannot be read: some read fails there, with memory as it was. -/
theorem openActs_stops {i : Instr} {s : State} (hi : i = .dec ∨ i = .decc) {r : Addr × Nat} (hr : r ∈ readsOf i s) {k : Nat}
    (hk : k < r.2) (hfail : rdOk s (addrAdd r.1 k) = false) :
    ∃ a u, performAll (openActs s (textLen i s) (suppliedTagAddr i s)) s = .error (busErrorAt a u) ∧ u.mem = s.mem ∧
      rdOk s a = false := by
  have hstore := wr_not_mem_openActs s (textLen i s) (suppliedTagAddr i s)
  have hmem := performAll_mem_eq hstore s
  rcases performAll_outcome (openActs s (textLen i s) (suppliedTagAddr i s)) s with ⟨hnone, -⟩ | ⟨a, u, ha, hu, -⟩
  · have hgranted := (failAddr_eq_none.mp hnone).1 _ (rd_mem_openActs hi r hr k hk)
    rw [hfail] at hgranted; cases hgranted
  · rw [hu, outcomeState_error, busErrorAt_mem] at hmem
    rcases failAddr_eq_some ha with ⟨-, hrd⟩ | ⟨v, hwr, -⟩
    · exact ⟨a, u, hu, hmem, hrd⟩
    · exact absurd hwr (hstore a v)

/-! ## The writes after the choice -/

/-- `decrypt_opens` with the reads alone granted, and what the writes after the choice start from. -/
theorem decrypt_verdict {i : Instr} {s : State} (hi : i = .dec ∨ i = .decc) (hb : busy s = false) (hv : validate i s = none)
    (hg : ∀ r ∈ readsOf i s, Readable s r.1 r.2) (hh : HandedOver s) :
    ∃ t, performAll (openActs (begun i s) (textLen i s) (suppliedTagAddr i s)) (begun i s) = .ok t ∧
      exec i s = .next (verdict i t) ∧ t.mem = s.mem ∧ t.key = s.key ∧ t.nl = nonceOf s ∧ t.blockStale = [] ∧
      t.okBit = decide (computedTag i s = suppliedTag i s) := by
  obtain ⟨hn, ha, hr, ht⟩ := (forall_open_reads (R := fun x => rdOk s x = true ∧ ordinary s x = true) hi).mp hg
  obtain ⟨t, hopen, hmem, hkey, hnl, hstale, hok⟩ := openActs_spec (s := begun i s) hn hr ha ht (begun_stale hh)
  refine ⟨t, hopen, exec_decrypt hi hb hv ?_ hopen, hmem, hkey, hnl, hstale, hok⟩
  rcases hi with rfl | rfl <;> rfl

/-- After the choice, OUT byte j is the first that cannot be written: the first j bytes are plaintext if ok is set, and zeros if
not. -/
theorem verdict_stops {i : Instr} {s : State} {j : Nat} (hj : j < textLen i s) (hr : Readable s (addrOf s .inp) (textLen i s))
    (hw : Writable s (addrOf s .out) j) (hb : s.blockStale = []) (hsep : ReadsFirst (addrOf s .inp) (addrOf s .out) (textLen i s))
    (hfail : wrOk s (addrAdd (addrOf s .out) j) = false) :
    ∃ u, performAll (if s.okBit then acceptActs i s else rejectActs i s) s = .error (busErrorAt (addrAdd (addrOf s .out) j) u) ∧
      u.mem = writeBytes s.mem (addrOf s .out) j (if s.okBit then xorByteAt s (addrOf s .inp) else fun _ => 0) := by
  cases s.okBit with
  | true =>
    have hrd := (hr j hj).1
    obtain ⟨u, hu, hmem⟩ := xorPass_stops hj (fun k hk => hr k (by omega)) hw hb (fun k hk l hl => hsep k (by omega) l hl)
      (.inr ⟨hrd, hfail⟩)
    rw [hrd] at hu
    exact ⟨u, hu, hmem⟩
  | false =>
    obtain ⟨rest, v, hstop⟩ := zeroFill_stop hj hw hb
    exact ⟨_, hstop.trans (performAll_wr_error hfail), rfl⟩

/-- The bytes XorPass writes depend on memory, KEY and NL alone (41_encrypt.md R100). -/
theorem xorByteAt_congr {s t : State} (hmem : t.mem = s.mem) (hkey : t.key = s.key) (hnl : t.nl = s.nl) (src : Addr) :
    xorByteAt t src = xorByteAt s src := by
  funext k
  rw [xorByteAt, xorByteAt, hmem, hkey, hnl]

theorem verdict_of_error {i : Instr} {s u : State}
    (h : performAll (if s.okBit then acceptActs i s else rejectActs i s) s = .error u) : verdict i s = conclude .busError u := by
  unfold verdict
  cases hok : s.okBit <;> rw [hok] at h <;> exact runActs_error h

theorem regionBytes_zeros {m : List Host.Cell} {a : Addr} {n : Nat} (h : n = 0 ∨ a.toNat + n ≤ 2 ^ 64) :
    regionBytes (writeBytes m a n fun _ => 0) a n = List.replicate n 0 := by
  refine List.eq_replicate_iff.mpr ⟨regionBytes_length .., fun b hb => ?_⟩
  obtain ⟨k, hk, rfl⟩ := List.mem_map.mp hb
  have hlt := List.mem_range.mp hk
  exact memRead_writeBytes_at _ (by omega) hlt

/-- What validation says of the text of DEC and DECC (40_context.md R93, R94). -/
theorem openFacts {i : Instr} {s : State} (hi : i = .dec ∨ i = .decc) (hv : validate i s = none) :
    CipherFacts i s (textLen i s) := by
  rcases hi with rfl | rfl
  · exact decFacts hv
  · exact deccFacts hv

/-- DEC or DECC whose OUT byte j is the first that cannot be written (43_decrypt.md R135). -/
theorem decrypt_stoppedAt_write {i : Instr} {s : State} {j : Nat} (hi : i = .dec ∨ i = .decc) (hb : busy s = false)
    (hv : validate i s = none) (hg : ∀ r ∈ readsOf i s, Readable s r.1 r.2) (hh : HandedOver s) (hj : j < textLen i s)
    (hw : Writable s (addrOf s .out) j) (hfail : wrOk s (addrAdd (addrOf s .out) j) = false) :
    ∃ t, exec i s = .next t ∧ StoppedAt i s (addrAdd (addrOf s .out) j)
      (writeBytes s.mem (addrOf s .out) j (if suppliedTag i s = computedTag i s then
        xorByteAt { s with nl := nonceOf s } (addrOf s .inp) else fun _ => 0)) t := by
  obtain ⟨t, hopen, hexec, hmem, hkey, hnl, hstale, hok⟩ := decrypt_verdict hi hb hv hg hh
  have hc := performAll_control_ok hopen
  have haddr : ∀ b, addrOf t b = addrOf s b := addrOf_congr hc.desc
  have hlen : textLen i t = textLen i s := textLen_congr hc.desc i
  have hlen' : textLen i (begun i s) = textLen i s := textLen_congr rfl i
  have hinp := ((forall_open_reads (R := fun x => rdOk s x = true ∧ ordinary s x = true) hi).mp hg).2.2.1
  have hstop := verdict_stops (i := i) (s := t) (j := j)
  simp only [haddr, hlen] at hstop
  obtain ⟨u, hu, humem⟩ := hstop hj (hc.readable hinp) (hc.writable hw) hstale (openFacts hi hv).out_inp
    ((hc.wrOk _).trans hfail)
  rw [hmem, xorByteAt_congr (s := { s with nl := nonceOf s }) hmem hkey hnl, hok] at humem
  simp only [decide_eq_true_eq, eq_comm (a := computedTag i s)] at humem
  refine ⟨_, hexec.trans (congrArg _ (verdict_of_error hu)), humem ▸ ?_⟩
  have hbody : (openActs (begun i s) (textLen i s) (suppliedTagAddr i s) ++
      (if t.okBit then acceptActs i t else rejectActs i t), if t.okBit then ErrCode.ok else .tagMismatch) ∈
      bodies i (begun i s) := by
    rw [bodies_open hi, acceptActs_congr hc.desc, rejectActs_congr hc.desc, suppliedTagAddr_begun hi, hlen']
    cases t.okBit <;> simp
  exact stoppedAt_conclude hv hbody ((performAll_append_ok hopen).trans hu) (open_ne_loadkey hi) (open_ne_release hi)

/-- DEC or DECC with a byte among those it reads before the choice that cannot be read (43_decrypt.md R135). -/
theorem decrypt_stoppedAt_read {i : Instr} {s : State} (hi : i = .dec ∨ i = .decc) (hb : busy s = false)
    (hv : validate i s = none) {r : Addr × Nat} (hr : r ∈ readsOf i s) {k : Nat} (hk : k < r.2)
    (hfail : rdOk s (addrAdd r.1 k) = false) :
    ∃ t a, exec i s = .next t ∧ rdOk s a = false ∧ StoppedAt i s a s.mem t := by
  have hreads : readsOf i (begun i s) = readsOf i s := by rcases hi with rfl | rfl <;> rfl
  obtain ⟨a, u, hu, hmem, ha⟩ := openActs_stops (s := begun i s) hi (hreads ▸ hr) hk hfail
  obtain ⟨t, ht, h⟩ := exec_stoppedAt (u := u) hb hv (fun p hp => by
      rw [bodies_open hi, List.mem_cons, List.mem_singleton] at hp
      rcases hp with rfl | rfl <;> exact performAll_append_error hu)
    (open_ne_loadkey hi) (open_ne_release hi)
  exact ⟨t, a, ht, ha, hmem ▸ h⟩

end Sys2Proof.Machine
end

section
/-! The statements about data memory and bus errors (20_memory.md), settled from the lemmas above. -/

namespace Sys2Proof.Settled

open Sys2Proof.Machine

/-- Settles O22: each case is the rule of that access; a write leaves nothing stale of its byte. -/
theorem byteAccesses : Obligations.ByteAccesses := by
  intro s a v ho
  refine ⟨fun hw => ⟨_, dmaWrite_ok hw ho, fun x => ?_, fun hr => ?_⟩, fun hr hb => dmaRead_ok hr ho hb, dmaWrite_error,
    dmaRead_error, busErrorAt_mem a s, busErrorAt_errAddr a s⟩
  · by_cases hx : x = a.toNat
    · rw [if_pos hx, hx, memRead_write_same]
    · rw [if_neg hx, memRead_write_other _ _ hx]
  · refine ⟨_, dmaRead_fresh ?_ ?_ ?_, memRead_write_same .., rfl⟩
    · exact hr
    · exact ho
    · exact staleAt_memErase _ a

/-- Settles O23: acceptance drops what a coherent platform or the write-back leaves of the store, and the finish or the
invalidation what the host could still find. -/
theorem orderingPoints : Obligations.OrderingPoints := by
  refine ⟨fun s a b w hb hc ho hr => ?_, fun i s t a hb hc ho h => hostLoad_after_exec hb hc ho h,
    fun s a b w r hb ho hr hcov => ?_, fun i s t a r hb ho hcov h => hostLoad_after_invalidate hb ho hcov h,
    fun s a e w r hb ho hr hcov => ⟨?_, ?_⟩⟩
  · obtain ⟨t, ht, hval⟩ := dmaRead_acceptWord (s := hostStore a b s) w (by simpa using hr) (by simpa using ho)
      (.inl (by simpa using hc))
    exact ⟨t, ht, hval.trans (memRead_hostStore b ho)⟩
  · have hidle : busy (hostStore a b s) = false := by simpa using hb
    obtain ⟨t, ht, hval⟩ := dmaRead_acceptWord (s := hostWriteBack r (hostStore a b s)) w
      ((rdOk_hostStore a b s a).trans hr) ((ordinary_hostStore a b s a).trans ho) (.inr (staleAt_hostWriteBack hidle hcov))
    exact ⟨t, ht, hval.trans (memRead_hostStore b ho)⟩
  · exact hostWriteBack_blockStale_busy hb r
  · refine dmaRead_acceptWord w hr ho (.inr ?_)
    rw [conclude_blockStale]
    split
    · rfl
    · exact staleAt_awayFrom _ (staleAt_outside _ hcov)

/-- Settles O24: a draw gives the current byte or a kept one, and the store keeps the byte it replaces. -/
theorem racesGiveOldOrNew : Obligations.RacesGiveOldOrNew := by
  intro s a hb ho hc
  refine ⟨fun b hr => ?_, ?_⟩
  · obtain ⟨t, ht, hval⟩ := dmaRead_old_or_new (s := hostStore a b s) (by simpa using hr) (by simpa using ho)
    rw [memRead_hostStore b ho, hostStore_blockStale_busy b ho hb, mem_staleAt, List.mem_cons, Prod.mk.injEq] at hval
    exact ⟨t, ht, hval.imp_right (Or.imp_left And.right)⟩
  · rw [deliver, hostLoad_memData ho, hostAlts_coherent hc, ← mem_staleAt]
    exact pick_eq_or_mem _ _ _

/-- Settles O30: with the earlier checks passed Validate comes to the last two, and a body ends with neither of their codes. -/
theorem rangeAndOverlap : Obligations.RangeAndOverlap := by
  intro i s hb hcontext hkey hmissing hmismatch hnonce htag hoverflow
  obtain ⟨t, ht, hcode⟩ := exec_errCode_iff_validate i hb
  have hrange := hcode .addressRange (by decide) (by decide) (by decide)
  have hoverlap := hcode .bufferOverlap (by decide) (by decide) (by decide)
  rw [validate_eq_addressRange] at hrange
  rw [validate_eq_bufferOverlap] at hoverlap
  simp only [hcontext, hkey, hmissing, hmismatch, hnonce, htag, hoverflow, true_and, failsRange_iff] at hrange
  simp only [hcontext, hkey, hmissing, hmismatch, hnonce, htag, hoverflow, true_and, failsRange_eq_false_iff, failsOverlap_iff,
    overlaps_iff, inPlacePair_iff] at hoverlap
  exact ⟨t, ht, hrange, hoverlap⟩

/-- Settles O34: `loadkeyActs_stops` from the accepted state, and the finish that follows the bus error. -/
theorem loadkeyBusError : Obligations.LoadkeyBusError := by
  intro s j hb hv hj hr hfail
  obtain ⟨t, ht, haddr, hmem, hkey, hctx⟩ := loadkeyActs_stops (s := begun .loadkey s) (running_begun ..) hj hr hfail
  have hmsg := loadkey_msgLen (s := s) (List.mem_singleton.mpr rfl)
  have hcontrol := performAll_control_error ht
  rw [ht] at hmsg
  exact ⟨_, exec_stops hb (.inr hv) rfl ht, finished_conclude .busError t, hkey, hctx, haddr, hmem, hmsg,
    lastCmd_conclude .busError hcontrol, sameSetup_conclude .busError hcontrol⟩

/-- Settles O40: the elements of ENC and ENCC stop in the nonce reads, in XorPass or in MacOver, and memory holds what XorPass has
written by then. -/
theorem encryptBusErrorBeforeTag : Obligations.EncryptBusErrorBeforeTag := by
  intro i s hi hb hv
  have hf := sealFacts hi hv
  refine ⟨fun j hj hr hfail => ?_, fun hh hn => ⟨fun j hj hr hw hfail => ?_, fun k x hr hw hbefore hk hfail => ?_⟩⟩
  · obtain ⟨u, hu, hmem⟩ := sealActs_stops_at_nonce (s := begun i s) (n := textLen i s) hj hr hfail
    obtain ⟨t, ht, h⟩ := seal_stoppedAt hi hb hv (performAll_append_error hu)
    exact ⟨t, ht, h.finished, h.errAddr, h.mem.trans hmem, h.key, h.ctx, h.setup⟩
  · obtain ⟨u, hu, hmem⟩ := sealActs_stops_at_text (s := begun i s) hj hn hr hw (begun_stale hh) hf.out_inp hfail
    obtain ⟨t, ht, h⟩ := seal_stoppedAt hi hb hv (performAll_append_error hu)
    have hle : j = 0 ∨ (addrOf s .out).toNat + j ≤ 2 ^ 64 := by have := hf.out_le; omega
    refine ⟨t, ht, h.finished, h.errAddr, ?_, fun x hx => ?_, h.key, h.ctx, h.setup⟩
    · rw [h.mem, hmem]
      exact regionBytes_xorText_take (s := { s with nl := nonceOf s }) (Nat.le_of_lt hj) hle
    · rw [h.mem, hmem]
      exact memRead_writeBytes_other _ hx
  · obtain ⟨u, hu, hmem⟩ := sealActs_stops_at_message (s := begun i s) hn hr hw (begun_stale hh) hf.out_inp hbefore hk hfail
    obtain ⟨t, ht, h⟩ := seal_stoppedAt hi hb hv (performAll_append_error hu)
    refine ⟨t, ht, h.finished, h.errAddr, ?_, fun x hx => ?_, h.key, h.ctx, h.setup⟩
    · rw [h.mem, hmem]
      exact regionBytes_xorText (s := { s with nl := nonceOf s }) hf.out_le
    · rw [h.mem, hmem]
      exact memRead_writeBytes_other _ hx

/-- Settles O41: the elements stop in the tag write, after the ciphertext; the tag's bytes are apart from OUT's. -/
theorem encryptBusErrorInTag : Obligations.EncryptBusErrorInTag := by
  intro i s j hi hb hv hh hreads hw hj ht hfail
  have hf := sealFacts hi hv
  obtain ⟨hn, hr, ha, ho⟩ := seal_reads hi hreads
  obtain ⟨u, hu, hmem⟩ := sealActs_stops_at_tag (s := begun i s) hj hn hr ha ho hw ht (begun_stale hh) hf.out_inp hf.out_le
    hf.out_ad hfail
  obtain ⟨t, ht, h⟩ := seal_stoppedAt hi hb hv hu
  refine ⟨t, ht, h.finished, h.errAddr, ?_, fun k hk => ?_, fun x hout htag => ?_, h.key, h.ctx, h.setup⟩
  · rw [h.mem, hmem, regionBytes_writeBytes_other fun k hk l hl => hf.out_tag k hk l (by omega)]
    exact regionBytes_xorText (s := { s with nl := nonceOf s }) hf.out_le
  · rw [h.mem, hmem]
    exact memRead_writeBytes_at _ (by have := hf.tag_le; omega) hk
  · rw [h.mem, hmem, memRead_writeBytes_other _ htag]
    exact memRead_writeBytes_other _ hout

/-- Settles O46: the loop over the message runs to its end or stops at byte k; OUT is apart from AD and IN, so each byte read is the
one memory held at the start. -/
theorem taginResult : Obligations.TaginResult := by
  intro s hb hv hh
  obtain ⟨hle, hsa, hsi⟩ := taginFacts hv
  have hlength : (tagInput (adBytes s) (textBytes .tagin s)).length = messageLen (adLen s) (lenOf s .inp) := by
    rw [tagInput_length_eq, adBytes, textBytes, regionBytes_length, regionBytes_length, textLen]
  refine ⟨fun hg => ?_, fun k f hk hr hw hfail => ?_⟩
  · obtain ⟨u, hu, hmem⟩ := taginActs_spec (s := begun .tagin s) (hg.1 (addrOf s .ad, adLen s) (by simp [readsOf]))
      (hg.1 (addrOf s .inp, lenOf s .inp) (by simp [readsOf, textLen]))
      (hg.2 (addrOf s .out, messageLen (adLen s) (lenOf s .inp)) (by simp [writesOf, textLen])) (begun_stale hh) hsa hsi
    obtain ⟨hframe, hkey, hctx, hmsg, haddr, hlast, hsetup⟩ :=
      completed_conclude .ok hv (List.mem_cons_self ..) hu (by decide) (by decide)
    refine ⟨_, exec_completes hb (.inr hv) rfl hu, finished_conclude .ok u, ?_, hframe, hkey, hctx, hmsg, haddr, hlast, hsetup⟩
    rw [conclude_mem, hmem]
    exact regionBytes_writeBytes_message hlength (.inr hle)
  · obtain ⟨u, hu, hmem⟩ := taginActs_stops (s := begun .tagin s) hk hr hw (begun_stale hh) hsa hsi hfail
    obtain ⟨t, ht, h⟩ := exec_stoppedAt (i := .tagin) hb hv (fun p hp => by rw [List.mem_singleton.mp hp]; exact hu)
      (by decide) (by decide)
    have hle' : (addrOf s .out).toNat + k ≤ 2 ^ 64 := by omega
    refine ⟨t, ht, h.finished, h.errAddr, ?_, fun x hx => ?_, h.key, h.ctx, h.msgLen, h.lastCmd, h.setup⟩
    · rw [h.mem, hmem]
      exact regionBytes_writeBytes_take (hlength ▸ Nat.le_of_lt hk) (.inr hle')
    · rw [h.mem, hmem]
      exact memRead_writeBytes_other _ hx

/-- Settles O51: a failing read stops the command before the choice, which no store precedes; a failing write stops it in XorPass or
in the zero-fill, as the tags compare. -/
theorem decryptBusError : Obligations.DecryptBusError := by
  intro i s hi hb hv
  refine ⟨fun ⟨r, hr, k, hk, hfail⟩ => ?_, fun j hh hg hj hw hfail => ?_⟩
  · obtain ⟨t, a, ht, ha, h⟩ := decrypt_stoppedAt_read hi hb hv hr hk hfail
    exact ⟨t, ht, h.finished, h.mem, h.errAddr ▸ ha, h.key, h.ctx, h.setup⟩
  · obtain ⟨t, ht, h⟩ := decrypt_stoppedAt_write hi hb hv hg hh hj hw hfail
    have hle : j = 0 ∨ (addrOf s .out).toNat + j ≤ 2 ^ 64 := by have := (openFacts hi hv).out_le; omega
    refine ⟨t, ht, h.finished, h.errAddr, ?_, fun x hx => ?_, h.key, h.ctx, h.setup⟩
    · rw [h.mem]
      split
      · exact regionBytes_xorText_take (s := { s with nl := nonceOf s }) (Nat.le_of_lt hj) hle
      · exact regionBytes_zeros hle
    · rw [h.mem]
      exact memRead_writeBytes_other _ hx

end Sys2Proof.Settled
end

section
/-! Decode on every word, what an ILLEGAL word and SETBUF do, and the memory frame of every command (30_encoding.md R70 to R79). -/

namespace Sys2Proof.Machine

/-! ## Decode and encode (30_encoding.md R72) -/

theorem decode_eq_ok_iff {w : Word} {i : Instr} : decode w = .ok i ↔ w = encode i := by
  refine ⟨eq_encode_of_decode, ?_⟩
  rintro rfl
  exact decode_encode i

/-- RSVD is checked before OP: a word is refused for its reserved bits exactly when one of them is set. -/
theorem decode_eq_reservedBits_iff {w : Word} : decode w = .error .reservedBits ↔ w.extractLsb' 4 28 ≠ 0#28 := by
  unfold decode
  split
  · next hrsvd =>
    refine iff_of_false ?_ (not_not_intro hrsvd)
    split <;> exact nofun
  · next hrsvd => exact iff_of_true rfl hrsvd

/-- The two refusals are all there are, so a word with RSVD clear that is no command's is refused for its OP. -/
theorem decode_eq_unassignedOp {w : Word} (hrsvd : w.extractLsb' 4 28 = 0#28) (h : ∀ i, w ≠ encode i) :
    decode w = .error .unassignedOp := by
  cases hd : decode w with
  | ok i => exact absurd (decode_eq_ok_iff.mp hd) (h i)
  | error e =>
    cases e with
    | reservedBits => exact absurd hrsvd (decode_eq_reservedBits_iff.mp hd)
    | unassignedOp => rfl

/-- With RSVD clear, every OP from 1 to 7 decodes (30_encoding.md R71). -/
theorem decode_of_wellFormed {w : Word} (h : wellFormedWord w = true) : ∃ i, decode w = .ok i := by
  simp only [wellFormedWord, rsvdClear, opAssigned, Bool.and_eq_true, beq_iff_eq, decide_eq_true_eq] at h
  obtain ⟨hrsvd, hlow, hhigh⟩ := h
  rw [decode, if_pos hrsvd]
  generalize (w.extractLsb' 0 4).toNat = op at hlow hhigh
  interval_cases op <;> exact ⟨_, rfl⟩

theorem wellFormedWord_encode (i : Instr) : wellFormedWord (encode i) = true := by cases i <;> rfl

theorem wellFormedWord_iff {w : Word} : wellFormedWord w = true ↔ ∃ i, w = encode i := by
  constructor
  · intro h
    obtain ⟨i, hi⟩ := decode_of_wellFormed h
    exact ⟨i, decode_eq_ok_iff.mp hi⟩
  · rintro ⟨i, rfl⟩
    exact wellFormedWord_encode i

theorem decode_ne_ok_of_illFormed {w : Word} (h : wellFormedWord w = false) (i : Instr) : decode w ≠ .ok i := fun hi =>
  Bool.eq_false_iff.mp h (wellFormedWord_iff.mpr ⟨i, decode_eq_ok_iff.mp hi⟩)

/-! ## An ILLEGAL word (30_encoding.md R73) -/

theorem runWord_illegal {w : Word} {s : State} (hint : interrupted s.inputs = false) (hill : ∀ i, decode w ≠ .ok i) :
    runWord w s = runIllegal w s := by
  rw [runWord, if_neg (Bool.eq_false_iff.mp hint), decodeCommand_of_illegal hill]

/-- What an ILLEGAL word comes to on an idle block. -/
def refuseWord (w : Word) (s : State) : State := conclude .illegalCommand (accept w (concludeTrace .illegalCommand) s)

theorem runIllegal_idle {s : State} (hb : busy s = false) (w : Word) : runIllegal w s = .next (refuseWord w s) := by
  rw [runIllegal, if_neg (Bool.eq_false_iff.mp hb), refuseWord]

theorem refuseWord_finished (w : Word) (s : State) : FinishedWith .illegalCommand (refuseWord w s) := finished_conclude _ _

/-- Neither acceptance nor `Scrub(); finish` touches what hosts set up. -/
theorem refuseWord_setup (w : Word) (s : State) : SameSetup s (refuseWord w s) := by constructor <;> rfl

/-! ## SETBUF (30_encoding.md R79) -/

/-- SETBUF's lines are the four registers of its descriptor, in the order of the map (10_state.md R16). -/
theorem progSetbuf_eq (b : Buf) (a l : Addr) : progSetbuf b a l =
    [.w (descOffset b .addrLo) (loHalf a), .w (descOffset b .addrHi) (hiHalf a),
      .w (descOffset b .lenLo) (loHalf l), .w (descOffset b .lenHi) (hiHalf l)] := by
  cases b <;> rfl

/-- What SETBUF's lines do, whenever each of them reaches the block. -/
theorem deliver_setbuf (b : Buf) (a l : Addr) (moments : List Nat) (s : State) :
    ((schedule (progSetbuf b a l) moments).map fun p => p.act).foldl (fun t act => deliver act t) s =
      portWrite (descOffset b .lenHi) 4 (hiHalf l) (portWrite (descOffset b .lenLo) 4 (loHalf l)
        (portWrite (descOffset b .addrHi) 4 (hiHalf a) (portWrite (descOffset b .addrLo) 4 (loHalf a) s))) := by
  rw [schedule_acts, progSetbuf_eq]
  rfl

theorem portWrite_desc_refused (b : Buf) (w : DescWord) (v : Word) {s : State} (hb : busy s = true) :
    portWrite (descOffset b w) 4 v s = ignoreWrite s := by
  rw [portWrite_of_accessed (accessed_desc b w)]
  exact writeReg_refused hb (.inr (.inr ⟨b, w, rfl⟩)) v

theorem setDesc_setDesc (d : DescBank) (b : Buf) (x y : Desc) : setDesc (setDesc d b x) b y = setDesc d b y := by
  cases b <;> rfl

/-- A second write of the same descriptor goes on from what the first has left. -/
theorem portWrite_desc_again (b : Buf) (d : Desc) (w : DescWord) (v : Word) {s : State} (hb : busy s = false) :
    portWrite (descOffset b w) 4 v { s with desc := setDesc s.desc b d } =
      { s with desc := setDesc s.desc b (writeDesc d w v) } := by
  rw [portWrite_desc b w v (s := { s with desc := setDesc s.desc b d }) hb, descOf_setDesc, if_pos rfl, setDesc_setDesc]

/-- The four registers of a descriptor are all there is of it (10_state.md R27). -/
theorem writeDesc_all (d : Desc) (a l : Addr) :
    writeDesc (writeDesc (writeDesc (writeDesc d .addrLo (loHalf a)) .addrHi (hiHalf a)) .lenLo (loHalf l)) .lenHi (hiHalf l) =
      ⟨a, l⟩ := by
  simp only [writeDesc, withHi_withLo]

/-! ## The memory frame (30_encoding.md R76) -/

/-- A refused command and one whose Validate fails store nothing; a body stores in the command's output regions alone. -/
theorem exec_mem_other {i : Instr} {s t : State} (h : exec i s = .next t) {x : Nat} (hx : OutsideWrites i s x) :
    memRead t.mem x = memRead s.mem x := by
  cases hb : busy s with
  | true =>
    rw [exec_busy hb] at h
    cases h
    rfl
  | false =>
    rcases exec_cases hb with ⟨e, -, -, hexec⟩ | ⟨-, p, hp, ⟨u, hu, hexec⟩ | ⟨u, hu, hexec⟩⟩
    all_goals
      rw [hexec] at h
      cases h
    · rfl
    · exact memory_conclude hp (by rw [hu]; rfl) x hx
    · exact memory_conclude hp (by rw [hu]; rfl) x hx

end Sys2Proof.Machine
end

section
/-! The statements about the encoding (30_encoding.md), settled from the lemmas above. -/

namespace Sys2Proof.Settled

open Sys2Proof.Machine

/-- Settles O2: decode and encode are inverse to each other, and RSVD tells the two refusals apart. -/
theorem decodeExactly : Obligations.DecodeExactly :=
  ⟨rfl, fun _ => ⟨fun _ => decode_eq_ok_iff, decode_eq_reservedBits_iff.mpr, decode_eq_unassignedOp, wellFormedWord_iff⟩⟩

/-- Settles O6: the block takes the word, which decodes to no command, and with nothing due meanwhile refuses it whole. -/
theorem illegalWordRefused : Obligations.IllegalWordRefused := by
  intro s ar act w rest hb hin hw hpoll hint hill
  refine ⟨refuseWord w { s with inputs := rest }, ?_, refuseWord_finished _ _, rfl, rfl, rfl, rfl, rfl, rfl, refuseWord_setup _ _⟩
  rw [step_takes_word hb hin hpoll hw, runWord_illegal hint (decode_ne_ok_of_illFormed hill)]
  exact runIllegal_idle (s := { s with inputs := rest }) hb w

/-- Settles O15: four writes of one descriptor make it whole, or are refused one by one. -/
theorem setbufSetsDescriptor : Obligations.SetbufSetsDescriptor := by
  intro s b a l moments
  rw [deliver_setbuf]
  cases hb : busy s with
  | true =>
    have hrefused : ∀ w v, portWrite (descOffset b w) 4 v (ignoreWrite s) = ignoreWrite s := fun w v =>
      portWrite_desc_refused b w v (s := ignoreWrite s) hb
    rw [portWrite_desc_refused b _ _ hb, hrefused, hrefused, hrefused]
    rfl
  | false =>
    rw [portWrite_desc b _ _ hb, portWrite_desc_again b _ _ _ hb, portWrite_desc_again b _ _ _ hb,
      portWrite_desc_again b _ _ _ hb, writeDesc_all]
    rfl

/-- Settles O56: `exec_mem_other`, which covers every code and a command refused while BUSY = 1. -/
theorem memoryFrame : Obligations.MemoryFrame := fun _ _ _ h _ hx => exec_mem_other h hx

/-- Settles O1: the seven words are those of `encode`; the others have an OP outside 1 to 7, or a bit of RSVD set. -/
theorem decodeSpecWords : Obligations.DecodeSpecWords := by
  refine ⟨decode_encode .loadkey, decode_encode .enc, decode_encode .dec, decode_encode .encc, decode_encode .decc,
    decode_encode .release, decode_encode .tagin, rfl, ?_, ?_, ?_⟩
  · decide
  · exact decode_eq_reservedBits_iff.mpr (by decide)
  · exact decode_eq_reservedBits_iff.mpr (by decide)

end Sys2Proof.Settled
end

section
/-! AD absent against AD present and empty (40_context.md R83): a command reads of the AD descriptor its address and adlen alone, and
the address only where adlen is not 0. -/

namespace Sys2Proof.Machine

/-- s with AD present at address a with length 0. -/
def withEmptyAd (a : Addr) (s : State) : State :=
  { s with present := s.present ||| 0b000100#6, desc := setDesc s.desc .ad ⟨a, 0⟩ }

/-! ## The operands -/

theorem isPresent_withEmptyAd (a : Addr) (s : State) {b : Buf} (hb : b ≠ .ad) : isPresent (withEmptyAd a s) b = isPresent s b := by
  cases b with
  | ad => exact absurd rfl hb
  | _ => simp [isPresent, withEmptyAd, bufIndex]

theorem descOf_withEmptyAd (a : Addr) (s : State) {b : Buf} (hb : b ≠ .ad) :
    descOf (withEmptyAd a s).desc b = descOf s.desc b := by
  rw [withEmptyAd, descOf_setDesc, if_neg hb]

theorem addrOf_withEmptyAd (a : Addr) (s : State) {b : Buf} (hb : b ≠ .ad) : addrOf (withEmptyAd a s) b = addrOf s b := by
  rw [addrOf, descOf_withEmptyAd a s hb, addrOf]

theorem lenOf_withEmptyAd (a : Addr) (s : State) {b : Buf} (hb : b ≠ .ad) : lenOf (withEmptyAd a s) b = lenOf s b := by
  rw [lenOf, descOf_withEmptyAd a s hb, lenOf]

theorem adLen_withEmptyAd (a : Addr) (s : State) : adLen (withEmptyAd a s) = 0 := by
  rw [adLen]
  exact ite_self 0

theorem adLen_of_absent {s : State} (h : isPresent s .ad = false) : adLen s = 0 := by
  rw [adLen, if_neg (Bool.eq_false_iff.mp h)]

theorem textLen_withEmptyAd (a : Addr) (s : State) (i : Instr) : textLen i (withEmptyAd a s) = textLen i s := by
  cases i with
  | loadkey => rfl
  | release => rfl
  | _ => simp only [textLen, lenOf_withEmptyAd a s (b := .inp) (by decide)]

/-! ## Validate -/

theorem overlaps_empty (x : Nat) (r : Range) : overlaps r ⟨x, 0⟩ = false := by simp [overlaps]

theorem inRange_empty (x : Nat) : inRange ⟨x, 0⟩ = true := rfl

section
variable {a : Addr} {s : State} (h : isPresent s .ad = false)
include h

/-- An empty region is in range at any address (20_memory.md R56). -/
theorem failsRange_withEmptyAd (i : Instr) : failsRange i (withEmptyAd a s) = failsRange i s := by
  cases i <;> simp [failsRange, usedRegions, regionOf, addrOf_withEmptyAd, textLen_withEmptyAd, adLen_withEmptyAd,
    adLen_of_absent h, inRange_empty]

/-- An empty region overlaps nothing, and AD is no output region (20_memory.md R57). -/
theorem failsOverlap_withEmptyAd (i : Instr) : failsOverlap i (withEmptyAd a s) = failsOverlap i s := by
  cases i <;> simp [failsOverlap, outputRegions, outputBufs, usedRegions, regionOf, inPlacePair, addrOf_withEmptyAd,
    textLen_withEmptyAd, adLen_withEmptyAd, adLen_of_absent h, overlaps_empty]

theorem validate_withEmptyAd (i : Instr) : validate i (withEmptyAd a s) = validate i s := by
  have hctx : (withEmptyAd a s).ctx = s.ctx := rfl
  cases i <;> simp [validate, checks, failsContext, failsKey, failsMissing, requiredBufs, failsMismatch, failsNonce, failsTag,
    failsOverflow, failsRange_withEmptyAd h, failsOverlap_withEmptyAd h, hctx, isPresent_withEmptyAd, lenOf_withEmptyAd,
    textLen_withEmptyAd, adLen_withEmptyAd, adLen_of_absent h]

end

/-! ## The elements -/

theorem performReg_withEmptyAd (a : Addr) (r : RegOp) (s : State) :
    performReg r (withEmptyAd a s) = withEmptyAd a (performReg r s) := by
  cases r with
  | macByte v => cases v <;> rfl
  | _ => simp only [performReg, withEmptyAd]

theorem perform_withEmptyAd (a : Addr) (x : Act) (s : State) :
    perform x (withEmptyAd a s) =
      (match perform x s with | .ok t => .ok (withEmptyAd a t) | .error t => .error (withEmptyAd a t)) := by
  have hbus : ∀ y, busErrorAt y (withEmptyAd a s) = withEmptyAd a (busErrorAt y s) := by
    intro y
    have hrun : running (withEmptyAd a s) = running s := rfl
    unfold busErrorAt
    rw [hrun]
    split <;> rfl
  cases x with
  | reg r => exact congrArg Except.ok (performReg_withEmptyAd a r s)
  | rd y =>
    have hok : rdOk (withEmptyAd a s) y = rdOk s y := rfl
    have hord : ordinary (withEmptyAd a s) y = ordinary s y := rfl
    simp only [perform, dmaRead, hbus, hok, hord]
    split
    · split <;> rfl
    · rfl
  | wr y v =>
    have hok : wrOk (withEmptyAd a s) y = wrOk s y := rfl
    have hord : ordinary (withEmptyAd a s) y = ordinary s y := rfl
    have hval : valOf (withEmptyAd a s) v = valOf s v := by cases v <;> rfl
    simp only [perform, dmaWrite, hbus, hok, hord, hval]
    split
    · split <;> rfl
    · rfl

theorem performAll_withEmptyAd (a : Addr) (l : List Act) (s : State) :
    performAll l (withEmptyAd a s) =
      (match performAll l s with | .ok t => .ok (withEmptyAd a t) | .error t => .error (withEmptyAd a t)) := by
  induction l generalizing s with
  | nil => rfl
  | cons x l ih =>
    simp only [performAll, perform_withEmptyAd]
    cases perform x s with
    | ok t => exact ih t
    | error t => rfl

theorem conclude_withEmptyAd (a : Addr) (e : ErrCode) (s : State) :
    conclude e (withEmptyAd a s) = withEmptyAd a (conclude e s) := rfl

theorem runActs_withEmptyAd {a : Addr} {k : State → State} (hk : ∀ s, k (withEmptyAd a s) = withEmptyAd a (k s)) (l : List Act)
    (s : State) : runActs l k (withEmptyAd a s) = withEmptyAd a (runActs l k s) := by
  simp only [runActs, performAll_withEmptyAd]
  cases performAll l s with
  | ok t => exact hk t
  | error t => rfl

theorem verdict_withEmptyAd (a : Addr) (i : Instr) (s : State) : verdict i (withEmptyAd a s) = withEmptyAd a (verdict i s) := by
  have hok : (withEmptyAd a s).okBit = s.okBit := rfl
  have haccept : acceptActs i (withEmptyAd a s) = acceptActs i s := by simp [acceptActs, addrOf_withEmptyAd, textLen_withEmptyAd]
  have hreject : rejectActs i (withEmptyAd a s) = rejectActs i s := by simp [rejectActs, addrOf_withEmptyAd, textLen_withEmptyAd]
  unfold verdict
  rw [hok, haccept, hreject]
  split
  · exact runActs_withEmptyAd (conclude_withEmptyAd a .ok) _ s
  · exact runActs_withEmptyAd (conclude_withEmptyAd a .tagMismatch) _ s

/-- With no AD byte in the message, no address of AD is used (42_tag_input.md R115). -/
theorem emit_no_ad (k : Nat) (x y : Addr) (c : Nat) (z : Addr) : emit k 0 x c z = emit k 0 y c z := by simp [emit]

theorem macOver_no_ad (x y : Addr) (c : Nat) (z : Addr) : macOver 0 x c z = macOver 0 y c z := by
  have hstep : macStep 0 x c z = macStep 0 y c z := funext fun k => by rw [macStep, macStep, emit_no_ad k x y]
  rw [macOver, macOver, hstep]

theorem taginStep_no_ad (x y : Addr) (c : Nat) (z o : Addr) : taginStep 0 x c z o = taginStep 0 y c z o :=
  funext fun k => by rw [taginStep, taginStep, emit_no_ad k x y]

/-! ## A whole command -/

section
variable {a : Addr} {s : State} (h : isPresent s .ad = false)
include h

theorem sealActs_withEmptyAd (n : Nat) : sealActs (withEmptyAd a s) n = sealActs s n := by
  simp [sealActs, adLen_withEmptyAd, adLen_of_absent h, addrOf_withEmptyAd,
    macOver_no_ad (addrOf (withEmptyAd a s) .ad) (addrOf s .ad)]

theorem openActs_withEmptyAd (n : Nat) (ta : Addr) : openActs (withEmptyAd a s) n ta = openActs s n ta := by
  simp [openActs, adLen_withEmptyAd, adLen_of_absent h, addrOf_withEmptyAd,
    macOver_no_ad (addrOf (withEmptyAd a s) .ad) (addrOf s .ad)]

theorem taginActs_withEmptyAd : taginActs (withEmptyAd a s) = taginActs s := by
  simp [taginActs, adLen_withEmptyAd, adLen_of_absent h, addrOf_withEmptyAd, textLen_withEmptyAd,
    taginStep_no_ad (addrOf (withEmptyAd a s) .ad) (addrOf s .ad)]

/-- A command whose elements are the same does the same, if what follows them does. -/
theorem validated_withEmptyAd (i : Instr) {acts : State → List Act} {k : State → State}
    (hacts : acts (withEmptyAd a s) = acts s) (hk : ∀ t, k (withEmptyAd a t) = withEmptyAd a (k t)) :
    validated i (fun t => runActs (acts t) k t) (withEmptyAd a s) =
      withEmptyAd a (validated i (fun t => runActs (acts t) k t) s) := by
  simp only [validated, validate_withEmptyAd h, hacts]
  cases validate i s with
  | none => exact runActs_withEmptyAd hk _ s
  | some e => rfl

theorem command_withEmptyAd (i : Instr) : command i (withEmptyAd a s) = withEmptyAd a (command i s) := by
  have hconclude := conclude_withEmptyAd a .ok
  have hseal := sealActs_withEmptyAd (a := a) h
  have hopen := openActs_withEmptyAd (a := a) h
  cases i with
  | release => exact runActs_withEmptyAd hconclude releaseActs s
  | loadkey => exact validated_withEmptyAd h .loadkey (by simp [loadkeyActs, addrOf_withEmptyAd]) hconclude
  | tagin => exact validated_withEmptyAd h .tagin (taginActs_withEmptyAd h) hconclude
  | enc =>
    exact validated_withEmptyAd h .enc (by simp [encActs_eq, hseal, textLen_withEmptyAd, addrOf_withEmptyAd]) hconclude
  | encc =>
    exact validated_withEmptyAd h .encc (by simp [enccActs_eq, hseal, textLen_withEmptyAd, addrOf_withEmptyAd]) hconclude
  | dec =>
    exact validated_withEmptyAd h .dec (by simp [decVerifyActs_eq, hopen, textLen_withEmptyAd, addrOf_withEmptyAd])
      (verdict_withEmptyAd a .dec)
  | decc =>
    exact validated_withEmptyAd h .decc (by simp [deccVerifyActs_eq, hopen, textLen_withEmptyAd, addrOf_withEmptyAd])
      (verdict_withEmptyAd a .decc)

end

end Sys2Proof.Machine
end

section
/-! The checks of Validate before AddressRange as 40_context.md R86 to R92 word them, and the code a command finishes with by the
first check it fails (R85). -/

namespace Sys2Proof.Machine

/-! ## When each check fails -/

theorem failsMissing_iff {i : Instr} {s : State} : failsMissing i s = true ↔ ¬∀ b ∈ requiredBufs i, isPresent s b = true := by
  simp [failsMissing]

section
variable {i : Instr} (hi : i = .enc ∨ i = .encc ∨ i = .dec ∨ i = .decc) {s : State}
include hi

theorem cipher_ne_loadkey : i ≠ .loadkey := by rcases hi with rfl | rfl | rfl | rfl <;> decide

theorem cipher_ne_release : i ≠ .release := by rcases hi with rfl | rfl | rfl | rfl <;> decide

theorem failsContext_cipher : failsContext i s = true ↔ s.ctx ≠ .keyed := by
  rcases hi with rfl | rfl | rfl | rfl <;> exact bne_iff_ne

theorem failsKey_cipher : failsKey i s = false := by
  rcases hi with rfl | rfl | rfl | rfl <;> rfl

theorem failsNonce_cipher : failsNonce i s = true ↔ lenOf s .nonce ≠ 12 := by
  rcases hi with rfl | rfl | rfl | rfl <;> exact bne_iff_ne

theorem failsOverflow_cipher : failsOverflow i s = true ↔
    (2 ^ 32 - 1) * 64 < textLen i s ∨ 2 ^ 64 - 1 < messageLen (adLen s) (textLen i s) := by
  rcases hi with rfl | rfl | rfl | rfl <;>
    (simp only [failsOverflow, Bool.or_eq_true, decide_eq_true_eq]; exact Iff.rfl)

end

/-! ## The code -/

/-- The code of t is the one of the first check that i fails in s, in the order of 40_context.md R85. -/
structure FirstFailing (i : Instr) (s t : State) : Prop where
  contextUnusable : t.errCode = .contextUnusable ↔ failsContext i s = true
  invalidKey : t.errCode = .invalidKey ↔ failsContext i s = false ∧ failsKey i s = true
  missingArgument : t.errCode = .missingArgument ↔ failsContext i s = false ∧ failsKey i s = false ∧ failsMissing i s = true
  lengthMismatch : t.errCode = .lengthMismatch ↔
    failsContext i s = false ∧ failsKey i s = false ∧ failsMissing i s = false ∧ failsMismatch i s = true
  invalidNonceLength : t.errCode = .invalidNonceLength ↔
    failsContext i s = false ∧ failsKey i s = false ∧ failsMissing i s = false ∧ failsMismatch i s = false ∧ failsNonce i s = true
  invalidTagLength : t.errCode = .invalidTagLength ↔
    failsContext i s = false ∧ failsKey i s = false ∧ failsMissing i s = false ∧ failsMismatch i s = false ∧
      failsNonce i s = false ∧ failsTag i s = true
  lengthOverflow : t.errCode = .lengthOverflow ↔
    failsContext i s = false ∧ failsKey i s = false ∧ failsMissing i s = false ∧ failsMismatch i s = false ∧
      failsNonce i s = false ∧ failsTag i s = false ∧ failsOverflow i s = true
  addressRange : t.errCode = .addressRange ↔
    failsContext i s = false ∧ failsKey i s = false ∧ failsMissing i s = false ∧ failsMismatch i s = false ∧
      failsNonce i s = false ∧ failsTag i s = false ∧ failsOverflow i s = false ∧ failsRange i s = true

/-- Every command finishes with the code of the first check it fails, if it fails one. -/
theorem exec_firstFailing (i : Instr) {s : State} (hb : busy s = false) : ∃ t, exec i s = .next t ∧ FirstFailing i s t := by
  obtain ⟨t, ht, hcode⟩ := exec_errCode_iff_validate i hb
  exact ⟨t, ht,
    { contextUnusable := (hcode _ (by decide) (by decide) (by decide)).trans validate_eq_contextUnusable
      invalidKey := (hcode _ (by decide) (by decide) (by decide)).trans validate_eq_invalidKey
      missingArgument := (hcode _ (by decide) (by decide) (by decide)).trans validate_eq_missingArgument
      lengthMismatch := (hcode _ (by decide) (by decide) (by decide)).trans validate_eq_lengthMismatch
      invalidNonceLength := (hcode _ (by decide) (by decide) (by decide)).trans validate_eq_invalidNonceLength
      invalidTagLength := (hcode _ (by decide) (by decide) (by decide)).trans validate_eq_invalidTagLength
      lengthOverflow := (hcode _ (by decide) (by decide) (by decide)).trans validate_eq_lengthOverflow
      addressRange := (hcode _ (by decide) (by decide) (by decide)).trans validate_eq_addressRange }⟩

/-- `FirstFailing` of a cipher command, with the checks that the four have in common worded as 40_context.md R86, R88, R90 and R92
word them. -/
structure CipherCodes (i : Instr) (s t : State) : Prop where
  contextUnusable : t.errCode = .contextUnusable ↔ s.ctx ≠ .keyed
  missingArgument : t.errCode = .missingArgument ↔ s.ctx = .keyed ∧ ¬∀ b ∈ requiredBufs i, isPresent s b = true
  lengthMismatch : t.errCode = .lengthMismatch ↔
    s.ctx = .keyed ∧ (∀ b ∈ requiredBufs i, isPresent s b = true) ∧ failsMismatch i s = true
  invalidNonceLength : t.errCode = .invalidNonceLength ↔
    s.ctx = .keyed ∧ (∀ b ∈ requiredBufs i, isPresent s b = true) ∧ failsMismatch i s = false ∧ lenOf s .nonce ≠ 12
  invalidTagLength : t.errCode = .invalidTagLength ↔
    s.ctx = .keyed ∧ (∀ b ∈ requiredBufs i, isPresent s b = true) ∧ failsMismatch i s = false ∧ lenOf s .nonce = 12 ∧
      failsTag i s = true
  lengthOverflow : t.errCode = .lengthOverflow ↔
    s.ctx = .keyed ∧ (∀ b ∈ requiredBufs i, isPresent s b = true) ∧ failsMismatch i s = false ∧ lenOf s .nonce = 12 ∧
      failsTag i s = false ∧
      ((2 ^ 32 - 1) * 64 < textLen i s ∨ 2 ^ 64 - 1 < messageLen (adLen s) (textLen i s))

theorem exec_cipherCodes {i : Instr} {s : State} (hi : i = .enc ∨ i = .encc ∨ i = .dec ∨ i = .decc) (hb : busy s = false) :
    ∃ t, exec i s = .next t ∧ CipherCodes i s t := by
  obtain ⟨t, ht, h⟩ := exec_firstFailing i hb
  have hcontext : failsContext i s = false ↔ s.ctx = .keyed := by
    rw [← Bool.not_eq_true, failsContext_cipher hi, not_not]
  have hpresent : failsMissing i s = false ↔ ∀ b ∈ requiredBufs i, isPresent s b = true := by
    rw [← Bool.not_eq_true, failsMissing_iff, not_not]
  have hnonce : failsNonce i s = false ↔ lenOf s .nonce = 12 := by
    rw [← Bool.not_eq_true, failsNonce_cipher hi, not_not]
  refine ⟨t, ht, ?_, ?_, ?_, ?_, ?_, ?_⟩
  · rw [h.contextUnusable, failsContext_cipher hi]
  · rw [h.missingArgument, hcontext, failsMissing_iff, and_iff_right (failsKey_cipher hi)]
  · rw [h.lengthMismatch, hcontext, hpresent, and_iff_right (failsKey_cipher hi)]
  · rw [h.invalidNonceLength, hcontext, hpresent, failsNonce_cipher hi, and_iff_right (failsKey_cipher hi)]
  · rw [h.invalidTagLength, hcontext, hpresent, hnonce, and_iff_right (failsKey_cipher hi)]
  · rw [h.lengthOverflow, hcontext, hpresent, hnonce, failsOverflow_cipher hi, and_iff_right (failsKey_cipher hi)]

end Sys2Proof.Machine
end

section
/-! KEY and CTX through every command and every host action (40_context.md R95 to R98). -/

namespace Sys2Proof.Machine

/-! ## Commands -/

/-- The working registers are zero (10_state.md R44(a)). -/
theorem workingZero_iff (s : State) : workingZero s = true ↔
    s.nl = .replicate 12 0 ∧ s.cs = .replicate 16 0 ∧ s.ks = .replicate 64 0 ∧ s.otk = .replicate 32 0 ∧
      s.etag = .replicate 16 0 ∧ s.stag = .replicate 16 0 ∧ s.diff = 0 ∧ s.encK = 0 ∧ s.jctr = 0 := by
  simp only [workingZero, Bool.and_eq_true, beq_iff_eq, and_assoc]

/-- A command other than LOADKEY and RELEASE changes neither KEY nor CTX, whatever code it finishes with (40_context.md R95). -/
theorem exec_keepsKey {i : Instr} {s t : State} (hb : busy s = false) (h1 : i ≠ .loadkey) (h2 : i ≠ .release)
    (h : exec i s = .next t) : t.key = s.key ∧ t.ctx = s.ctx := by
  rcases exec_cases (i := i) hb with ⟨e, -, -, hx⟩ | ⟨-, p, hp, ⟨u, hu, hx⟩ | ⟨u, hu, hx⟩⟩
  all_goals
    rw [h] at hx
    cases hx
  · exact ⟨rfl, rfl⟩
  · obtain ⟨hkey, hctx, -⟩ := body_facts hp (by rw [hu, outcomeState_ok]) p.2 h1 h2
    exact ⟨hkey, hctx⟩
  · obtain ⟨hkey, hctx, -⟩ := body_facts hp (by rw [hu, outcomeState_error]) .busError h1 h2
    exact ⟨hkey, hctx⟩

/-- A command whose Validate fails changes neither KEY nor CTX (40_context.md R82). -/
theorem exec_failed_keepsKey {i : Instr} {s t : State} {e : ErrCode} (hb : busy s = false) (hi : i ≠ .release)
    (hv : validate i s = some e) (h : exec i s = .next t) : t.key = s.key ∧ t.ctx = s.ctx := by
  rw [exec_failed hb hi hv] at h
  cases h
  exact ⟨rfl, rfl⟩

/-- LOADKEY's elements make CTX KEYED if they complete, and leave it EMPTY if a key byte cannot be read (40_context.md R96). -/
theorem loadkeyActs_ctx (s : State) :
    (∀ u, performAll (loadkeyActs s) s = .ok u → u.ctx = .keyed) ∧ ∀ u, performAll (loadkeyActs s) s = .error u → u.ctx = .empty := by
  have hreads := readKey_ctx (addrOf s .key) 32 { s with key := .replicate 32 0, ctx := .empty }
  have hsplit : performAll (loadkeyActs s) s =
      performAll ((List.range 32).flatMap (readKeyByte (addrOf s .key)) ++ [.reg (.setCtx .keyed)])
        { s with key := .replicate 32 0, ctx := .empty } := rfl
  rw [hsplit, performAll_append]
  cases hp : performAll ((List.range 32).flatMap (readKeyByte (addrOf s .key)))
      { s with key := .replicate 32 0, ctx := .empty } with
  | ok v =>
    refine ⟨fun u hu => ?_, fun u hu => nomatch hu⟩
    cases hu
    rfl
  | error v =>
    rw [hp] at hreads
    refine ⟨fun u hu => (nomatch hu), fun u hu => ?_⟩
    cases hu
    exact hreads

/-- The codes Validate raises for LOADKEY (40_context.md R87, R93): its other checks pass. -/
theorem validate_loadkey_codes {s : State} {e : ErrCode} (h : validate .loadkey s = some e) :
    e = .invalidKey ∨ e = .addressRange := by
  have hov : failsOverlap .loadkey s = false := rfl
  simp only [validate, checks, firstFailure_cons, firstFailure, failsContext, failsMissing, requiredBufs, failsMismatch, failsNonce,
    failsTag, failsOverflow, List.any_nil, hov, Bool.false_eq_true, if_false] at h
  split_ifs at h with hkey hrange
  · exact .inl (Option.some.inj h).symm
  · exact .inr (Option.some.inj h).symm

/-- How LOADKEY leaves CTX (40_context.md R95, R96). -/
theorem loadkey_ctx {s : State} (hb : busy s = false) : ∃ t, exec .loadkey s = .next t ∧
    ((t.errCode = .ok ∧ t.ctx = .keyed) ∨ (t.errCode = .busError ∧ t.ctx = .empty) ∨
      ((t.errCode = .invalidKey ∨ t.errCode = .addressRange) ∧ t.ctx = s.ctx)) := by
  rcases exec_cases (i := .loadkey) hb with ⟨e, -, hv, hx⟩ | ⟨-, p, hp, h⟩
  · exact ⟨_, hx, .inr (.inr ⟨validate_loadkey_codes hv, rfl⟩)⟩
  · rw [bodies, List.mem_singleton] at hp
    subst hp
    obtain ⟨hok, herr⟩ := loadkeyActs_ctx (begun .loadkey s)
    rcases h with ⟨u, hu, hx⟩ | ⟨u, hu, hx⟩
    · exact ⟨_, hx, .inl ⟨rfl, hok u hu⟩⟩
    · exact ⟨_, hx, .inr (.inl ⟨rfl, herr u hu⟩)⟩

/-- What RELEASE leaves on an idle block (40_context.md R97). -/
def released (s : State) : State := conclude .ok { begun .release s with key := .replicate 32 0, ctx := .released }

theorem exec_release {s : State} (hb : busy s = false) : exec .release s = .next (released s) := exec_completes hb (.inl rfl) rfl rfl

theorem released_scrubbed (s : State) : scrubbed (released s) = true := by
  rw [scrubbed_iff, ← workingZero_iff]
  exact ⟨workingZero_conclude .., .inr rfl⟩

theorem released_status (s : State) : statusWord (released s) = 0x00006062#32 ||| (if s.wign then 0x8#32 else 0#32) := by
  have hwign : (released s).wign = s.wign := rfl
  have hfields : (released s).lastCmd = 6 ∧ (released s).errCode = .ok ∧ (released s).ctx = .released ∧ (released s).done = true ∧
      errFlag (released s) = false ∧ busy (released s) = false := ⟨rfl, rfl, rfl, rfl, rfl, rfl⟩
  obtain ⟨hlast, hcode, hctx, hdone, herr, hbusy⟩ := hfields
  rw [statusWord, hlast, hcode, released_scrubbed, hctx, hwign, herr, hdone, hbusy]
  cases s.wign <;> rfl

/-- Of all commands LOADKEY alone, if it finishes OK, makes CTX KEYED (40_context.md R95, R98). -/
theorem loadkey_of_keyed {i : Instr} {s t : State} (hb : busy s = false) (hctx : s.ctx ≠ .keyed) (h : exec i s = .next t)
    (hkeyed : t.ctx = .keyed) : i = .loadkey ∧ t.errCode = .ok := by
  by_cases h1 : i = .loadkey
  · subst h1
    obtain ⟨t', ht', hcases⟩ := loadkey_ctx hb
    rw [h] at ht'
    cases ht'
    rcases hcases with ⟨hok, -⟩ | ⟨-, hempty⟩ | ⟨-, hsame⟩
    · exact ⟨rfl, hok⟩
    · rw [hempty] at hkeyed
      cases hkeyed
    · exact absurd (hsame.symm.trans hkeyed) hctx
  · by_cases h2 : i = .release
    · subst h2
      rw [exec_release hb] at h
      cases h
      cases hkeyed
    · exact absurd ((exec_keepsKey hb h1 h2 h).2.symm.trans hkeyed) hctx

/-! ## Host actions -/

theorem portWrite_ctx (off : Offset) (bytes : Nat) (v : Word) (s : State) : (portWrite off bytes v s).ctx = s.ctx := by
  rcases portWrite_cases off bytes v s with ⟨-, -, h⟩ | ⟨h, -⟩
  · rw [h]
    rfl
  · exact h.ctx

/-- No host action but a reset changes CTX (40_context.md R95). -/
theorem deliver_ctx {act : HostAct} (h : act ≠ .reset) (s : State) : (deliver act s).ctx = s.ctx := by
  cases act with
  | reset => exact absurd rfl h
  | write off bytes v => exact portWrite_ctx off bytes v s
  | busWrite a bytes v =>
    rw [deliver]
    split
    · exact portWrite_ctx _ bytes v s
    · rfl
  | busRead a bytes =>
    rw [deliver]
    split <;> rfl
  | store a b =>
    rw [deliver, hostStore]
    split <;> rfl
  | load a =>
    rw [deliver, hostLoad]
    split <;> rfl
  | read off bytes => rfl
  | writeBack r => rfl
  | invalidate r => rfl

end Sys2Proof.Machine
end

section
/-! The statements about the context and validation (40_context.md), settled from the lemmas above. -/

namespace Sys2Proof.Settled

open Sys2Proof.Machine

/-- Settles O25: `exec_cipherCodes`, with what ENC and DEC require, compare and check of TAG. -/
theorem encDecValidation : Obligations.EncDecValidation := by
  intro i s hi hb
  have hcipher : i = .enc ∨ i = .encc ∨ i = .dec ∨ i = .decc := hi.elim .inl (fun h => .inr (.inr (.inl h)))
  have hrequired : requiredBufs i = [.nonce, .inp, .out, .tag] := by rcases hi with rfl | rfl <;> rfl
  have hlen : failsMismatch i s = (lenOf s .out != lenOf s .inp) := by rcases hi with rfl | rfl <;> rfl
  have htag : failsTag i s = (lenOf s .tag != 16) := by rcases hi with rfl | rfl <;> rfl
  have htext : textLen i s = lenOf s .inp := by rcases hi with rfl | rfl <;> rfl
  obtain ⟨t, ht, h⟩ := exec_cipherCodes hcipher hb
  refine ⟨t, ht, h.contextUnusable, ?_, ?_, ?_, ?_, ?_⟩
  · simp [h.missingArgument, hrequired]
  · simp [h.lengthMismatch, hrequired, hlen]
  · simp [h.invalidNonceLength, hrequired, hlen]
  · simp [h.invalidTagLength, hrequired, hlen, htag]
  · simp [h.lengthOverflow, hrequired, hlen, htag, htext]

/-- Settles O26: `exec_cipherCodes`; ENCC neither requires nor checks TAG, and OUT is to be 16 bytes longer than IN. -/
theorem enccValidation : Obligations.EnccValidation := by
  intro s hb
  have hrequired : requiredBufs .encc = [.nonce, .inp, .out] := rfl
  have hlen : failsMismatch .encc s = (lenOf s .out != lenOf s .inp + 16) := rfl
  have htag : failsTag .encc s = false := rfl
  have htext : textLen .encc s = lenOf s .inp := rfl
  obtain ⟨t, ht, h⟩ := exec_cipherCodes (i := .encc) (.inr (.inl rfl)) hb
  refine ⟨t, ht, ?_, h.contextUnusable, ?_, ?_, ?_, ?_⟩
  · simp [h.invalidTagLength, htag]
  · simp [h.missingArgument, hrequired]
  · simp [h.lengthMismatch, hrequired, hlen]
  · simp [h.invalidNonceLength, hrequired, hlen]
  · simp [h.lengthOverflow, hrequired, hlen, htag, htext]

/-- Settles O27: `exec_cipherCodes`; an IN below 16 bytes passes the length check, so the last two clauses need not name it. -/
theorem deccValidation : Obligations.DeccValidation := by
  intro s hb
  have hrequired : (∀ b ∈ requiredBufs .decc, isPresent s b = true) ↔
      isPresent s .nonce = true ∧ isPresent s .inp = true ∧ isPresent s .out = true := by
    simp [requiredBufs]
  have hlen : failsMismatch .decc s = true ↔ ¬(lenOf s .inp < 16 ∨ lenOf s .out = lenOf s .inp - 16) := by
    simp [failsMismatch]
  have hlen' : failsMismatch .decc s = false ↔ lenOf s .inp < 16 ∨ lenOf s .out = lenOf s .inp - 16 := by
    rw [← Bool.not_eq_true, hlen, not_not]
  have htag : failsTag .decc s = decide (lenOf s .inp < 16) := rfl
  have htext : textLen .decc s = lenOf s .inp - 16 := rfl
  obtain ⟨t, ht, h⟩ := exec_cipherCodes (i := .decc) (.inr (.inr (.inr rfl))) hb
  refine ⟨t, ht, h.contextUnusable, ?_, ?_, ?_, ?_, ?_⟩
  · rw [h.missingArgument, hrequired]
  · rw [h.lengthMismatch, hrequired, hlen]
  · rw [h.invalidNonceLength, hrequired, hlen']
  · rw [h.invalidTagLength, hrequired, hlen', htag, decide_eq_true_iff]
    exact and_congr_right fun _ => and_congr_right fun _ => by omega
  · rw [h.lengthOverflow, hrequired, hlen', htag, decide_eq_false_iff_not, htext]
    exact and_congr_right fun _ => and_congr_right fun _ => by omega

/-- Settles O28: no context, key, nonce or tag check comes in between, and a message length that no OUT can have passes
LengthMismatch. -/
theorem taginValidation : Obligations.TaginValidation := by
  intro s hb
  have hcontext : failsContext .tagin s = false := rfl
  have hkey : failsKey .tagin s = false := rfl
  have hnonce : failsNonce .tagin s = false := rfl
  have htag : failsTag .tagin s = false := rfl
  have hmissing : failsMissing .tagin s = true ↔ ¬(isPresent s .inp = true ∧ isPresent s .out = true) := by
    rw [failsMissing_iff]
    simp [requiredBufs]
  have hlen : failsMismatch .tagin s = true ↔ messageLen (adLen s) (lenOf s .inp) ≤ 2 ^ 64 - 1 ∧
      lenOf s .out ≠ messageLen (adLen s) (lenOf s .inp) := by
    rw [failsMismatch, Bool.and_eq_true, decide_eq_true_iff, bne_iff_ne]
  have hov : failsOverflow .tagin s = true ↔ 2 ^ 64 - 1 < messageLen (adLen s) (lenOf s .inp) := decide_eq_true_iff
  have hpresent : failsMissing .tagin s = false ↔ isPresent s .inp = true ∧ isPresent s .out = true := by
    rw [← Bool.not_eq_true, hmissing, not_not]
  obtain ⟨t, ht, h⟩ := exec_firstFailing .tagin hb
  refine ⟨t, ht, ?_, ?_, ?_, ?_⟩
  · simp [h.contextUnusable, hcontext]
  · simp only [h.missingArgument, hcontext, hkey, true_and, hmissing]
  · simp only [h.lengthMismatch, hcontext, hkey, true_and, hpresent, hlen]
  · simp only [h.lengthOverflow, hcontext, hkey, hnonce, htag, true_and, hpresent, hov, ← Bool.not_eq_true, hlen]
    exact and_congr_right fun _ => by omega

/-- Settles O29: of the checks before AddressRange LOADKEY has InvalidKey alone, and a failed validation concludes the accepted
state, where KEY and CTX are untouched. -/
theorem loadkeyValidation : Obligations.LoadkeyValidation := by
  intro s hb
  have hkey : failsKey .loadkey s = true ↔ isPresent s .key = false ∨ lenOf s .key ≠ 32 := by
    rw [failsKey, Bool.or_eq_true, Bool.not_eq_true', bne_iff_ne]
  have hkey' : failsKey .loadkey s = false ↔ isPresent s .key = true ∧ lenOf s .key = 32 := by
    rw [← Bool.not_eq_true, hkey, not_or, Bool.not_eq_false, not_not]
  have hrange : failsRange .loadkey s = true ↔ 2 ^ 64 < (addrOf s .key).toNat + 32 := by
    simp [failsRange_iff, usedRegions, regionOf]
  have hcontext : failsContext .loadkey s = false := rfl
  have hmissing : failsMissing .loadkey s = false := rfl
  have hlen : failsMismatch .loadkey s = false := rfl
  have hnonce : failsNonce .loadkey s = false := rfl
  have htag : failsTag .loadkey s = false := rfl
  have hov : failsOverflow .loadkey s = false := rfl
  obtain ⟨t, ht, h⟩ := exec_firstFailing .loadkey hb
  have hkeep : ∀ e, validate .loadkey s = some e → t.key = s.key ∧ t.ctx = s.ctx := fun e hv =>
    exec_failed_keepsKey hb (by decide) hv ht
  refine ⟨t, ht, ?_, ?_, fun he => ?_⟩
  · simp only [h.invalidKey, hcontext, hkey, true_and]
  · simp only [h.addressRange, hcontext, hkey', hmissing, hlen, hnonce, htag, hov, hrange, true_and, and_assoc]
  · rcases he with he | he
    · exact hkeep _ (validate_eq_invalidKey.mpr (h.invalidKey.mp he))
    · exact hkeep _ (validate_eq_addressRange.mpr (h.addressRange.mp he))

/-- Settles O31: acceptance and then `Scrub(); finish` is all such a command does, and Scrub zeroes what is zero already. -/
theorem failedValidationHasNoEffect : Obligations.FailedValidationHasNoEffect := by
  intro i s e hb hzero hi hv
  obtain ⟨hnl, hcs, hks, hotk, hetag, hstag, hdiff, hencK, hjctr⟩ := (workingZero_iff s).mp hzero
  have hcontrol : SameControl (begun i s) (begun i s) := SameControl.rfl' _
  exact ⟨_, exec_failed hb hi hv, finished_conclude _ _, rfl, rfl, rfl, hnl.symm, hcs.symm, hks.symm, hotk.symm, hetag.symm,
    hstag.symm, hdiff.symm, hencK.symm, hjctr.symm, rfl, rfl, rfl, sameSetup_conclude e hcontrol⟩

/-- Settles O32: performing an element commutes with putting an empty AD in place, and so does the whole command. -/
theorem absentAdIsEmptyAd : Obligations.AbsentAdIsEmptyAd := by
  refine ⟨fun _ => rfl, fun i s a hb had => ?_⟩
  obtain ⟨e, u, ht, hcontrol⟩ := exec_concludes hb (exec_idle (i := i) hb)
  refine ⟨_, exec_idle hb, ?_⟩
  have hsame : exec i (withEmptyAd a s) = .next (withEmptyAd a (command i (begun i s))) := by
    rw [exec_idle (s := withEmptyAd a s) hb]
    exact congrArg _ (command_withEmptyAd (s := begun i s) had i)
  have hdesc : (command i (begun i s)).desc = s.desc := by rw [ht]; exact hcontrol.desc
  have hpresent : (command i (begun i s)).present = s.present := by rw [ht]; exact hcontrol.present
  refine hsame.trans ?_
  rw [withEmptyAd, hdesc, hpresent]

/-- Settles O33: `loadkeyActs_spec` from the accepted state, where nothing the block reads is stale. -/
theorem loadkeyResult : Obligations.LoadkeyResult := by
  intro s hb hv hgranted hhanded
  have hread : Readable s (addrOf s .key) 32 := hgranted.1 (addrOf s .key, 32) (List.mem_singleton.mpr rfl)
  obtain ⟨d, hd⟩ := loadkeyActs_spec (s := begun .loadkey s) hread (begun_stale hhanded)
  have hcontrol := performAll_control_ok hd
  exact ⟨_, exec_completes hb (.inr hv) rfl hd, finished_conclude _ _, fun k hk => byteAt_loadBytes _ _ _ _ hk, rfl, rfl, rfl, rfl,
    rfl, sameSetup_conclude .ok hcontrol⟩

/-- Settles O35: RELEASE is refused while a command runs, and otherwise leaves the state `released`. -/
theorem releaseResult : Obligations.ReleaseResult := by
  refine ⟨fun s hb => exec_busy hb, fun s hb => ?_⟩
  exact ⟨_, exec_release hb, finished_conclude _ _, rfl, rfl, rfl, rfl, rfl, rfl, by constructor <;> rfl, released_status s⟩

/-- Settles O36: the state `released`; the context check, which comes first; and `loadkey_of_keyed`. -/
theorem afterReleaseUnusable : Obligations.AfterReleaseUnusable := by
  refine ⟨fun s t hb h => ?_, fun s i hb hctx hi => ?_, fun _ _ _ hb hctx h hkeyed => loadkey_of_keyed hb hctx h hkeyed,
    fun s => (readOnlyRegisters.1 s).2.1⟩
  · rw [exec_release hb] at h
    cases h
    exact ⟨fun hc => (nomatch hc), rfl, (statusWord_scrubbed _).trans (released_scrubbed s)⟩
  · have hv := validate_eq_contextUnusable.mpr ((failsContext_cipher hi).mpr hctx)
    exact ⟨_, exec_failed hb (cipher_ne_release hi) hv, finished_conclude _ _, rfl, rfl, rfl⟩

/-- Settles O37: LOADKEY by the ways it can end, the others by what they keep, and the host's actions one by one. -/
theorem contextTransitions : Obligations.ContextTransitions := by
  refine ⟨fun s hb => ⟨loadkey_ctx hb, ⟨_, exec_release hb, rfl, rfl⟩, fun i hi => ?_, ?_, fun w => ⟨_, runIllegal_idle hb w, rfl⟩⟩,
    fun s => ⟨rfl, fun act hact => deliver_ctx hact s⟩⟩
  · obtain ⟨t, ht, h⟩ := exec_cipherCodes hi hb
    exact ⟨t, ht, (exec_keepsKey hb (cipher_ne_loadkey hi) (cipher_ne_release hi) ht).2, h.contextUnusable.mpr⟩
  · exact ⟨_, exec_idle hb, (exec_keepsKey hb (by decide) (by decide) (exec_idle hb)).2⟩

/-- Settles O57: every command concludes a state with the accepted one's control registers, and only LOADKEY and RELEASE have elements
on KEY or CTX. -/
theorem registerFrame : Obligations.RegisterFrame := by
  intro i s hb
  have hexec := exec_idle (i := i) hb
  obtain ⟨e, u, ht, hcontrol⟩ := exec_concludes hb hexec
  rw [ht] at hexec
  exact ⟨_, hexec, sameSetup_conclude e hcontrol, lastCmd_conclude e hcontrol, fun h1 h2 => exec_keepsKey hb h1 h2 hexec⟩

end Sys2Proof.Settled
end

section
/-! ENC and ENCC when every access completes (41_encrypt.md R102 to R105), and the values of JCTR along XorPass (R106). -/

namespace Sys2Proof.Machine

/-! ## A completed encryption -/

/-- Text byte j from the whole text (41_encrypt.md R104). -/
theorem memRead_of_regionBytes_xorText {m m' : List Host.Cell} {dst src : Addr} {n j : Nat} {key : Vector Byte 32}
    {nonce : Vector Byte 12} (h : regionBytes m' dst n = xorText key nonce (regionBytes m src n)) (hj : j < n) :
    memRead m' (addrAdd dst j).toNat = memRead m (addrAdd src j).toNat ^^^ textKeystream key nonce j := by
  have hbyte := congrArg (·[j]?) h
  simpa only [xorText_getElem?, regionBytes_getElem?, hj, if_true, Option.map_some, Option.some.injEq] using hbyte

/-- What ENC or ENCC leaves when every access completes. -/
structure SealedAs (i : Instr) (s t : State) : Prop where
  finished : FinishedWith .ok t
  text : regionBytes t.mem (addrOf s .out) (textLen i s) = xorText s.key (nonceOf s) (textBytes i s)
  tag : loadBytes 16 t.mem (tagOutAddr i s) = tagFor s.key (nonceOf s) (adBytes s) (xorText s.key (nonceOf s) (textBytes i s))
  frame : ∀ x, OutsideWrites i s x → memRead t.mem x = memRead s.mem x
  key : t.key = s.key
  ctx : t.ctx = .keyed
  msgLen : t.msgLen.toNat = messageLen (adLen s) (textLen i s)
  errAddr : t.errAddr = 0
  lastCmd : t.lastCmd = (encode i).extractLsb' 0 4
  setup : SameSetup s t

theorem keyed_of_validate_cipher {i : Instr} {s : State} (hi : i = .enc ∨ i = .encc ∨ i = .dec ∨ i = .decc)
    (hv : validate i s = none) : s.ctx = .keyed := by
  obtain ⟨hctx, -⟩ := validate_eq_none.mp hv
  exact not_not.mp fun hne => Bool.eq_false_iff.mp hctx ((failsContext_cipher hi).mpr hne)

/-- Validation admits no text longer than MAX_TEXT (40_context.md R92). -/
theorem textLen_le_of_validate_cipher {i : Instr} {s : State} (hi : i = .enc ∨ i = .encc ∨ i = .dec ∨ i = .decc)
    (hv : validate i s = none) : textLen i s ≤ (2 ^ 32 - 1) * 64 := by
  obtain ⟨-, -, -, -, -, -, hov, -⟩ := validate_eq_none.mp hv
  exact not_lt.mp fun hlong => Bool.eq_false_iff.mp hov ((failsOverflow_cipher hi).mpr (.inl hlong))

section Seal

variable {i : Instr} {s : State} (hi : i = .enc ∨ i = .encc)

include hi

/-- The bytes ENC and ENCC write: the ciphertext's and the tag's (30_encoding.md R76). -/
theorem seal_writes (h : ∀ w ∈ writesOf i s, Writable s w.1 w.2) :
    Writable s (addrOf s .out) (textLen i s) ∧ Writable s (tagOutAddr i s) 16 := by
  rcases hi with rfl | rfl
  · exact ⟨h (addrOf s .out, textLen .enc s) (by simp [writesOf]), h (addrOf s .tag, 16) (by simp [writesOf])⟩
  · have hout : Writable s (addrOf s .out) (textLen .encc s + 16) := h (_, _) (List.mem_singleton.mpr rfl)
    refine ⟨fun k hk => hout k (by omega), fun k hk => ?_⟩
    rw [tagOutAddr, addrAdd_addrAdd]
    exact hout _ (by omega)

/-- The ciphertext and the tag, and what stays, once validation has passed and every access completes. -/
theorem exec_sealedAs (hb : busy s = false) (hv : validate i s = none) (hg : Granted i s) (hh : HandedOver s) :
    ∃ t, exec i s = .next t ∧ SealedAs i s t := by
  have hf := sealFacts hi hv
  obtain ⟨hn, hr, ha, ho⟩ := seal_reads hi hg.1
  obtain ⟨hw, ht⟩ := seal_writes hi hg.2
  obtain ⟨u, hu, hmem⟩ := sealed_spec (s := begun i s) hn hr ha ho hw ht (begun_stale hh) hf.out_inp hf.out_le hf.out_ad
  have hbody : bodies i (begun i s) = [(sealActs (begun i s) (textLen i s) ++ writeTag (tagOutAddr i s), .ok)] := by
    rcases hi with rfl | rfl <;> rfl
  have hcipher : i = .enc ∨ i = .encc ∨ i = .dec ∨ i = .decc := hi.imp_right .inl
  obtain ⟨hframe, hkey, hctx, hmsg, haddr, hlast, hsetup⟩ := completed_conclude .ok hv (hbody ▸ List.mem_singleton_self _) hu
    (cipher_ne_loadkey hcipher) (cipher_ne_release hcipher)
  refine ⟨_, exec_completes hb (.inr hv) hbody hu,
    { finished := finished_conclude .ok u
      text := ?_
      tag := ?_
      frame := hframe
      key := hkey
      ctx := hctx.trans (keyed_of_validate_cipher hcipher hv)
      msgLen := hmsg
      errAddr := haddr
      lastCmd := hlast
      setup := hsetup }⟩
  · rw [conclude_mem, hmem, regionBytes_writeBytes_other hf.out_tag]
    exact regionBytes_xorText (s := { s with nl := nonceOf s }) hf.out_le
  · rw [conclude_mem, hmem]
    exact loadBytes_writeBytes _ hf.tag_le

end Seal

theorem SealedAs.text_byte {i : Instr} {s t : State} (h : SealedAs i s t) {j : Nat} (hj : j < textLen i s) :
    memRead t.mem (addrAdd (addrOf s .out) j).toNat =
      memRead s.mem (addrAdd (addrOf s .inp) j).toNat ^^^ textKeystream s.key (nonceOf s) j :=
  memRead_of_regionBytes_xorText h.text hj

/-- The tag is over the ciphertext as OUT holds it at the end (42_tag_input.md R118). -/
theorem SealedAs.tag_over_out {i : Instr} {s t : State} (h : SealedAs i s t) : loadBytes 16 t.mem (tagOutAddr i s) =
    tagFor s.key (nonceOf s) (adBytes s) (regionBytes t.mem (addrOf s .out) (textLen i s)) := by
  rw [h.text, h.tag]

/-! ## The block counter (41_encrypt.md R106) -/

theorem counterValues_append (l r : List Act) : counterValues (l ++ r) = counterValues l ++ counterValues r :=
  List.filterMap_append

theorem counterValues_flatMap (f : Nat → List Act) (l : List Nat) :
    counterValues (l.flatMap f) = l.flatMap fun j => counterValues (f j) := by
  induction l with
  | nil => rfl
  | cons j l ih => rw [List.flatMap_cons, counterValues_append, ih, List.flatMap_cons]

/-- Each block sets JCTR once, before its keystream (41_encrypt.md R100). -/
theorem counterValues_xorBlock (src dst : Addr) (n j : Nat) :
    counterValues (xorBlock src dst n j) = [BitVec.ofNat 32 (1 + j)] := by
  have hbytes : counterValues ((List.range (min 64 (n - 64 * j))).flatMap fun i => xorByte src dst (64 * j + i) i) = [] := by
    rw [counterValues_flatMap]
    exact List.flatMap_eq_nil_iff.mpr fun _ _ => rfl
  rw [xorBlock, counterValues_append, counterValues_append, hbytes]
  rfl

theorem counterValues_xorPass (src dst : Addr) (n : Nat) :
    counterValues (xorPass src dst n) = ((List.range (blocksOf n)).map fun j => BitVec.ofNat 32 (1 + j)) ++ [0] := by
  rw [xorPass, counterValues_append, counterValues_flatMap]
  simp only [counterValues_xorBlock, ← List.map_eq_flatMap]
  rfl

/-- Below 2^32 blocks no value wraps. -/
theorem counterValues_xorPass_toNat (src dst : Addr) {n : Nat} (h : blocksOf n ≤ 2 ^ 32 - 1) :
    (counterValues (xorPass src dst n)).map BitVec.toNat = (List.range (blocksOf n)).map (fun j => 1 + j) ++ [0] := by
  have hvalue : ∀ j ∈ List.range (blocksOf n), (BitVec.ofNat 32 (1 + j)).toNat = 1 + j := fun j hj => by
    have := List.mem_range.mp hj
    rw [BitVec.toNat_ofNat, Nat.mod_eq_of_lt (by omega)]
  rw [counterValues_xorPass, List.map_append, List.map_map]
  exact congrArg (· ++ [0]) (List.map_congr_left hvalue)

/-- A text within MAX_TEXT takes at most 2^32 - 1 blocks. -/
theorem blocksOf_le {n : Nat} (h : n ≤ (2 ^ 32 - 1) * 64) : blocksOf n ≤ 2 ^ 32 - 1 := by
  rw [blocksOf]
  omega

end Sys2Proof.Machine
end

section
/-! The statements about encryption (41_encrypt.md), settled from the lemmas above. -/

namespace Sys2Proof.Settled

open Sys2Proof.Machine

/-- Settles O38: `exec_sealedAs`, text byte by text byte, with the tag over the ciphertext that OUT holds. -/
theorem encResult : Obligations.EncResult := by
  intro s hb hv hg hh
  obtain ⟨t, ht, h⟩ := exec_sealedAs (.inl rfl) hb hv hg hh
  exact ⟨t, ht, h.finished, fun _ hj => h.text_byte hj, h.tag_over_out, h.frame, h.key, h.ctx, h.msgLen, h.errAddr, h.lastCmd,
    h.setup⟩

/-- Settles O39: as O38; the tag's address is OUT + n. -/
theorem enccResult : Obligations.EnccResult := by
  intro s hb hv hg hh
  obtain ⟨t, ht, h⟩ := exec_sealedAs (.inr rfl) hb hv hg hh
  exact ⟨t, ht, h.finished, fun _ hj => h.text_byte hj, h.tag_over_out, h.frame, h.key, h.ctx, h.msgLen, h.errAddr, h.lastCmd,
    h.setup⟩

/-- Settles O42: the overflow check bounds the text by MAX_TEXT, so the number of blocks fits the counter. -/
theorem counterNeverWraps : Obligations.CounterNeverWraps := by
  intro i s hi
  refine ⟨fun hv => ?_, fun hlong => ⟨(failsOverflow_cipher hi).mpr (.inl hlong), fun hv => ?_⟩⟩
  · have hblocks := blocksOf_le (textLen_le_of_validate_cipher hi hv)
    exact ⟨hblocks, counterValues_xorPass_toNat _ _ hblocks⟩
  · exact absurd hlong (not_lt.mpr (textLen_le_of_validate_cipher hi hv))

end Sys2Proof.Settled
end

section
/-! SUPPORT. The message's numbers: the padded length (42_tag_input.md R111), LE64 as a numeral in base 256 (R112) and the message
length in blocks of 16 bytes (R113). -/

namespace Sys2Proof.Machine

/-! ## Padding and the message length -/

theorem padLen_le (l : Nat) : padLen l ≤ 15 := by
  unfold padLen
  omega

theorem padLen_eq_zero_iff (l : Nat) : padLen l = 0 ↔ l % 16 = 0 := by
  unfold padLen
  omega

/-- L + padlen(L) is 16 times ceil(L/16). -/
theorem add_padLen_eq (l : Nat) : l + padLen l = 16 * ((l + 15) / 16) := by
  unfold padLen
  omega

/-- No multiple of 16 that is at least L is below L + padlen(L): the padding is shorter than a block. -/
theorem add_padLen_least {l m : Nat} (hm : m % 16 = 0) (hl : l ≤ m) : l + padLen l ≤ m := by
  have hmod := add_padLen_mod l
  have hle := padLen_le l
  omega

theorem messageLen_eq_blocks (a c : Nat) : messageLen a c = 16 * ((a + 15) / 16 + (c + 15) / 16 + 1) := by
  have ha := add_padLen_eq a
  have hc := add_padLen_eq c
  unfold messageLen
  omega

/-! ## LE64 -/

theorem le64Byte_toNat (v i : Nat) : (le64Byte v i).toNat = v / 2 ^ (8 * i) % 256 := BitVec.toNat_ofNat _ _

theorem le64_byte_toNat (v : Nat) {i : Nat} (hi : i < 8) : ((le64 v)[i]?.getD 0).toNat = v / 2 ^ (8 * i) % 256 := by
  rw [le64_getElem? v i hi, Option.getD_some, le64Byte_toNat]

/-- The low n bytes of v, each at its place, add up to v modulo 2^(8n). -/
theorem sum_le64Bytes (v n : Nat) :
    ((List.range n).map fun i => v / 2 ^ (8 * i) % 256 * 2 ^ (8 * i)).sum = v % 2 ^ (8 * n) := by
  induction n with
  | zero => simp [Nat.mod_one]
  | succ n ih =>
    rw [List.range_succ, List.map_append, List.sum_append, ih, List.map_singleton, List.sum_singleton, pow_mul, pow_mul,
      Nat.mod_pow_succ, mul_comm (_ % 256)]
    rfl

/-- LE64 determines its value. -/
theorem sum_le64 {v : Nat} (hv : v < 2 ^ 64) :
    ((List.range 8).map fun i => ((le64 v)[i]?.getD 0).toNat * 2 ^ (8 * i)).sum = v := by
  have hbytes : ∀ i ∈ List.range 8, ((le64 v)[i]?.getD 0).toNat * 2 ^ (8 * i) = v / 2 ^ (8 * i) % 256 * 2 ^ (8 * i) :=
    fun i hi => by rw [le64_byte_toNat v (List.mem_range.mp hi)]
  rw [List.map_congr_left hbytes, sum_le64Bytes, Nat.mod_eq_of_lt hv]

/-! ## The encoder -/

/-- Emit's access completes and leaves the message's byte k as the value it yields (42_tag_input.md R115, R116). -/
theorem emit_yields {a c k : Nat} {x y : Addr} {s : State} (ha : Readable s x a) (hc : Readable s y c) (hb : s.blockStale = [])
    (hk : k < messageLen a c) :
    ∃ t, performAll (emit k a x c y).1 s = .ok t ∧ t.mem = s.mem ∧
      (tagInput (regionBytes s.mem x a) (regionBytes s.mem y c))[k]? = some (valOf t (emit k a x c y).2) := by
  rcases emit_spec s.mem k a x c y hk with ⟨b, he, hm⟩ | ⟨z, he, hm, hz⟩
  · rw [he]
    exact ⟨s, rfl, rfl, hm⟩
  · have hread : rdOk s z = true ∧ ordinary s z = true := by
      rcases hz with ⟨i, hi, rfl⟩ | ⟨i, hi, rfl⟩
      · exact ha i hi
      · exact hc i hi
    rw [he]
    exact ⟨{ s with dataLatch := memRead s.mem z.toNat }, performAll_rd hread.1 hread.2 hb, rfl, hm⟩

end Sys2Proof.Machine
end

section
/-! The statements about the Tag-Input Builder (42_tag_input.md), settled from the lemmas above. -/

namespace Sys2Proof.Settled

open Sys2Proof.Machine

/-- Settles O43: the padded length is 16 times ceil(L/16), LE64 is the numeral in base 256, and the message's length is that of its
segments. -/
theorem tagInputMessage : Obligations.TagInputMessage := by
  refine ⟨fun l => ?_, fun v hv => ?_, fun a c => ?_, fun x y => ?_⟩
  · exact ⟨rfl, padLen_le l, padLen_eq_zero_iff l, add_padLen_mod l, fun _ hm hl => add_padLen_least hm hl⟩
  · exact ⟨le64_length v, fun _ hi => le64_byte_toNat v hi, sum_le64 hv⟩
  · have hblocks := messageLen_eq_blocks a c
    exact ⟨rfl, by omega, by omega, by omega⟩
  · exact ⟨rfl, tagInput_length_eq x y⟩

/-- Settles O44: Emit(k) is a constant of the message or one read that completes (`emit_yields`). -/
theorem emitIsTagInput : Obligations.EmitIsTagInput := by
  intro s a c x y ha hc hb
  refine ⟨?_, fun _ hk => emit_yields ha hc hb hk⟩
  rw [tagInput_length_eq, regionBytes_length, regionBytes_length]

/-- Settles O45: `macOver_spec` gives the state MacOver leaves whole. -/
theorem macOverTag : Obligations.MacOverTag := by
  intro s a c x y ha hc hb
  obtain ⟨d, u, h⟩ := macOver_spec ha hc hb
  exact ⟨_, h, rfl, rfl, rfl, rfl, rfl, rfl⟩

end Sys2Proof.Settled
end

section
/-! DEC and DECC when every access completes (43_decrypt.md R127 to R130), and the round trip (R136). -/

namespace Sys2Proof.Machine

/-! ## After the choice on ok -/

/-- Both ends of DEC and DECC when their accesses complete: OUT gets the plaintext if ok is set, and zeros if not. -/
theorem verdict_completes {i : Instr} {s : State} (hr : Readable s (addrOf s .inp) (textLen i s))
    (hw : Writable s (addrOf s .out) (textLen i s)) (hb : s.blockStale = [])
    (hsep : ReadsFirst (addrOf s .inp) (addrOf s .out) (textLen i s)) :
    ∃ u, performAll (if s.okBit then acceptActs i s else rejectActs i s) s = .ok u ∧
      u.mem = writeBytes s.mem (addrOf s .out) (textLen i s)
        (if s.okBit then xorByteAt s (addrOf s .inp) else fun _ => 0) := by
  cases s.okBit with
  | true =>
    obtain ⟨d, v, x, w, hpass⟩ := xorPass_spec hr hw hb hsep
    exact ⟨_, hpass, rfl⟩
  | false =>
    obtain ⟨v, hfill⟩ := zeroFill_spec hw hb
    exact ⟨_, hfill, rfl⟩

theorem verdict_of_ok {i : Instr} {s u : State}
    (h : performAll (if s.okBit then acceptActs i s else rejectActs i s) s = .ok u) :
    verdict i s = conclude (if s.okBit then .ok else .tagMismatch) u := by
  unfold verdict
  cases hok : s.okBit <;> rw [hok] at h <;> exact runActs_ok h

section Open

variable {i : Instr} {s : State} (hi : i = .dec ∨ i = .decc)

include hi

/-- The end that ok chooses completes a body of the command. -/
theorem chosen_mem_bodies {t : State} (hd : t.desc = s.desc) :
    (openActs (begun i s) (textLen i s) (suppliedTagAddr i s) ++ (if t.okBit then acceptActs i t else rejectActs i t),
      if t.okBit then ErrCode.ok else .tagMismatch) ∈ bodies i (begun i s) := by
  have hlen : textLen i (begun i s) = textLen i s := textLen_congr rfl i
  rw [bodies_open hi, acceptActs_congr (s := begun i s) hd, rejectActs_congr (s := begun i s) hd, suppliedTagAddr_begun hi, hlen]
  cases t.okBit <;> simp

/-- The bytes DEC and DECC write: the text's (30_encoding.md R76). -/
theorem open_writes (h : ∀ w ∈ writesOf i s, Writable s w.1 w.2) : Writable s (addrOf s .out) (textLen i s) := by
  rcases hi with rfl | rfl <;> exact h (_, _) (List.mem_singleton.mpr rfl)

end Open

/-! ## A completed decryption -/

/-- What DEC or DECC leaves when it has ended with code e, every access completed, and p in OUT. -/
structure OpenedAs (i : Instr) (s : State) (e : ErrCode) (p : List Byte) (t : State) : Prop where
  finished : FinishedWith e t
  text : regionBytes t.mem (addrOf s .out) (textLen i s) = p
  frame : ∀ x, OutsideWrites i s x → memRead t.mem x = memRead s.mem x
  key : t.key = s.key
  ctx : t.ctx = .keyed
  msgLen : t.msgLen.toNat = messageLen (adLen s) (textLen i s)
  errAddr : t.errAddr = 0
  lastCmd : t.lastCmd = if i = .dec then 3 else 5
  setup : SameSetup s t

theorem encode_op_open {i : Instr} (hi : i = .dec ∨ i = .decc) :
    (encode i).extractLsb' 0 4 = if i = .dec then 3 else 5 := by
  rcases hi with rfl | rfl <;> rfl

section Opened

variable {i : Instr} {s : State} (hi : i = .dec ∨ i = .decc) (hb : busy s = false) (hv : validate i s = none)
  (hg : Granted i s) (hh : HandedOver s)

include hi hb hv hg hh

/-- The two ways DEC and DECC end once validation has passed and every access completes: by the tags, the plaintext or zeros. -/
theorem exec_openedAs : ∃ t, exec i s = .next t ∧
    OpenedAs i s (if suppliedTag i s = computedTag i s then .ok else .tagMismatch)
      (if suppliedTag i s = computedTag i s then xorText s.key (nonceOf s) (textBytes i s)
        else List.replicate (textLen i s) 0) t := by
  obtain ⟨t, hopen, hexec, hmem, hkey, hnl, hstale, hok⟩ := decrypt_verdict hi hb hv hg.1 hh
  have hc := performAll_control_ok hopen
  have hd : t.desc = s.desc := hc.desc
  have hf := openFacts hi hv
  have hinp := ((forall_open_reads (R := fun x => rdOk s x = true ∧ ordinary s x = true) hi).mp hg.1).2.2.1
  have hend := verdict_completes (i := i) (s := t)
  simp only [addrOf_congr hd, textLen_congr hd] at hend
  obtain ⟨u, hu, humem⟩ := hend (hc.readable hinp) (hc.writable (open_writes hi hg.2)) hstale hf.out_inp
  obtain ⟨hframe, hukey, hctx, hmsg, haddr, hlast, hsetup⟩ := completed_conclude
    (if t.okBit then .ok else .tagMismatch) hv (chosen_mem_bodies hi hd) ((performAll_append_ok hopen).trans hu)
    (open_ne_loadkey hi) (open_ne_release hi)
  have hcipher : i = .enc ∨ i = .encc ∨ i = .dec ∨ i = .decc := .inr (.inr hi)
  have htags : (t.okBit = true) = (suppliedTag i s = computedTag i s) := by
    rw [hok, decide_eq_true_eq, eq_comm (a := computedTag i s)]
  rw [hmem, xorByteAt_congr (s := { s with nl := nonceOf s }) hmem hkey hnl] at humem
  simp only [← htags]
  exact ⟨_, hexec.trans (congrArg _ (verdict_of_ok hu)),
    { finished := finished_conclude _ u
      text := by
        rw [conclude_mem, humem]
        split
        · exact regionBytes_xorText (s := { s with nl := nonceOf s }) hf.out_le
        · exact regionBytes_zeros hf.out_le
      frame := hframe
      key := hukey
      ctx := hctx.trans (keyed_of_validate_cipher hcipher hv)
      msgLen := hmsg
      errAddr := haddr
      lastCmd := hlast.trans (encode_op_open hi)
      setup := hsetup }⟩

theorem exec_opened_of_match (htag : suppliedTag i s = computedTag i s) :
    ∃ t, exec i s = .next t ∧ OpenedAs i s .ok (xorText s.key (nonceOf s) (textBytes i s)) t := by
  simpa only [if_pos htag] using exec_openedAs hi hb hv hg hh

theorem exec_opened_of_mismatch (htag : suppliedTag i s ≠ computedTag i s) :
    ∃ t, exec i s = .next t ∧ OpenedAs i s .tagMismatch (List.replicate (textLen i s) 0) t := by
  simpa only [if_neg htag] using exec_openedAs hi hb hv hg hh

/-- The round trip (43_decrypt.md R136): from the ciphertext and the tag that command j left, under the same key, nonce and AD, the
text of j. -/
theorem exec_opens_sealed {j : Instr} {p q : State} (hsealed : SealedAs j p q) (hkey : s.key = p.key)
    (hnonce : nonceOf s = nonceOf p) (had : adBytes s = adBytes p)
    (htext : textBytes i s = regionBytes q.mem (addrOf p .out) (textLen j p))
    (htag : suppliedTag i s = loadBytes 16 q.mem (tagOutAddr j p)) :
    ∃ t, exec i s = .next t ∧ FinishedWith .ok t ∧ regionBytes t.mem (addrOf s .out) (textLen i s) = textBytes j p := by
  have hmatch : suppliedTag i s = computedTag i s := by
    rw [htag, hsealed.tag_over_out, computedTag, hkey, hnonce, had, htext]
  obtain ⟨t, ht, h⟩ := exec_opened_of_match hi hb hv hg hh hmatch
  refine ⟨t, ht, h.finished, h.text.trans ?_⟩
  rw [hkey, hnonce, htext, hsealed.text, xorText_xorText]

end Opened

/-- What ENC or ENCC answers, once it is known to be its next state. -/
theorem sealedAs_of_exec {i : Instr} {s t : State} (hi : i = .enc ∨ i = .encc) (hb : busy s = false) (hv : validate i s = none)
    (hg : Granted i s) (hh : HandedOver s) (h : exec i s = .next t) : SealedAs i s t := by
  obtain ⟨t', ht', hsealed⟩ := exec_sealedAs hi hb hv hg hh
  rw [h, Host.Outcome.next.injEq] at ht'
  exact ht' ▸ hsealed

end Sys2Proof.Machine
end

section
/-! The trace of DEC and DECC and its stores (43_decrypt.md R129, R131), and the traces of two runs on different data (R133). -/

namespace Sys2Proof.Machine

/-! ## Stores -/

theorem concludeTrace_no_store (e : ErrCode) (a : Addr) (v : Val) : Elem.act (.wr a v) ∉ concludeTrace e := by
  simp [concludeTrace, scrubOps]

theorem act_mem_map {a : Act} {l : List Act} : Elem.act a ∈ l.map Elem.act ↔ a ∈ l :=
  List.mem_map_of_injective fun _ _ h => Elem.act.inj h

theorem bodyTrace_open {i : Instr} (hi : i = .dec ∨ i = .decc) (s : State) :
    bodyTrace i s = (openActs s (textLen i s) (suppliedTagAddr i s)).map Elem.act ++ [.branch i] := by
  rcases hi with rfl | rfl <;> rfl

/-- With ok = 0 what follows the choice is the zero-fill and then `Scrub(); finish(TagMismatch)` (43_decrypt.md R129). -/
theorem verdictTrace_reject {s : State} (h : s.okBit = false) (i : Instr) :
    verdictTrace i s = (zeroFill (addrOf s .out) (textLen i s)).map Elem.act ++ concludeTrace .tagMismatch := by
  rw [verdictTrace, h, if_neg Bool.false_ne_true, rejectActs]

/-! ## Two runs -/

/-- s and t stand at the same point of the same trace, and agree on what the rest of a trace is made from. -/
structure SameTrace (s t : State) : Prop where
  desc : t.desc = s.desc
  present : t.present = s.present
  ctx : t.ctx = s.ctx
  rdFail : t.rdFail = s.rdFail
  wrFail : t.wrFail = s.wrFail
  seq : t.seq = s.seq

/-- Two runs perform an element and still agree, whatever byte is read, stored or latched. -/
theorem SameTrace.outcome {s t : State} (h : SameTrace s t) (a : Act) :
    SameTrace (outcomeState (Machine.perform a s)) (outcomeState (Machine.perform a t)) := by
  have hs := perform_control a s
  have ht := perform_control a t
  have hctx : (outcomeState (Machine.perform a t)).ctx = (outcomeState (Machine.perform a s)).ctx := by
    by_cases ha : ∃ c, a = .reg (.setCtx c)
    · obtain ⟨c, rfl⟩ := ha
      rfl
    · have ha' : ∀ c, a ≠ .reg (.setCtx c) := fun c hc => ha ⟨c, hc⟩
      rw [perform_ctx ha', perform_ctx ha', h.ctx]
  exact
    { desc := by rw [ht.desc, h.desc, hs.desc]
      present := by rw [ht.present, h.present, hs.present]
      ctx := hctx
      rdFail := by rw [ht.rdFail, h.rdFail, hs.rdFail]
      wrFail := by rw [ht.wrFail, h.wrFail, hs.wrFail]
      seq := by rw [ht.seq, h.seq, hs.seq] }

theorem SameTrace.withSeq {s t : State} (h : SameTrace s t) (p : Seq) : SameTrace { s with seq := p } { t with seq := p } :=
  { h with seq := rfl }

/-- An element completes exactly when its access, if it is one, is granted (00_scope.md R7). -/
theorem perform_isOk (a : Act) (s : State) : (perform a s).isOk = (failAddr s [a]).isNone := by
  cases a with
  | reg r => rfl
  | rd x =>
    rw [perform, dmaRead, failAddr]
    cases rdOk s x with
    | true => cases ordinary s x <;> rfl
    | false => rfl
  | wr x v =>
    rw [perform, dmaWrite, failAddr]
    cases wrOk s x with
    | true => cases ordinary s x <;> rfl
    | false => rfl

theorem bodyTrace_congr {s t : State} (hd : t.desc = s.desc) (hp : t.present = s.present) (i : Instr) :
    bodyTrace i t = bodyTrace i s := by
  cases i <;> simp only [bodyTrace, loadkeyActs, encActs, enccActs, decVerifyActs, deccVerifyActs, taginActs, textLen_congr hd,
    adLen_congr hd hp, addrOf_congr hd]

theorem verdictTrace_congr {s t : State} (hd : t.desc = s.desc) (hok : t.okBit = s.okBit) (i : Instr) :
    verdictTrace i t = verdictTrace i s := by
  simp only [verdictTrace, hok, acceptActs_congr hd, rejectActs_congr hd]

/-- The turn of an element: both runs go on, or both raise BusError. -/
theorem SameTrace.seqStep_act {s t s' t' : State} {c : Option Instr} {a : Act} {rest : List Elem} (h : SameTrace s t)
    (hseq : s.seq = .run c (.act a :: rest)) (hs : seqStep s = .next s') (ht : seqStep t = .next t') : SameTrace s' t' := by
  have hout := h.outcome a
  have hok : (perform a t).isOk = (perform a s).isOk := by
    rw [perform_isOk, perform_isOk, failAddr_congr h.rdFail h.wrFail]
  simp only [seqStep, hseq, h.seq] at hs ht
  cases hps : perform a s <;> cases hpt : perform a t <;> rw [hps, hpt] at hok hout <;> simp only [hps, hpt] at hs ht
  · cases hs; cases ht; exact hout.withSeq _
  · cases hok
  · cases hok
  · cases hs; cases ht; exact hout.withSeq _

/-- A sequencer step of two runs that agree on ok (43_decrypt.md R133). -/
theorem SameTrace.seqStep {s t s' t' : State} (h : SameTrace s t) (hok : s.okBit = t.okBit)
    (hs : Machine.seqStep s = .next s') (ht : Machine.seqStep t = .next t') : SameTrace s' t' := by
  match hseq : s.seq with
  | .run c (.act a :: rest) => exact h.seqStep_act hseq hs ht
  | .idle =>
    simp only [Machine.seqStep, h.seq, hseq] at hs ht
    cases hs; cases ht; exact h
  | .run c [] =>
    simp only [Machine.seqStep, hseq] at hs
    cases hs
  | .run c (.validate i :: rest) =>
    simp only [Machine.seqStep, h.seq, hseq, validate_congr h.desc h.present h.ctx, bodyTrace_congr h.desc h.present] at hs ht
    cases hv : validate i s <;> rw [hv] at hs ht <;> (cases hs; cases ht; exact h.withSeq _)
  | .run c (.branch i :: rest) =>
    simp only [Machine.seqStep, h.seq, hseq, verdictTrace_congr h.desc hok.symm] at hs ht
    cases hs; cases ht; exact h.withSeq _
  | .run c (.finish e :: rest) =>
    simp only [Machine.seqStep, h.seq, hseq] at hs ht
    cases hs; cases ht; exact { h with seq := rfl }

/-- A run of one more step is a step and then a run. -/
theorem seqRun_succ_eq_next {n : Nat} {s t : State} :
    seqRun (n + 1) s = .next t ↔ ∃ u, seqStep s = .next u ∧ seqRun n u = .next t := by
  rw [seqRun]
  cases seqStep s <;> simp

theorem SameTrace.seqRun {n : Nat} {s t s' t' : State} (h : SameTrace s t) (hs : Machine.seqRun n s = .next s')
    (ht : Machine.seqRun n t = .next t')
    (hok : ∀ m < n, ∀ u v, Machine.seqRun m s = .next u → Machine.seqRun m t = .next v → u.okBit = v.okBit) :
    SameTrace s' t' := by
  induction n generalizing s t with
  | zero => cases hs; cases ht; exact h
  | succ n ih =>
    obtain ⟨s₁, hs₁, hs'⟩ := seqRun_succ_eq_next.mp hs
    obtain ⟨t₁, ht₁, ht'⟩ := seqRun_succ_eq_next.mp ht
    have hfirst : SameTrace s₁ t₁ := h.seqStep (hok 0 (Nat.succ_pos n) s t rfl rfl) hs₁ ht₁
    exact ih hfirst hs' ht' fun m hm u v hu hv => hok (m + 1) (Nat.succ_lt_succ hm) u v
      (seqRun_succ_eq_next.mpr ⟨s₁, hs₁, hu⟩) (seqRun_succ_eq_next.mpr ⟨t₁, ht₁, hv⟩)

end Sys2Proof.Machine
end

section
/-! What the register window shows of DEC and DECC in two runs with the same verdict (43_decrypt.md R133, 60_exceptions.md R145). -/

namespace Sys2Proof.Machine

/-- Acceptance of one command in two states that agree on what it leaves of the window. -/
theorem begun_sameWindow (i : Instr) {s t : State} (hwign : t.wign = s.wign) (hctx : t.ctx = s.ctx) (hdoneIe : t.doneIe = s.doneIe)
    (hpresent : t.present = s.present) (hdesc : t.desc = s.desc) (hrdFail : t.rdFail = s.rdFail) (hwrFail : t.wrFail = s.wrFail) :
    SameWindow (begun i s) (begun i t) :=
  { done := rfl, errCode := rfl, lastCmd := rfl, msgLen := rfl, errAddr := rfl, seq := rfl
    wign := hwign, ctx := hctx, doneIe := hdoneIe, present := hpresent, desc := hdesc, rdFail := hrdFail, wrFail := hwrFail }

theorem openActs_congr {s t : State} (hd : t.desc = s.desc) (hp : t.present = s.present) (n : Nat) (ta : Addr) :
    openActs t n ta = openActs s n ta := by
  simp only [openActs, adLen_congr hd hp, addrOf_congr hd]

theorem suppliedTagAddr_congr {s t : State} (hd : t.desc = s.desc) (i : Instr) : suppliedTagAddr i t = suppliedTagAddr i s := by
  cases i <;> simp only [suppliedTagAddr, addrOf_congr hd, textLen_congr hd]

/-- The choice on the same bit ok, and what follows it. -/
theorem verdict_sameWindow {s t : State} (h : SameWindow s t) (hok : t.okBit = s.okBit) (i : Instr) :
    SameWindow (verdict i s) (verdict i t) := by
  unfold verdict
  rw [hok, acceptActs_congr h.desc, rejectActs_congr h.desc]
  cases s.okBit <;> exact runActs_sameWindow h _ _

/-- DEC and DECC in two runs in which the tag matches in both or in neither, every access granted. -/
theorem decrypt_sameWindow {i : Instr} {s t : State} (hi : i = .dec ∨ i = .decc) (hbs : busy s = false) (hbt : busy t = false)
    (h : SameWindow (begun i s) (begun i t)) (hgs : Granted i s) (hgt : Granted i t) (hhs : HandedOver s) (hht : HandedOver t)
    (htag : suppliedTag i s = computedTag i s ↔ suppliedTag i t = computedTag i t) :
    ∃ u v, exec i s = .next u ∧ exec i t = .next v ∧ SameWindow u v := by
  have hd : t.desc = s.desc := h.desc
  have hp : t.present = s.present := h.present
  have hval : validate i t = validate i s := validate_congr hd hp h.ctx i
  cases hv : validate i s with
  | some e =>
    exact ⟨_, _, exec_failed hbs (open_ne_release hi) hv, exec_failed hbt (open_ne_release hi) (hval.trans hv), h.conclude e⟩
  | none =>
    obtain ⟨u, hus, hxs, -, -, -, -, hoks⟩ := decrypt_verdict hi hbs hv hgs.1 hhs
    obtain ⟨v, hvt, hxt, -, -, -, -, hokt⟩ := decrypt_verdict hi hbt (hval.trans hv) hgt.1 hht
    have hok : v.okBit = u.okBit := by
      rw [hoks, hokt, decide_eq_decide, eq_comm, ← htag, eq_comm]
    have hopen := performAll_sameWindow h (openActs (begun i s) (textLen i s) (suppliedTagAddr i s))
    rw [openActs_congr h.desc h.present, textLen_congr hd, suppliedTagAddr_congr hd] at hvt
    rw [hus, hvt] at hopen
    exact ⟨_, _, hxs, hxt, verdict_sameWindow hopen hok i⟩

/-- A command run whole on an idle block leaves it scrubbed (10_state.md R45). -/
theorem exec_scrubbed {i : Instr} {s t : State} (hinv : Inv s) (hb : busy s = false) (h : exec i s = .next t) :
    scrubbed t = true := by
  rw [exec_idle hb, Host.Outcome.next.injEq] at h
  exact h ▸ (command_inv hinv hb i).scrubbed_of_idle (command_idle i _)

end Sys2Proof.Machine
end

section
/-! The statements about decryption (43_decrypt.md), settled from the lemmas above. -/

namespace Sys2Proof.Settled

open Sys2Proof.Machine

/-- Settles O47: `ctEqual_spec` gives the state CtEqual leaves whole, and its elements are a fixed list. -/
theorem comparator : Obligations.Comparator := by
  refine ⟨fun s => ⟨_, ctEqual_spec s, ?_, rfl, rfl, rfl, rfl, rfl⟩, by decide⟩
  rw [decide_eq_true_eq]
  exact ⟨fun h _ _ => h ▸ rfl, vector_ext_byteAt⟩

/-- Settles O48: `exec_openedAs` with the tags equal. -/
theorem decryptAccepts : Obligations.DecryptAccepts := by
  intro i s hi hb hv hg hh htag
  obtain ⟨t, ht, h⟩ := exec_opened_of_match hi hb hv hg hh htag
  exact ⟨t, ht, h.finished, h.text, h.frame, h.key, h.ctx, h.msgLen, h.errAddr, h.lastCmd, h.setup⟩

/-- Settles O49: the stores of the reject branch are those of the zero-fill, and `exec_openedAs` with the tags different. -/
theorem decryptRejects : Obligations.DecryptRejects := by
  refine ⟨fun i s hok => ?_, fun i s hi hb hv hg hh htag => ?_⟩
  · rw [verdictTrace_reject hok, List.filterMap_append, zeroFill, List.map_map, List.filterMap_map]
    exact (List.append_nil _).trans (congrFun List.filterMap_eq_map _)
  · obtain ⟨t, ht, h⟩ := exec_opened_of_mismatch hi hb hv hg hh htag
    exact ⟨t, ht, h.finished, h.text, h.frame, h.key, h.ctx, h.msgLen, h.errAddr, h.lastCmd, h.setup⟩

/-- Settles O50: `exec_opens_sealed`, with what ENC and ENCC leave by `exec_sealedAs`. -/
theorem roundTrip : Obligations.RoundTrip := by
  refine ⟨fun s t u hb hv hg hh hexec hbu hvu hgu hhu hkey hnonce had htext htag => ?_,
    fun s t u hb hv hg hh hexec hbu hvu hgu hhu hkey hnonce had htext htag => ?_⟩
  · exact exec_opens_sealed (.inl rfl) hbu hvu hgu hhu (sealedAs_of_exec (.inl rfl) hb hv hg hh hexec) hkey hnonce had htext htag
  · exact exec_opens_sealed (.inr rfl) hbu hvu hgu hhu (sealedAs_of_exec (.inr rfl) hb hv hg hh hexec) hkey hnonce had htext htag

/-- Settles O52: the elements before the choice have no store, and those of the reject branch are the zero-fill's. -/
theorem noKeystreamBeforeVerdict : Obligations.NoKeystreamBeforeVerdict := by
  intro i s hi
  refine ⟨fun a v h => ?_, fun a v h => ?_, fun hok a v h => ?_⟩
  · rcases hi with rfl | rfl <;> cases List.mem_singleton.mp h
  · rw [bodyTrace_open hi, List.mem_append, act_mem_map, List.mem_singleton] at h
    rcases h with h | h
    · exact wr_not_mem_openActs _ _ _ _ _ h
    · cases h
  · rw [verdictTrace_reject hok, List.mem_append, act_mem_map] at h
    obtain ⟨k, -, hk⟩ := List.mem_map.mp (h.resolve_right (concludeTrace_no_store _ a v))
    cases hk
    rfl

/-- Settles O53: the two runs start at the same point of the same trace, and no step takes them apart. -/
theorem traceIndependentOfData : Obligations.TraceIndependentOfData := by
  intro w s t hdesc hpresent hctx hrdFail hwrFail n s' t' hs ht hok
  have hstart : SameTrace (acceptWord w s) (acceptWord w t) :=
    { desc := hdesc.symm, present := hpresent.symm, ctx := hctx.symm, rdFail := hrdFail.symm, wrFail := hwrFail.symm, seq := rfl }
  exact (hstart.seqRun hs ht hok).seq.symm

/-- Settles O60: the two runs go in step up to the choice on ok, make the same choice, and both end scrubbed. -/
theorem decryptWindowShowsOnlyVerdict : Obligations.DecryptWindowShowsOnlyVerdict := by
  intro i s₁ s₂ hi hinv₁ hinv₂ hb₁ hb₂ hwign hctx hdoneIe hpresent hdesc hrdFail hwrFail hg₁ hg₂ hh₁ hh₂ htag
  have hbegun := begun_sameWindow i hwign.symm hctx.symm hdoneIe.symm hpresent.symm hdesc.symm hrdFail.symm hwrFail.symm
  obtain ⟨t₁, t₂, ht₁, ht₂, h⟩ := decrypt_sameWindow hi hb₁ hb₂ hbegun hg₁ hg₂ hh₁ hh₂ htag
  have hscr := (exec_scrubbed hinv₂ hb₂ ht₂).trans (exec_scrubbed hinv₁ hb₁ ht₁).symm
  exact ⟨t₁, t₂, ht₁, ht₂, fun off bytes => (h.portRead hscr off bytes).symm⟩

end Sys2Proof.Settled
end

section
/-! How every command ends (60_exceptions.md): the codes Validate can raise for each command (R138), what a bus error records
(20_memory.md R54), MSGLEN (42_tag_input.md R124), and the interrupt line (60_exceptions.md R146). -/

namespace Sys2Proof.Machine

/-! ## The codes of each command (60_exceptions.md R138) -/

/-- The code of the first failing check is that of a check that fails. -/
theorem firstFailure_mem {l : List (Bool × ErrCode)} {e : ErrCode} (h : firstFailure l = some e) : (true, e) ∈ l := by
  induction l with
  | nil => cases h
  | cons c l ih =>
    obtain ⟨b, e'⟩ := c
    cases b with
    | true =>
      cases h
      exact List.mem_cons_self ..
    | false => exact List.mem_cons_of_mem _ (ih h)

/-- The codes Validate can raise for a command: those of the checks it has (40_context.md R86 to R94). -/
def validateCodes : Instr → List ErrCode
  | .loadkey => [.invalidKey, .addressRange]
  | .enc | .dec | .decc => [.contextUnusable, .missingArgument, .lengthMismatch, .invalidNonceLength, .invalidTagLength,
      .lengthOverflow, .addressRange, .bufferOverlap]
  | .encc => [.contextUnusable, .missingArgument, .lengthMismatch, .invalidNonceLength, .lengthOverflow, .addressRange,
      .bufferOverlap]
  | .tagin => [.missingArgument, .lengthMismatch, .lengthOverflow, .addressRange, .bufferOverlap]
  | .release => []

/-- Validate raises only codes of the checks that the command has: the others pass by definition. -/
theorem validate_mem_validateCodes {i : Instr} {s : State} {e : ErrCode} (h : validate i s = some e) : e ∈ validateCodes i := by
  have hcheck := firstFailure_mem h
  cases i with
  | release => rw [validate_release] at h; cases h
  | loadkey => rcases validate_loadkey_codes h with rfl | rfl <;> decide
  | _ =>
    simp only [checks, failsContext, failsKey, failsTag, failsNonce, List.mem_cons, Prod.mk.injEq, Bool.true_eq_false, false_and,
      List.not_mem_nil, false_or, or_false] at hcheck
    simp only [validateCodes, List.mem_cons, List.not_mem_nil, or_false]
    tauto

/-! ## The access a bus error records (20_memory.md R54) -/

/-- An access of address x that command i makes and the platform does not grant. -/
def RefusedAccess (i : Instr) (s : State) (x : Addr) : Prop :=
  (ReadsAt i s x ∧ rdOk s x = false) ∨ (WritesAt i s x ∧ wrOk s x = false)

/-- RELEASE makes no access. -/
theorem not_refusedAccess_release (s : State) (x : Addr) : ¬ RefusedAccess .release s x := by
  simp [RefusedAccess, ReadsAt, WritesAt, readsOf, writesOf]

/-- A body that stops has ERRADDR at the access that stopped it. -/
theorem body_error_refusedAccess {i : Instr} {s u : State} {p : List Act × ErrCode} (hp : p ∈ bodies i (begun i s))
    (hu : performAll p.1 (begun i s) = .error u) : RefusedAccess i s u.errAddr := by
  obtain ⟨hreads, hwrites⟩ := bodies_accesses hp
  rcases performAll_outcome p.1 (begun i s) with ⟨-, t, ht⟩ | ⟨a, v, ha, hv, -, -⟩
  · rw [hu] at ht; cases ht
  · rw [hu, Except.error.injEq] at hv
    rw [hv, busErrorAt_errAddr]
    rcases failAddr_eq_some ha with ⟨hmem, hfail⟩ | ⟨x, hmem, hfail⟩
    · exact .inl ⟨hreads a hmem, hfail⟩
    · exact .inr ⟨hwrites a x hmem, hfail⟩

/-! ## MSGLEN (42_tag_input.md R124) -/

/-- The length a finished command shows in MSGLEN. -/
def recordedLength (i : Instr) (s : State) : Nat :=
  if i ≠ .loadkey ∧ i ≠ .release ∧ validate i s = none then messageLen (adLen s) (textLen i s) else 0

theorem body_msgLen {i : Instr} {s : State} {p : List Act × ErrCode} (hv : i = .release ∨ validate i s = none)
    (hp : p ∈ bodies i (begun i s)) : (outcomeState (performAll p.1 (begun i s))).msgLen.toNat = recordedLength i s := by
  by_cases h1 : i = .loadkey
  · subst h1
    rw [loadkey_msgLen hp]
    rfl
  by_cases h2 : i = .release
  · subst h2
    rw [bodies, List.mem_singleton] at hp
    subst hp
    rfl
  replace hv := hv.resolve_left h2
  rw [recordedLength, if_pos ⟨h1, h2, hv⟩, bodies_msgLen h1 h2 hp]
  exact messageLen_toNat h1 h2 hv

/-! ## What a command leaves behind (60_exceptions.md R139, R143) -/

/-- The end of command i, begun in s: one code of the command, and the registers that record how it came to it. -/
structure EndsAs (i : Instr) (s t : State) : Prop where
  finished : FinishedWith t.errCode t
  code : t.errCode ∈ validateCodes i ∨ t.errCode = .ok ∨ (t.errCode = .tagMismatch ∧ (i = .dec ∨ i = .decc)) ∨
    t.errCode = .busError
  errAddr_zero : t.errCode ≠ .busError → t.errAddr = 0
  errAddr_refused : t.errCode = .busError → RefusedAccess i s t.errAddr
  msgLen : t.msgLen.toNat = recordedLength i s
  lastCmd : t.lastCmd = (encode i).extractLsb' 0 4
  doneIe : t.doneIe = s.doneIe

/-- Every command ends: Validate fails, or a body completes, or an access stops it. -/
theorem exec_endsAs (i : Instr) {s : State} (hb : busy s = false) : ∃ t, exec i s = .next t ∧ EndsAs i s t := by
  rcases exec_cases (i := i) hb with ⟨e, -, hv, hx⟩ | ⟨hv, p, hp, ⟨u, hu, hx⟩ | ⟨u, hu, hx⟩⟩
  · obtain ⟨-, -, -, hbus⟩ := validate_codes hv
    exact ⟨_, hx,
      { finished := finished_conclude e _
        code := .inl (validate_mem_validateCodes hv)
        errAddr_zero := fun _ => rfl
        errAddr_refused := fun h => absurd h hbus
        msgLen := by simp [recordedLength, hv, begun]
        lastCmd := rfl
        doneIe := rfl }⟩
  · have hcontrol := performAll_control_ok hu
    have hcode := bodies_codes hp
    have hmsg := body_msgLen hv hp
    rw [hu] at hmsg
    refine ⟨_, hx,
      { finished := finished_conclude p.2 u
        code := .inr (hcode.imp_right .inl)
        errAddr_zero := fun _ => performAll_errAddr hu
        errAddr_refused := fun h => ?_
        msgLen := hmsg
        lastCmd := hcontrol.lastCmd
        doneIe := hcontrol.doneIe }⟩
    rw [conclude_errCode] at h
    rw [h] at hcode
    rcases hcode with hc | ⟨hc, -⟩ <;> cases hc
  · have hcontrol := performAll_control_error hu
    have hmsg := body_msgLen hv hp
    rw [hu] at hmsg
    exact ⟨_, hx,
      { finished := finished_conclude .busError u
        code := .inr (.inr (.inr rfl))
        errAddr_zero := fun h => absurd rfl h
        errAddr_refused := fun _ => body_error_refusedAccess (u := u) hp hu
        msgLen := hmsg
        lastCmd := hcontrol.lastCmd
        doneIe := hcontrol.doneIe }⟩

/-! ## The register pairs and the interrupt line -/

theorem portRead_errAddr_pair {s : State} (hb : busy s = false) :
    (portRead 0x02C 4 s).toNat * 2 ^ 32 + (portRead 0x028 4 s).toNat = s.errAddr.toNat := by
  rw [toNat_halves s.errAddr, ← shownErrAddr_idle hb]
  rfl

theorem portRead_msgLen_pair (s : State) :
    (portRead 0x024 4 s).toNat * 2 ^ 32 + (portRead 0x020 4 s).toNat = s.msgLen.toNat :=
  (toNat_halves s.msgLen).symm

theorem portRead_irqEn_bit (s : State) : (portRead 0x010 4 s).getLsbD 0 = s.doneIe := by
  rw [portRead_of_accessed accessed_irqEn, readReg, BitVec.getLsbD_append, if_pos Nat.one_pos]
  exact bit_getElem s.doneIe

theorem portWrite_irqEn (v : Word) (s : State) : portWrite 0x010 4 v s = { s with doneIe := v.getLsbD 0 } :=
  portWrite_of_accessed accessed_irqEn v s

theorem irq_eq_false_of_done {s : State} (h : s.done = false) : irq s = false := by rw [irq, h, Bool.false_and]

/-- A finished command sets DONE, so the line follows DONE_IE. -/
theorem irq_of_done {s : State} (h : s.done = true) : irq s = s.doneIe := by rw [irq, h, Bool.true_and]

end Sys2Proof.Machine
end

section
/-! The statements about exceptions and the interrupt line (60_exceptions.md), settled from the lemmas above. -/

namespace Sys2Proof.Settled

open Sys2Proof.Machine

/-- Settles O54: a command ends with a code Validate can raise for it, with that of its body, or with BusError, which RELEASE,
having no access, cannot. -/
theorem codesOfCommands : Obligations.CodesOfCommands := by
  intro i s hb
  refine ⟨?_, fun w => ⟨_, runIllegal_idle hb w, refuseWord_finished w s⟩⟩
  obtain ⟨t, ht, h⟩ := exec_endsAs i hb
  refine ⟨t, ht, h.finished, ?_⟩
  have hcode := h.code
  have hrefused := h.errAddr_refused
  generalize t.errCode = e at hcode hrefused ⊢
  rcases hcode with hcode | rfl | ⟨rfl, rfl | rfl⟩ | rfl
  · clear hrefused
    revert e
    cases i <;> decide
  · cases i <;> decide
  · decide
  · decide
  · cases i with
    | release => exact absurd (hrefused rfl) (not_refusedAccess_release s _)
    | _ => decide

/-- Settles O55: STATUS and the register pairs show what `EndsAs` says of the state the command leaves. -/
theorem finishRecords : Obligations.FinishRecords := by
  intro i s hb
  obtain ⟨t, ht, h⟩ := exec_endsAs i hb
  obtain ⟨hidle, -⟩ := h.finished
  refine ⟨t, ht, statusWord_errCode t, ?_, portRead_errAddr_pair hidle, portRead_msgLen_pair t, h.errAddr_zero,
    fun he => ?_, h.msgLen⟩
  · rw [portRead_status, statusWord_lastCmd, h.lastCmd]
  · rcases h.errAddr_refused he with ⟨⟨r, hr, k, hk, hx⟩, hfail⟩ | ⟨⟨w, hw, k, hk, hx⟩, hfail⟩
    · exact .inl ⟨r, hr, k, hk, hx, hfail⟩
    · exact .inr ⟨w, hw, k, hk, hx, hfail⟩

/-- Settles O16: a finish sets DONE and keeps DONE_IE; acceptance, reset and writing 1 to DONE clear DONE. -/
theorem interruptLine : Obligations.InterruptLine := by
  intro s
  refine ⟨?_, fun i t hb h => ?_, fun w t hb h => ?_, fun v => ?_, fun v hv => ?_, fun w => ?_, ?_⟩
  · rw [portRead_status, statusWord_done, portRead_irqEn_bit, irq]
  · obtain ⟨t', ht', hend⟩ := exec_endsAs i hb
    rw [h] at ht'
    cases ht'
    obtain ⟨-, hdone, -⟩ := hend.finished
    exact (irq_of_done hdone).trans hend.doneIe
  · rw [runIllegal_idle hb] at h
    cases h
    exact irq_of_done rfl
  · rw [portWrite_irqEn]
    exact ⟨rfl, rfl⟩
  · rw [portWrite_status]
    exact irq_eq_false_of_done (by rw [hv, Bool.not_true, Bool.and_false])
  · exact irq_eq_false_of_done rfl
  · exact irq_eq_false_of_done rfl

end Sys2Proof.Settled
end

section
/-! What a reset leaves of the block's registers (70_reset_and_hazards.md R158), and of data memory while a command runs (R159): the
writes undone or the elements still performed come to the first elements of the command's trace. -/

namespace Sys2Proof.Machine

/-! ## The block's registers -/

/-- The block is as after power-up, whatever it was doing (70_reset_and_hazards.md R157). -/
theorem resetStep_sameKept (s : State) : SameKept State.reset (resetStep s) := by constructor <;> rfl

theorem scrubbed_resetStep (s : State) : scrubbed (resetStep s) = true :=
  (resetStep_sameKept s).scrubbed.trans (by decide)

/-! ## Sequencer steps -/

/-- Everything a sequencer step that goes on can do: finish, move on in its trace, or perform one element and move on. -/
theorem seqStep_cases {s t : State} (h : seqStep s = .next t) :
    (∃ e, t = finish e s) ∨ (∃ p, t = { s with seq := p }) ∨ ∃ a p, t = { outcomeState (perform a s) with seq := p } := by
  unfold seqStep at h
  split at h
  · cases h; exact .inr (.inl ⟨s.seq, rfl⟩)
  · cases h
  · split at h <;> (cases h; exact .inr (.inl ⟨_, rfl⟩))
  · cases h; exact .inr (.inl ⟨_, rfl⟩)
  · next c a rest _ =>
    refine .inr (.inr ⟨a, ?_⟩)
    split at h <;> (next hp => cases h; exact ⟨_, by rw [hp]; rfl⟩)
  · cases h; exact .inl ⟨_, rfl⟩

/-- A step of a command that still runs after it. -/
theorem seqStep_cases_of_busy {s t : State} (h : seqStep s = .next t) (ht : busy t = true) :
    (∃ p, t = { s with seq := p }) ∨ ∃ a p, t = { outcomeState (perform a s) with seq := p } := by
  rcases seqStep_cases h with ⟨e, rfl⟩ | h
  · cases ht
  · exact h

/-- An idle sequencer stays idle (70_reset_and_hazards.md R178). -/
theorem busy_of_seqStep {s t : State} (h : seqStep s = .next t) (ht : busy t = true) : busy s = true := by
  cases hs : s.seq with
  | run c l => rw [busy, hs]
  | idle =>
    rw [seqStep, hs] at h
    cases h
    exact ht

/-- Only the finish ends a command. -/
theorem busy_seqStep {s t : State} (hb : busy s = true) (hf : atFinish s = false) (h : seqStep s = .next t) : busy t = true := by
  unfold seqStep at h
  split at h
  · cases h; exact hb
  · cases h
  · split at h <;> (cases h; rfl)
  · cases h; rfl
  · split at h <;> (cases h; rfl)
  · next hs =>
    rw [atFinish, hs] at hf
    cases hf

/-- A run of one more step is a run and then a step. -/
theorem seqRun_snoc {n : Nat} {s t : State} : seqRun (n + 1) s = .next t ↔ ∃ u, seqRun n s = .next u ∧ seqStep u = .next t := by
  rw [seqRun_add]
  cases seqRun n s with
  | next u =>
    simp only [seqRun, Host.Outcome.next.injEq, exists_eq_left']
    cases seqStep u <;> rfl
  | fault r => simp
  | refused r => simp

/-! ## Writes undone (93_implementation_defined.md U8) -/

theorem memRead_write (m : List Host.Cell) (a : Nat) (b : Byte) (x : Nat) :
    memRead (memWrite m a b) x = if x = a then b else memRead m x := by
  split
  · next h => rw [h, memRead_write_same]
  · next h => exact memRead_write_other m b h

/-- Memories that read the same still do with the same writes undone. -/
theorem memRead_rollBack_congr (k : Nat) (l : List Host.Cell) {m m' : List Host.Cell} (h : ∀ x, memRead m x = memRead m' x) (x : Nat) :
    memRead (rollBack k l m) x = memRead (rollBack k l m') x := by
  induction l generalizing k m m' with
  | nil => cases k <;> exact h x
  | cons c l ih =>
    cases k with
    | zero => exact h x
    | succ k => exact ih k fun y => by rw [memRead_write, memRead_write, h]

/-- Undoing the newest write first gives memory as it was before that write. -/
theorem memRead_rollBack_write (k : Nat) (l m : List Host.Cell) (a : Nat) (b : Byte) (x : Nat) :
    memRead (rollBack (k + 1) ((a, memRead m a) :: l) (memWrite m a b)) x = memRead (rollBack k l m) x := by
  refine memRead_rollBack_congr k l (fun y => ?_) x
  rw [memRead_write, memRead_write]
  split
  · next h => rw [h]
  · rfl

/-- An element leaves memory and the log of replaced bytes alone, or stores one byte and logs the byte it replaces. -/
theorem perform_logs (a : Act) (s : State) :
    ((outcomeState (perform a s)).mem = s.mem ∧ (outcomeState (perform a s)).undo = s.undo) ∨
    ∃ x b, (outcomeState (perform a s)).mem = memWrite s.mem x b ∧
      (outcomeState (perform a s)).undo = (x, memRead s.mem x) :: s.undo := by
  cases a with
  | reg r => exact .inl ⟨performReg_mem r s, performReg_undo r s⟩
  | rd x => rcases dmaRead_cases x s with ⟨b, d, h⟩ | h <;> exact .inl (by simp [perform, h])
  | wr x v =>
    rcases dmaWrite_cases x (valOf s v) s with h | h | h
    · exact .inr ⟨x.toNat, valOf s v, by simp [perform, h]⟩
    · exact .inl (by simp [perform, h])
    · exact .inl (by simp [perform, h])

/-- Memory with the newest writes of a running command undone is memory after some number of its elements. -/
theorem memRead_rollBack_reached {n : Nat} {s t : State} (hundo : s.undo = []) (h : seqRun n s = .next t) (ht : busy t = true) (k : Nat) :
    ∃ m u, seqRun m s = .next u ∧ busy u = true ∧ ∀ x, memRead (rollBack k t.undo t.mem) x = memRead u.mem x := by
  induction n generalizing t k with
  | zero =>
    cases h
    exact ⟨0, s, rfl, ht, fun x => by rw [hundo]; cases k <;> rfl⟩
  | succ n ih =>
    obtain ⟨u, hu, hstep⟩ := seqRun_snoc.mp h
    have hub := busy_of_seqStep hstep ht
    have hlogs : (t.mem = u.mem ∧ t.undo = u.undo) ∨
        ∃ x b, t.mem = memWrite u.mem x b ∧ t.undo = (x, memRead u.mem x) :: u.undo := by
      rcases seqStep_cases_of_busy hstep ht with ⟨p, rfl⟩ | ⟨a, p, rfl⟩
      · exact .inl ⟨rfl, rfl⟩
      · exact perform_logs a u
    rcases hlogs with ⟨hmem, hlog⟩ | ⟨a, b, hmem, hlog⟩
    · rw [hmem, hlog]
      exact ih hu hub k
    · cases k with
      | zero => exact ⟨n + 1, t, h, ht, fun _ => rfl⟩
      | succ k =>
        obtain ⟨m, v, hv, hvb, hread⟩ := ih hu hub k
        refine ⟨m, v, hv, hvb, fun x => ?_⟩
        rw [hmem, hlog, memRead_rollBack_write, hread]

/-! ## Elements still performed: without a free value the number of the next draw does not matter -/

/-- No access of the block draws a free value: memory is ordinary, and no replaced byte is kept for its reads. -/
structure Undrawn (s : State) : Prop where
  special : s.special = []
  blockStale : s.blockStale = []

/-- s with another number for the next draw. -/
def withDraws (d : Nat) (s : State) : State := { s with draws := d }

theorem Undrawn.ordinary {s : State} (h : Undrawn s) (a : Addr) : ordinary s a = true := by
  rw [Machine.ordinary, h.special]
  rfl

/-- Acceptance of a word when every host store has been handed over (20_memory.md R63). -/
theorem undrawn_acceptWord {s : State} (hs : s.special = []) (hh : HandedOver s) (w : Word) : Undrawn (acceptWord w s) := by
  refine ⟨hs, ?_⟩
  rw [acceptWord, accept_blockStale]
  rcases hh with hc | hst
  · rw [if_pos hc]
  · rw [hst, ite_self]

theorem Undrawn.outcome {s : State} (h : Undrawn s) (a : Act) : Undrawn (outcomeState (perform a s)) := by
  refine ⟨(perform_control a s).special.trans h.special, ?_⟩
  cases a with
  | reg r => exact (performReg_blockStale r s).trans h.blockStale
  | rd x => rcases dmaRead_cases x s with ⟨b, d, h'⟩ | h' <;> simp [perform, h', h.blockStale]
  | wr x v => rcases dmaWrite_cases x (valOf s v) s with h' | h' | h' <;> simp [perform, h', h.blockStale]

theorem Undrawn.seqStep {s t : State} (hs : Undrawn s) (h : seqStep s = .next t) (ht : busy t = true) : Undrawn t := by
  rcases seqStep_cases_of_busy h ht with ⟨p, rfl⟩ | ⟨a, p, rfl⟩
  · exact ⟨hs.special, hs.blockStale⟩
  · exact ⟨(hs.outcome a).special, (hs.outcome a).blockStale⟩

theorem Undrawn.seqRun {n : Nat} {s t : State} (hs : Undrawn s) (h : seqRun n s = .next t) (ht : busy t = true) : Undrawn t := by
  induction n generalizing t with
  | zero => cases h; exact hs
  | succ n ih =>
    obtain ⟨u, hu, hstep⟩ := seqRun_snoc.mp h
    exact (ih hu (busy_of_seqStep hstep ht)).seqStep hstep ht

theorem Undrawn.perform_withDraws {s : State} (h : Undrawn s) (d : Nat) (a : Act) :
    perform a (withDraws d s) = (match perform a s with | .ok t => .ok (withDraws d t) | .error t => .error (withDraws d t)) := by
  have hrun : running (withDraws d s) = running s := rfl
  have herr : ∀ x, busErrorAt x (withDraws d s) = withDraws d (busErrorAt x s) := fun x => by
    unfold busErrorAt
    rw [hrun]
    split <;> rfl
  cases a with
  | reg r => cases r <;> rfl
  | rd x =>
    simp only [perform]
    cases hr : rdOk s x with
    | true => rw [dmaRead_ok hr (h.ordinary x) h.blockStale, dmaRead_ok (s := withDraws d s) hr (h.ordinary x) h.blockStale]; rfl
    | false => rw [dmaRead_error hr, dmaRead_error (s := withDraws d s) hr, herr]
  | wr x v =>
    have hv : valOf (withDraws d s) v = valOf s v := by cases v <;> rfl
    simp only [perform, hv]
    cases hw : wrOk s x with
    | true => rw [dmaWrite_ok hw (h.ordinary x), dmaWrite_ok (s := withDraws d s) hw (h.ordinary x)]; rfl
    | false => rw [dmaWrite_error hw, dmaWrite_error (s := withDraws d s) hw, herr]

theorem Undrawn.seqStep_withDraws {s : State} (h : Undrawn s) (d : Nat) :
    Machine.seqStep (withDraws d s) = (match Machine.seqStep s with
      | .next t => .next (withDraws d t)
      | .fault r => .fault r
      | .refused r => .refused r) := by
  have hseq : (withDraws d s).seq = s.seq := rfl
  have hval : ∀ i, validate i (withDraws d s) = validate i s := validate_congr rfl rfl rfl
  have hbody : ∀ i, bodyTrace i (withDraws d s) = bodyTrace i s := bodyTrace_congr rfl rfl
  have hverdict : ∀ i, verdictTrace i (withDraws d s) = verdictTrace i s := verdictTrace_congr rfl rfl
  match hs : s.seq with
  | .idle => simp only [Machine.seqStep, hseq, hs]
  | .run c [] => simp only [Machine.seqStep, hseq, hs]
  | .run c (.validate i :: rest) =>
    simp only [Machine.seqStep, hseq, hs, hval, hbody]
    cases validate i s <;> rfl
  | .run c (.branch i :: rest) => simp only [Machine.seqStep, hseq, hs, hverdict]; rfl
  | .run c (.act a :: rest) =>
    simp only [Machine.seqStep, hseq, hs, h.perform_withDraws]
    cases perform a s <;> rfl
  | .run c (.finish e :: rest) => simp only [Machine.seqStep, hseq, hs]; rfl

theorem Undrawn.advance_withDraws {s : State} (h : Undrawn s) (hb : busy s = true) (d n : Nat) :
    advance n (withDraws d s) = withDraws d (advance n s) := by
  induction n generalizing s with
  | zero => rfl
  | succ n ih =>
    have hfin : atFinish (withDraws d s) = atFinish s := rfl
    simp only [advance, hfin, h.seqStep_withDraws]
    cases hf : atFinish s with
    | true => rfl
    | false =>
      cases ht : Machine.seqStep s with
      | next t =>
        have htb := busy_seqStep hb hf ht
        exact ih (h.seqStep ht htb) htb
      | fault r => rfl
      | refused r => rfl

/-- Up to n sequencer steps without the finish are some number of sequencer steps, and the command still runs. -/
theorem seqRun_advance (n : Nat) {s : State} (hb : busy s = true) :
    ∃ m, seqRun m s = .next (advance n s) ∧ busy (advance n s) = true := by
  induction n generalizing s with
  | zero => exact ⟨0, rfl, hb⟩
  | succ n ih =>
    unfold advance
    cases hf : atFinish s with
    | true => exact ⟨0, rfl, hb⟩
    | false =>
      cases ht : seqStep s with
      | next t =>
        obtain ⟨m, hm, hmb⟩ := ih (busy_seqStep hb hf ht)
        exact ⟨m + 1, seqRun_succ_eq_next.mpr ⟨t, ht, hm⟩, hmb⟩
      | fault r => exact ⟨0, rfl, hb⟩
      | refused r => exact ⟨0, rfl, hb⟩

/-! ## The command a reset abandons (70_reset_and_hazards.md R159) -/

/-- A reset undoes some of the writes of the command it abandons, or lets the sequencer perform some more of its elements. -/
theorem abandoned_cases (s : State) :
    (∃ k, (abandoned s).mem = rollBack k s.undo s.mem) ∨ ∃ k d, abandoned s = advance k (withDraws d s) := by
  unfold abandoned
  simp only
  split
  · exact .inl ⟨_, rfl⟩
  · exact .inr ⟨_, _, rfl⟩

/-- Memory as an abandoned command leaves it is memory after some number of its elements, the finish not among them. -/
theorem memRead_abandoned_reached {n : Nat} {s t : State} (hs : Undrawn s) (hundo : s.undo = []) (h : seqRun n s = .next t)
    (ht : busy t = true) :
    ∃ m u, seqRun m s = .next u ∧ busy u = true ∧ ∀ x, memRead (abandoned t).mem x = memRead u.mem x := by
  rcases abandoned_cases t with ⟨k, hk⟩ | ⟨k, d, hk⟩
  · rw [hk]
    exact memRead_rollBack_reached hundo h ht k
  · obtain ⟨m, hm, hmb⟩ := seqRun_advance k ht
    rw [hk, (hs.seqRun h ht).advance_withDraws ht]
    exact ⟨n + m, advance k t, seqRun_trans h hm, hmb, fun _ => rfl⟩

theorem resetStep_mem_idle {s : State} (hb : busy s = false) : (resetStep s).mem = s.mem := by
  show (if busy s then abandoned s else s).mem = s.mem
  rw [hb, if_neg Bool.false_ne_true]

theorem resetStep_mem_busy {s : State} (hb : busy s = true) : (resetStep s).mem = (abandoned s).mem := by
  show (if busy s then abandoned s else s).mem = (abandoned s).mem
  rw [if_pos hb]

theorem resetStep_inputs_idle {s : State} (hb : busy s = false) : (resetStep s).inputs = s.inputs := by
  show (if busy s then abandoned s else s).inputs = s.inputs
  rw [hb, if_neg Bool.false_ne_true]

end Sys2Proof.Machine
end

section
/-! The statements about reset (70_reset_and_hazards.md), settled from the lemmas above. -/

namespace Sys2Proof.Settled

open Sys2Proof.Machine

/-- Settles O19: a reset of an idle block is a host action like any other; a reset of a running command finds it abandoned. -/
theorem resetAndMemory : Obligations.ResetAndMemory := by
  refine ⟨fun s ar rest hb hin hpoll => ?_, fun s0 s w n _ hspecial hh hrun hb => ?_⟩
  · exact ⟨_, step_delivers hb hin hpoll rfl, resetStep_mem_idle (s := { s with inputs := rest }) hb, rfl,
      resetStep_inputs_idle (s := { s with inputs := rest }) hb⟩
  · rw [resetStep_mem_busy hb]
    exact memRead_abandoned_reached (undrawn_acceptWord hspecial hh w) rfl hrun hb

/-- Settles O18: the block's registers are those of `State.reset`, and SCRUBBED follows (10_state.md R45). -/
theorem resetInternal : Obligations.ResetInternal := by
  refine ⟨fun s => ?_, rfl⟩
  obtain ⟨hkey, hctx, hnl, hcs, hks, hotk, hetag, hstag, hdiff, hencK, hjctr, hmac⟩ := resetStep_sameKept s
  exact ⟨hctx, hkey, hnl, hcs, hks, hotk, hetag, hstag, hdiff, hencK, hjctr, hmac, rfl, scrubbed_resetStep s⟩

end Sys2Proof.Settled
end

section
/-! The number of accesses and primitive calls of a trace, subroutine by subroutine (70_reset_and_hazards.md R163, 41_encrypt.md
R109). -/

namespace Sys2Proof.Machine

/-- DMA reads, DMA writes, ChaChaInit calls and MacByte calls among the elements. -/
def traceCounts (l : List Act) : Nat × Nat × Nat × Nat := (readCount l, writeCount l, initCount l, macByteCount l)

theorem traceCounts_append (l r : List Act) : traceCounts (l ++ r) = traceCounts l + traceCounts r := by
  simp only [traceCounts, readCount, writeCount, initCount, macByteCount, List.countP_append, Prod.mk_add_mk]

/-- A loop whose round k takes the totals from g k to g (k + 1). -/
theorem traceCounts_loop {f : Nat → List Act} {g : Nat → Nat × Nat × Nat × Nat} (h0 : g 0 = 0)
    (h : ∀ k, g k + traceCounts (f k) = g (k + 1)) (n : Nat) : traceCounts ((List.range n).flatMap f) = g n := by
  induction n with
  | zero => exact h0.symm
  | succ n ih =>
    rw [List.range_succ, List.flatMap_append, traceCounts_append, ih, List.flatMap_singleton]
    exact h n

/-- A loop with one element a round. -/
theorem traceCounts_loop_single {f : Nat → Act} {g : Nat → Nat × Nat × Nat × Nat} (h0 : g 0 = 0)
    (h : ∀ k, g k + traceCounts [f k] = g (k + 1)) (n : Nat) : traceCounts ((List.range n).map f) = g n := by
  rw [List.map_eq_flatMap]
  exact traceCounts_loop h0 h n

/-! ## The subroutines -/

theorem traceCounts_setMessageLen (a n : Nat) : traceCounts (setMessageLen a n) = (0, 0, 0, 0) := rfl

theorem traceCounts_readNonce (a : Addr) : traceCounts (readNonce a) = (12, 0, 0, 0) :=
  traceCounts_loop (g := fun k => (k, 0, 0, 0)) rfl (fun _ => rfl) 12

theorem traceCounts_readTag (a : Addr) : traceCounts (readTag a) = (16, 0, 0, 0) :=
  traceCounts_loop (g := fun k => (k, 0, 0, 0)) rfl (fun _ => rfl) 16

theorem traceCounts_writeTag (a : Addr) : traceCounts (writeTag a) = (0, 16, 0, 0) :=
  traceCounts_loop_single (g := fun k => (0, k, 0, 0)) rfl (fun _ => rfl) 16

theorem traceCounts_zeroFill (a : Addr) (n : Nat) : traceCounts (zeroFill a n) = (0, n, 0, 0) :=
  traceCounts_loop_single (g := fun k => (0, k, 0, 0)) rfl (fun _ => rfl) n

theorem traceCounts_ctEqual : traceCounts ctEqual = (0, 0, 0, 0) := rfl

theorem traceCounts_deriveOtk : traceCounts deriveOtk = (0, 0, 1, 0) := rfl

/-- One block of XorPass reads and writes each of its bytes once and calls ChaChaInit once (41_encrypt.md R100). -/
theorem traceCounts_xorBlock (src dst : Addr) (n j : Nat) :
    traceCounts (xorBlock src dst n j) = (min 64 (n - 64 * j), min 64 (n - 64 * j), 1, 0) := by
  have hbytes := traceCounts_loop (f := fun i => xorByte src dst (64 * j + i) i) (g := fun k => (k, k, 0, 0)) rfl (fun _ => rfl)
    (min 64 (n - 64 * j))
  have hkeystream : ∀ v, traceCounts [.reg (.setJctr v), .reg .csInit, .reg .ksBlock, .reg .clearCs] = (0, 0, 1, 0) := fun _ => rfl
  have hclear : traceCounts [.reg .clearKs] = (0, 0, 0, 0) := rfl
  rw [xorBlock, traceCounts_append, traceCounts_append, hbytes, hkeystream, hclear]
  simp only [Prod.mk_add_mk, Nat.zero_add, Nat.add_zero]

/-- The first j blocks of XorPass cover the first 64 j bytes of the text. -/
theorem traceCounts_xorPass (src dst : Addr) (n : Nat) : traceCounts (xorPass src dst n) = (n, n, blocksOf n, 0) := by
  have hround : ∀ j, (min (64 * j) n, min (64 * j) n, j, 0) + traceCounts (xorBlock src dst n j) =
      (min (64 * (j + 1)) n, min (64 * (j + 1)) n, j + 1, 0) := fun j => by
    have hnext : min (64 * j) n + min 64 (n - 64 * j) = min (64 * (j + 1)) n := by omega
    rw [traceCounts_xorBlock, ← hnext]
    rfl
  have hblocks := traceCounts_loop (g := fun j => (min (64 * j) n, min (64 * j) n, j, 0))
    (by rw [Nat.mul_zero, Nat.zero_min]; rfl) hround (blocksOf n)
  have hall : min (64 * blocksOf n) n = n := by rw [blocksOf]; omega
  rw [xorPass, traceCounts_append, hblocks, hall]
  rfl

/-! ## The Tag-Input Builder -/

/-- How many of the first k bytes of a message are read from memory: a bytes of AD, then c of ciphertext (42_tag_input.md R115). -/
def messageReads (a c k : Nat) : Nat := min k a + min (k - (a + padLen a)) c

theorem messageReads_zero (a c : Nat) : messageReads a c 0 = 0 := by simp [messageReads]

/-- The whole message reads the AD and the ciphertext once each. -/
theorem messageReads_messageLen (a c : Nat) : messageReads a c (messageLen a c) = a + c := by
  rw [messageReads, messageLen]
  omega

/-- Emit makes the read of message byte k, if that byte has one, and nothing else. -/
theorem traceCounts_emit (k a : Nat) (adAddr : Addr) (c : Nat) (ctAddr : Addr) :
    ∃ r, traceCounts (emit k a adAddr c ctAddr).1 = (r, 0, 0, 0) ∧ messageReads a c k + r = messageReads a c (k + 1) := by
  rw [emit_source, messageSource, messageReads, messageReads]
  split
  · exact ⟨1, rfl, by omega⟩
  · split
    · exact ⟨1, rfl, by omega⟩
    · exact ⟨0, rfl, by omega⟩

theorem traceCounts_macOver (a : Nat) (adAddr : Addr) (c : Nat) (ctAddr : Addr) :
    traceCounts (macOver a adAddr c ctAddr) = (a + c, 0, 0, messageLen a c) := by
  have hround : ∀ k, (messageReads a c k, 0, 0, k) + traceCounts (macStep a adAddr c ctAddr k) =
      (messageReads a c (k + 1), 0, 0, k + 1) := fun k => by
    obtain ⟨r, hr, hnext⟩ := traceCounts_emit k a adAddr c ctAddr
    have hpos : traceCounts [.reg (.setEncK (BitVec.ofNat 64 k))] = (0, 0, 0, 0) := rfl
    have hbyte : ∀ v, traceCounts [.reg (.macByte v)] = (0, 0, 0, 1) := fun _ => rfl
    rw [macStep, traceCounts_append, traceCounts_append, hr, hpos, hbyte, ← hnext]
    simp only [Prod.mk_add_mk, Nat.zero_add, Nat.add_zero]
  have hbytes := traceCounts_loop (g := fun k => (messageReads a c k, 0, 0, k)) (by rw [messageReads_zero]; rfl) hround
    (messageLen a c)
  have hbegin : traceCounts [.reg .macBegin] = (0, 0, 0, 0) := rfl
  have hend : traceCounts [.reg .macEnd, .reg .clearOtk, .reg (.setEncK 0), .reg .latchEtag] = (0, 0, 0, 0) := rfl
  rw [macOver, traceCounts_append, traceCounts_append, hbytes, hbegin, hend, messageReads_messageLen]
  simp only [Prod.mk_add_mk, Nat.zero_add, Nat.add_zero]

theorem traceCounts_taginActs (s : State) :
    traceCounts (taginActs s) = (adLen s + textLen .tagin s, messageLen (adLen s) (textLen .tagin s), 0, 0) := by
  have hround : ∀ k, (messageReads (adLen s) (textLen .tagin s) k, k, 0, 0) +
      traceCounts (taginStep (adLen s) (addrOf s .ad) (textLen .tagin s) (addrOf s .inp) (addrOf s .out) k) =
      (messageReads (adLen s) (textLen .tagin s) (k + 1), k + 1, 0, 0) := fun k => by
    obtain ⟨r, hr, hnext⟩ := traceCounts_emit k (adLen s) (addrOf s .ad) (textLen .tagin s) (addrOf s .inp)
    have hpos : traceCounts [.reg (.setEncK (BitVec.ofNat 64 k))] = (0, 0, 0, 0) := rfl
    have hstore : ∀ a v, traceCounts [.wr a v] = (0, 1, 0, 0) := fun _ _ => rfl
    rw [taginStep, traceCounts_append, traceCounts_append, hr, hpos, hstore, ← hnext]
    simp only [Prod.mk_add_mk, Nat.zero_add, Nat.add_zero]
  have hbytes := traceCounts_loop (g := fun k => (messageReads (adLen s) (textLen .tagin s) k, k, 0, 0))
    (by rw [messageReads_zero]; rfl) hround (messageLen (adLen s) (textLen .tagin s))
  have hlen : ∀ v, traceCounts [.reg (.setMsgLen v)] = (0, 0, 0, 0) := fun _ => rfl
  have hpos : traceCounts [.reg (.setEncK 0)] = (0, 0, 0, 0) := rfl
  rw [taginActs, traceCounts_append, traceCounts_append, hbytes, hlen, hpos, messageReads_messageLen]
  simp only [Prod.mk_add_mk, Nat.zero_add, Nat.add_zero]

/-! ## The commands -/

theorem traceCounts_loadkeyActs (s : State) : traceCounts (loadkeyActs s) = (32, 0, 0, 0) := by
  have hbytes := traceCounts_loop (f := readKeyByte (addrOf s .key)) (g := fun k => (k, 0, 0, 0)) rfl (fun _ => rfl) 32
  rw [loadkeyActs, traceCounts_append, traceCounts_append, hbytes]
  rfl

/-- What ENC and ENCC have in common, and the tag written to wherever it goes (41_encrypt.md R102, R103, R109). -/
theorem traceCounts_seal (s : State) (n : Nat) (ta : Addr) :
    traceCounts (sealActs s n ++ writeTag ta) = (12 + 2 * n + adLen s, n + 16, blocksOf n + 1, messageLen (adLen s) n) := by
  simp only [sealActs, traceCounts_append, traceCounts_setMessageLen, traceCounts_readNonce, traceCounts_xorPass,
    traceCounts_deriveOtk, traceCounts_macOver, traceCounts_writeTag, Prod.mk_add_mk, Prod.mk.injEq]
  omega

/-- What DEC and DECC have in common, up to the choice (43_decrypt.md R127, R128). -/
theorem traceCounts_openActs (s : State) (n : Nat) (ta : Addr) :
    traceCounts (openActs s n ta) = (12 + adLen s + n + 16, 0, 1, messageLen (adLen s) n) := by
  simp only [openActs, traceCounts_append, traceCounts_setMessageLen, traceCounts_readNonce, traceCounts_deriveOtk,
    traceCounts_macOver, traceCounts_readTag, traceCounts_ctEqual, Prod.mk_add_mk, Nat.zero_add, Nat.add_zero, Nat.add_assoc]

theorem traceCounts_open_accept (i : Instr) (s : State) (ta : Addr) :
    traceCounts (openActs s (textLen i s) ta ++ acceptActs i s) =
      (12 + adLen s + 2 * textLen i s + 16, textLen i s, blocksOf (textLen i s) + 1, messageLen (adLen s) (textLen i s)) := by
  simp only [acceptActs, traceCounts_append, traceCounts_openActs, traceCounts_xorPass, Prod.mk_add_mk, Prod.mk.injEq]
  omega

theorem traceCounts_open_reject (i : Instr) (s : State) (ta : Addr) :
    traceCounts (openActs s (textLen i s) ta ++ rejectActs i s) =
      (12 + adLen s + textLen i s + 16, textLen i s, 1, messageLen (adLen s) (textLen i s)) := by
  simp only [rejectActs, traceCounts_append, traceCounts_openActs, traceCounts_zeroFill, Prod.mk_add_mk, Nat.zero_add, Nat.add_zero]

end Sys2Proof.Machine
end

section
/-! The statement about the counts of a trace (70_reset_and_hazards.md R163), settled from the lemmas above. -/

namespace Sys2Proof.Settled

open Sys2Proof.Machine

/-- Settles O58: the counts add up over the subroutines; ENC and ENCC, and DEC and DECC, differ only in where the tag is. -/
theorem traceCounts : Obligations.TraceCounts := by
  intro s
  exact ⟨traceCounts_loadkeyActs s, traceCounts_seal s _ _, traceCounts_seal s _ _, traceCounts_open_accept .dec s _,
    traceCounts_open_reject .dec s _, traceCounts_open_accept .decc s _, traceCounts_open_reject .decc s _,
    traceCounts_taginActs s, rfl⟩

end Sys2Proof.Settled
end
